-- ==== Sys2Proof/Word.lean ====
section
/-! DEFINITION. The words of the block: the port word, a byte, a symbol, a line of symbols. -/

namespace Sys2Proof

/-- One 32-bit word of the host port, and of every CSR (R21, R60). -/
abbrev Word := BitVec 32

/-- One element of BYTES (R40). -/
abbrev Byte := BitVec 8

/-- One symbol (R11): an unsigned number of SYM_W bits, SYM_W ≤ 21 (R9), held zero-extended to 21 bits.
A push port refuses a symbol that needs more than the configuration's SYM_W bits (R66). -/
abbrev Symbol := BitVec 21

/-- A line, and a text: a sequence of symbols (R14). -/
abbrev Line := List Symbol

end Sys2Proof
end

