-- ==== Sys2Proof/Config.lean ====
section
/-! DEFINITION. What an implementation fixes: the parameters of R8, R9 and R113, and the values the spec leaves
unspecified (free values: constants without a body). -/

namespace Sys2Proof

/-- The parameter LCS_TIE (R113): which neighbour the recurrence takes when both have the same length. -/
inductive LcsTie where
  /-- take S(i, j−1): this hardware -/
  | left
  /-- take S(i−1, j): the other reading of the source (D8, U11) -/
  | up
deriving DecidableEq, Repr

/-- The parameters of R8 (WORD is fixed at 32) and LCS_TIE. The derived ones are functions below. -/
structure Config where
  /-- SYM_W, the width of a symbol -/
  symW : Nat
  /-- MAX_LINES, the most lines in A, and in B -/
  maxLines : Nat
  /-- MAX_IN_SYMS, the most symbols in A, and in B -/
  maxInSyms : Nat
  /-- MAX_TEXT, the capacity of TEXT and of DTEXT -/
  maxText : Nat
  /-- MAX_SYMS, the most distinct symbols of a tree -/
  maxSyms : Nat
  /-- MAX_BITS, the capacity of BITS -/
  maxBits : Nat
  /-- LCS_TIE -/
  lcsTie : LcsTie
deriving DecidableEq, Repr

/-- MAX_NODES, always 2·MAX_SYMS − 1 (R8). -/
def Config.maxNodes (c : Config) : Nat := 2 * c.maxSyms - 1

/-- MAX_CODE_LEN, always max(1, MAX_SYMS − 1) (R8). -/
def Config.maxCodeLen (c : Config) : Nat := max 1 (c.maxSyms - 1)

/-- MAX_BYTES, always MAX_BITS / 8 (R8). -/
def Config.maxBytes (c : Config) : Nat := c.maxBits / 8

/-- The defaults of R8's table, and LCS_TIE = LEFT, the value of this hardware (R113). -/
def Config.default : Config :=
  { symW := 21, maxLines := 1024, maxInSyms := 65536, maxText := 135168, maxSyms := 256,
    maxBits := 4194304, lcsTie := .left }

/-- BASE, where the 128 words sit in a system's address map: OPEN, and no rule reads it (R80, U7). -/
opaque Config.BASE : Nat

/-- What a read of RD_D0 to RD_D2 returns when the selection is not valid: unspecified (R75, U1). The k-th such
read of a run returns the k-th of these, and nothing is known of any of them. -/
opaque Config.unspecifiedRead : Nat → Word

end Sys2Proof
end

