-- ==== Sys2Proof/Syntax.lean ====
section
/-! DEFINITION. The commands: one constructor for each row of the opcode table (R92, R98). -/

namespace Sys2Proof

/-- The thirteen rows of the command map. A command has no operand field: its operands are the buffers and CSRs
its rule names (R90). The two forms of UNPACK and of CMP are rows of their own. -/
inductive Instr where
  /-- DIFF: the line differ (R110) -/
  | diff
  /-- BTREE: frequencies and Huffman tree (R130) -/
  | btree
  /-- BCODES: the code map of the tree (R141) -/
  | bcodes
  /-- ENCODE: TEXT to BITS (R160) -/
  | encode
  /-- DECODE: BITS to DTEXT (R170) -/
  | decode
  /-- PACK: BITS to BYTES (R185) -/
  | pack
  /-- UNPACK: BYTES to BITS, raw (R189) -/
  | unpack
  /-- UNPACK.t: BYTES to BITS, cut to PK_BITS (R191) -/
  | unpackT
  /-- CMP: compare DTEXT with TEXT into VERIFIED (R200) -/
  | cmp
  /-- CMP.p: the same into VERIFIED_PK (R200) -/
  | cmpP
  /-- STAT: the size statistics (R202) -/
  | stat
  /-- RUN: the pipeline (R205) -/
  | run
  /-- CLR: acknowledge an error, clear the flags (R211) -/
  | clr
deriving DecidableEq, Repr

end Sys2Proof
end

