-- ==== Sys2Proof/WellFormed.lean ====
section
/-! DEFINITION. What is well formed: the fields of a CMD word (R91, R94) and a configuration (R9). -/

namespace Sys2Proof

/-- The fields of a CMD word (R91). -/
structure CmdFields where
  /-- bits 7:0, the opcode -/
  op : Nat
  /-- bit 8, the modifier "truncate" -/
  t : Bool
  /-- bit 9, the modifier "packed" -/
  p : Bool
  /-- bits 31:10, reserved -/
  reserved : Nat
deriving DecidableEq, Repr

/-- Why a CMD word is illegal (R94). Every reason raises the same ERR_ILLEGAL_CMD. -/
inductive Reject where
  /-- a bit of 31:10 is set -/
  | reservedBits
  /-- the opcode is none of 0x01 to 0x0A, 0x0F -/
  | reservedOpcode (op : Nat)
  /-- the modifier t with an opcode other than UNPACK -/
  | modifierT
  /-- the modifier p with an opcode other than CMP -/
  | modifierP
deriving DecidableEq, Repr

/-- The reserved bits are 0 (R94). -/
def CmdFields.reservedZero (f : CmdFields) : Bool := f.reserved == 0

/-- The opcode is one of R92's map. -/
def CmdFields.knownOp (f : CmdFields) : Bool := (1 ≤ f.op && f.op ≤ 0x0A) || f.op == 0x0F

/-- t = 1 only with UNPACK (R94). -/
def CmdFields.tAllowed (f : CmdFields) : Bool := !f.t || f.op == 0x07

/-- p = 1 only with CMP (R94). -/
def CmdFields.pAllowed (f : CmdFields) : Bool := !f.p || f.op == 0x08

/-- A CMD word is legal exactly when all four hold (R94). -/
def CmdFields.legal (f : CmdFields) : Bool := f.reservedZero && f.knownOp && f.tAllowed && f.pAllowed

/-- The constraints of R9: a configuration that breaks one is not a configuration of this hardware. -/
def Config.wf (c : Config) : Bool :=
  decide (1 ≤ c.maxLines) && decide (1 ≤ c.maxInSyms) && decide (1 ≤ c.maxSyms) &&
  decide (2 * c.maxInSyms + 4 * c.maxLines ≤ c.maxText) && decide (c.maxNodes ≤ 65536) &&
  decide (c.maxBits % 8 = 0) && decide (4 * c.maxText < 2 ^ 32) && decide (4 * c.maxInSyms < 2 ^ 32) &&
  decide (100 * c.maxBytes < 2 ^ 32) && decide (c.maxBits < 2 ^ 32) && decide (1 ≤ c.symW) && decide (c.symW ≤ 21)

/-- A command has no operand, so each one is well formed; its fields are always a legal word's
(`encode_legal`). -/
def Instr.wf : Instr → Bool
  | .diff | .btree | .bcodes | .encode | .decode | .pack | .unpack | .unpackT | .cmp | .cmpP | .stat | .run
  | .clr => true

end Sys2Proof
end

