-- ==== Sys2Proof/Decode.lean ====
section
/-! DEFINITION. Decoding a CMD word (R91 to R94) and encoding a command (R98). -/

namespace Sys2Proof

/-- `w[hi:lo]`, the field from bit hi down to bit lo, both included, as an unsigned number (R13). -/
def bitField (w : Word) (hi lo : Nat) : Nat := w.toNat / 2 ^ lo % 2 ^ (hi + 1 - lo)

/-- The fields of a CMD word (R91). -/
def cmdFields (w : Word) : CmdFields :=
  { op := bitField w 7 0, t := w.getLsbD 8, p := w.getLsbD 9, reserved := bitField w 31 10 }

/-- The opcode map (R92), with the modifiers read as they stand (R93). -/
def decodeOp (op : Nat) (t p : Bool) : Except Reject Instr :=
  match op with
  | 0x01 => .ok .diff
  | 0x02 => .ok .btree
  | 0x03 => .ok .bcodes
  | 0x04 => .ok .encode
  | 0x05 => .ok .decode
  | 0x06 => .ok .pack
  | 0x07 => .ok (if t then .unpackT else .unpack)
  | 0x08 => .ok (if p then .cmpP else .cmp)
  | 0x09 => .ok .stat
  | 0x0A => .ok .run
  | 0x0F => .ok .clr
  | n => .error (.reservedOpcode n)

/-- The command a CMD word stands for, or why it is illegal (R94). -/
def decode (w : Word) : Except Reject Instr :=
  let f := cmdFields w
  if f.reservedZero = false then .error .reservedBits
  else if f.tAllowed = false then .error .modifierT
  else if f.pAllowed = false then .error .modifierP
  else decodeOp f.op f.t f.p

/-- The opcode of a command (R92). -/
def opcode : Instr → Nat
  | .diff => 0x01
  | .btree => 0x02
  | .bcodes => 0x03
  | .encode => 0x04
  | .decode => 0x05
  | .pack => 0x06
  | .unpack => 0x07
  | .unpackT => 0x07
  | .cmp => 0x08
  | .cmpP => 0x08
  | .stat => 0x09
  | .run => 0x0A
  | .clr => 0x0F

/-- What the modifier of a mnemonic adds to its word: 0x100 for `.t`, 0x200 for `.p` (R98). -/
def modifier : Instr → Nat
  | .unpackT => 0x100
  | .cmpP => 0x200
  | .diff | .btree | .bcodes | .encode | .decode | .pack | .unpack | .cmp | .stat | .run | .clr => 0

/-- The CMD word of a command (R98). A command is one word (R95). -/
def encode (i : Instr) : Word := BitVec.ofNat 32 (opcode i + modifier i)

/-- The command read from a table row's word: one 32-bit word, `nbits` of them given, the others 0. -/
def decodeTableWord (nbits w : Nat) : Option Instr :=
  match decode (BitVec.ofNat 32 (w % 2 ^ nbits)) with
  | .ok i => some i
  | .error _ => none

end Sys2Proof
end

