-- ==== Sys2Proof/Machine/State.lean ====
section
/-! DEFINITION. The state of the block (R20 to R45), its reset value, the host's port operations, and the reasons a
step can stop. -/

namespace Sys2Proof.Machine

/-- The error codes (R230); `none` is code 0. ERRCODE never holds another value. -/
inductive ErrCode where
  /-- 0: no error is recorded -/
  | none
  /-- 1, ERR_ILLEGAL_CMD: a CMD write with an illegal word (R231) -/
  | illegalCmd
  /-- 2, ERR_EMPTY_INPUT: BTREE on an empty TEXT (R232) -/
  | emptyInput
  /-- 3, ERR_UNKNOWN_SYMBOL: ENCODE meets a symbol without a code (R233) -/
  | unknownSymbol
  /-- 4, ERR_CAPACITY: a result does not fit its buffer (R234) -/
  | capacity
  /-- 5, ERR_BAD_TREE: NODE is not a tree, or repeats a leaf symbol (R235) -/
  | badTree
  /-- 6, ERR_INVALID_CODE: a bit 1 under a single-leaf tree (R236) -/
  | invalidCode
  /-- 7, ERR_OPERAND: an operand is not of the form the operation needs (R237) -/
  | operand
deriving DecidableEq, Repr

/-- A record of NODE (R37), as the tagged variant the source asks for: an internal record has no symbol and a leaf
no children, so the fields R37 says are 0 there do not exist. Frequencies and indices are naturals (R10); that
they fit their 32 and 16 bits is part of `Memory.wf`. -/
inductive NodeRec where
  /-- kind = 0 -/
  | leaf (sym : Symbol) (freq : Nat)
  /-- kind = 1 -/
  | internal (freq left right : Nat)
deriving DecidableEq, Repr

/-- An entry of FREQ (R35). -/
structure FreqEntry where
  /-- the symbol -/
  sym : Symbol
  /-- the number of times it occurs in TEXT -/
  cnt : Nat
deriving DecidableEq, Repr

/-- An entry of CODE (R38); its `len` is the length of `bits`. -/
structure CodeEntry where
  /-- the symbol -/
  sym : Symbol
  /-- its code, first bit first -/
  bits : List Bool
deriving DecidableEq, Repr

/-- What the host does at the block (R60, R260): one port operation, or the assertion of the reset input. -/
inductive HostOp where
  /-- HostWrite(addr, data) -/
  | write (addr : Nat) (data : Word)
  /-- HostRead(addr) -/
  | read (addr : Nat)
  /-- the reset input is asserted -/
  | reset
deriving DecidableEq, Repr

/-- The whole state (R20, R22, R30, R36, R44), plain data. A buffer is a list (R30), and its length register is the
length of the list (R44). The last three fields are the model's own: the host as an agent, and the free values. -/
structure State where
  /-- the parameters (R8), constants of the machine; the CAP registers show five of them (R25) -/
  cfg : Config
  /-- STATUS.BUSY (R23): 1 while a command runs -/
  busy : Bool := false
  /-- STATUS.DONE (R23, R42) -/
  done : Bool := false
  /-- STATUS.ERR (R23, R42) -/
  err : Bool := false
  /-- STATUS.VERIFIED (R23, R42) -/
  verified : Bool := false
  /-- STATUS.VERIFIED_PK (R23, R42) -/
  verifiedPk : Bool := false
  /-- STATUS.MISMATCH (R23, R42) -/
  mismatch : Bool := false
  /-- STATUS.EMPTY (R23, R42) -/
  empty : Bool := false
  /-- STATUS.DEC_PARTIAL (R23, R42) -/
  decPartial : Bool := false
  /-- STATUS.PHASE, and the sequencer's phase while a command runs (R15, R41) -/
  phase : BitVec 4 := 0
  /-- STATUS.STEP, and the sequencer's step while a command runs (R15, R41) -/
  stepOrd : BitVec 4 := 0
  /-- ERRCODE (R24) -/
  errCode : ErrCode := .none
  /-- ERRINFO0 (R24) -/
  errInfo0 : Word := 0
  /-- ERRINFO1 (R24) -/
  errInfo1 : Word := 0
  /-- buffer 0, A_SYM (R30, R31); A_SYMS is its length -/
  aSym : List Symbol := []
  /-- buffer 1, A_END (R30, R31); A_LINES is its length -/
  aEnd : List Nat := []
  /-- buffer 2, B_SYM (R30, R31); B_SYMS is its length -/
  bSym : List Symbol := []
  /-- buffer 3, B_END (R30, R31); B_LINES is its length -/
  bEnd : List Nat := []
  /-- buffer 4, LCS (R32); LCS_LEN is its length -/
  lcs : List Nat := []
  /-- buffer 5, TEXT (R33); TEXT_LEN is its length -/
  text : List Symbol := []
  /-- buffer 6, FREQ (R35); FREQ_CNT is its length -/
  freq : List FreqEntry := []
  /-- buffer 7, NODE (R37); NODE_CNT is its length -/
  node : List NodeRec := []
  /-- buffer 8, CODE (R38); CODE_CNT is its length -/
  code : List CodeEntry := []
  /-- buffer 9, BITS (R39); BIT_LEN is its length -/
  bits : List Bool := []
  /-- buffer 10, BYTES (R40); BYTE_LEN is its length -/
  bytes : List Byte := []
  /-- buffer 11, DTEXT (R34); DTEXT_LEN is its length -/
  dtext : List Symbol := []
  /-- PK_BITS (R27) -/
  pkBits : Word := 0
  /-- A_BYTES (R28) -/
  aBytes : Word := 0
  /-- B_BYTES (R28) -/
  bBytes : Word := 0
  /-- TEXT_BYTES (R28) -/
  textBytes : Word := 0
  /-- RATIO_Q (R28) -/
  ratioQ : Word := 0
  /-- RATIO_R (R28) -/
  ratioR : Word := 0
  /-- NODE_W0, staging (R36) -/
  nodeW0 : Word := 0
  /-- NODE_W1, staging (R36) -/
  nodeW1 : Word := 0
  /-- RD_BUF (R29) -/
  rdBuf : Word := 0
  /-- RD_IDX (R29) -/
  rdIdx : Word := 0
  /-- RD_SUB (R29) -/
  rdSub : Word := 0
  /-- the model's own: what the host will still do, in order (R82) -/
  script : List HostOp := []
  /-- the model's own: the word the last HostRead returned -/
  readData : Option Word := none
  /-- the model's own: how many unspecified reads have been made, the index of the next free value (R75) -/
  draws : Nat := 0
deriving DecidableEq, Repr

/-- Why a step stops with a fault. -/
inductive Fault where
  /-- The host used a word address outside the block's 128 (R60, R80). Raised by the port. Safe: the model stops
  where the hardware has no such access. -/
  | noSuchAddress (addr : Nat)
deriving DecidableEq, Repr

/-- Why a step is refused. -/
inductive Refusal where
  /-- An instruction without a meaning. No arm of `exec` answers with it. Safe. -/
  | notModelled (mnemonic : String)
  /-- The host used a reserved address, for which the spec asks the model to refuse (R62, U6). Raised by the port.
  Safe: what the hardware does is `portRead` and `portWrite`, and no run leans on it. -/
  | reservedAddress (addr : Nat)
  /-- The host made a port operation other than reading STATUS while BUSY = 1 (R61, U5): outside the spec. Raised by
  the port; no reachable state has BUSY = 1. Safe. -/
  | busyAccess (addr : Nat)
deriving DecidableEq, Repr

/-- The reset state of a machine with the parameters `c` (R45, R261): every register 0, every buffer empty. -/
def State.resetOf (c : Config) : State := { cfg := c }

/-- The machine right after reset, with the default parameters of R8 (R45, R261). No host operation is pending. -/
def State.reset : State := State.resetOf Config.default

end Sys2Proof.Machine
end

