-- ==== Sys2Proof/Machine/Flags.lean ====
section
/-! DEFINITION. STATUS: the word the host reads (R23), the error code numbers (R230), and every write of a flag
(R42). -/

namespace Sys2Proof.Machine

/-- The number of an error code (R230). -/
def ErrCode.number : ErrCode → Nat
  | .none => 0
  | .illegalCmd => 1
  | .emptyInput => 2
  | .unknownSymbol => 3
  | .capacity => 4
  | .badTree => 5
  | .invalidCode => 6
  | .operand => 7

/-- One flag at its bit position. -/
def flagBit (b : Bool) (pos : Nat) : Nat := if b then 2 ^ pos else 0

/-- The word HostRead(0x01) returns (R23): bits 31:16 are 0. -/
def statusWord (s : State) : Word :=
  BitVec.ofNat 32
    (flagBit s.busy 0 + flagBit s.done 1 + flagBit s.err 2 + flagBit s.verified 3 + flagBit s.verifiedPk 4 +
      flagBit s.mismatch 5 + flagBit s.empty 6 + flagBit s.decPartial 7 + s.phase.toNat * 2 ^ 8 +
      s.stepOrd.toNat * 2 ^ 12)

/-- The result flags that CLR and the start of RUN clear (R206, R211). -/
def clearResultFlags (s : State) : State :=
  { s with verified := false, verifiedPk := false, mismatch := false, empty := false, decPartial := false }

/-- CMP's flags (R200): VERIFIED takes the result, MISMATCH is set and never cleared. -/
def setVerified (eq : Bool) (s : State) : State := { s with verified := eq, mismatch := s.mismatch || !eq }

/-- CMP.p's flags (R200): VERIFIED_PK takes the result, MISMATCH is set and never cleared. -/
def setVerifiedPk (eq : Bool) (s : State) : State := { s with verifiedPk := eq, mismatch := s.mismatch || !eq }

/-- The flags of RUN's bypass (R207). -/
def setEmptyDiff (s : State) : State := { s with empty := true, verified := true, verifiedPk := true }

end Sys2Proof.Machine
end

