-- ==== Sys2Proof/Machine/Ops.lean ====
section
/-! DEFINITION. The shared operations: how a command is accepted and how it ends (R97), the error entry (R240) and the
return from an error (R211, R244), appending to a buffer (R15), and number helpers. -/

namespace Sys2Proof.Machine

/-- A natural as a 32-bit register value (R10: under R9 no value a rule writes needs more). -/
def word (n : Nat) : Word := BitVec.ofNat 32 n

/-- `ceil8(n)`, the least c with 8·c ≥ n (R15). -/
def ceil8 (n : Nat) : Nat := (n + 7) / 8

/-- What the body of a command answers: `ok` with the state it leaves, or `error` with the state after the error
entry. -/
abbrev Ended := Except State State

/-- The error entry (R240): the record, the sequencer position, ERR. What it does to DONE depends on who raised: a
command ends by `endRaised`, a port write leaves DONE. The outputs are invalidated by the caller first (R241). -/
def errorEntry (e : ErrCode) (i0 i1 : Word) (ph st : BitVec 4) (s : State) : State :=
  { s with errCode := e, errInfo0 := i0, errInfo1 := i1, phase := ph, stepOrd := st, err := true }

/-- `raise E(i0, i1)` inside a command (R15, R240): the position recorded is the sequencer's own. -/
def raise (e : ErrCode) (i0 i1 : Word) (s : State) : Ended := .error (errorEntry e i0 i1 s.phase s.stepOrd s)

/-- A port write that cannot be performed (R65): ERRINFO0 is the port's address, ERRINFO1 the data word, PHASE and
STEP are 0, DONE is not touched. -/
def portError (e : ErrCode) (addr : Nat) (d : Word) (s : State) : State := errorEntry e (word addr) d 0 0 s

/-- The start of an accepted command (R97 (2), (4)): BUSY is 1, DONE is 0, phase is the opcode, step is 0. -/
def accept (op : BitVec 4) (s : State) : State := { s with busy := true, done := false, phase := op, stepOrd := 0 }

/-- The end of a command that did not raise (R97 (5)). -/
def endNormal (s : State) : State := { s with phase := 0, stepOrd := 0, busy := false, done := true }

/-- The end of a command that raised (R240 (5)): PHASE and STEP stay as the error entry recorded them. -/
def endRaised (s : State) : State := { s with busy := false, done := true }

/-- How a command ends (R97 (5), R240 (5)). -/
def finish : Ended → State
  | .ok s => endNormal s
  | .error s => endRaised s

/-- A command other than CLR (R97): while ERR = 1 the write is ignored, otherwise the command is accepted, its rule is
executed, and it ends. One step. -/
def command (op : BitVec 4) (body : State → Ended) (s : State) : Host.Outcome State Fault Refusal :=
  if s.err then .next s else .next (finish (body (accept op s)))

/-- A CMD write with an illegal word (R97 (1) to (3), R231). -/
def illegalCommand (w : Word) (s : State) : State :=
  if s.err then s else endRaised (errorEntry .illegalCmd w 0 0 0 (accept 0 s))

/-- The return from an error (R211, R244): the error record and the flags are cleared, every buffer is kept. -/
def clearErrors (s : State) : State :=
  clearResultFlags { s with err := false, errCode := .none, errInfo0 := 0, errInfo1 := 0, phase := 0, stepOrd := 0 }

/-- `append(BUF, v)` (R15): the sequence with v at its end, or nothing when it is full. -/
def appendTo {α : Type} (cap : Nat) (buf : List α) (v : α) : Option (List α) :=
  if buf.length = cap then none else some (buf ++ [v])

/-- The state after the reset input was asserted (R260): the reset state of the same machine. The host's remaining
operations, what it last read and the count of free values are the model's own and stay. -/
def hostReset (s : State) : State :=
  { State.resetOf s.cfg with script := s.script, readData := s.readData, draws := s.draws }

end Sys2Proof.Machine
end

