-- ==== Sys2Proof/Machine/Operands.lean ====
section
/-! DEFINITION. Every operand form: the lines of A and B (R31), the data words of the push ports (R66 to R71), the tree
in NODE (R16, R140), and the words the read window shows (R74). -/

namespace Sys2Proof.Machine

/-! ### Lines -/

/-- `start(i)` (R31): where line i begins. -/
def lineStart (ends : List Nat) (i : Nat) : Nat := if i = 0 then 0 else ends.getD (i - 1) 0

/-- `lineA(i)`, `lineB(i)` (R31). -/
def lineAt (sym : List Symbol) (ends : List Nat) (i : Nat) : Line :=
  (sym.drop (lineStart ends i)).take (ends.getD i 0 - lineStart ends i)

/-- All closed lines, in order (R31). -/
def linesOf (sym : List Symbol) (ends : List Nat) : List Line := (List.range ends.length).map (lineAt sym ends)

/-- There is an open line: symbols were pushed after the last closed line (R31). -/
def openLine (sym : List Symbol) (ends : List Nat) : Bool := decide (ends.getLastD 0 < sym.length)

/-- The lines of A. -/
def linesA (s : State) : List Line := linesOf s.aSym s.aEnd

/-- The lines of B. -/
def linesB (s : State) : List Line := linesOf s.bSym s.bEnd

/-! ### Data words of the push ports -/

/-- A symbol operand (R66): d[SYM_W−1:0], with d[31:SYM_W] = 0. -/
def symbolOperand (c : Config) (d : Word) : Option Symbol :=
  if bitField d 31 c.symW = 0 then some (d.setWidth 21) else none

/-- A bit operand (R70): d[0], with d[31:1] = 0. -/
def bitOperand (d : Word) : Option Bool := if bitField d 31 1 = 0 then some (d.getLsbD 0) else none

/-- A byte operand (R71): d[7:0], with d[31:8] = 0. -/
def byteOperand (d : Word) : Option Byte := if bitField d 31 8 = 0 then some (d.setWidth 8) else none

/-- The record NODE_W2 builds from the two staged words and its own (R69), with its three field checks. -/
def nodeOperand (c : Config) (w0 w1 d : Word) : Option NodeRec :=
  let sym := bitField w0 (c.symW - 1) 0
  if bitField w0 30 c.symW ≠ 0 then none
  else if w0.getLsbD 31 then
    if sym ≠ 0 then none else some (.internal w1.toNat (bitField d 15 0) (bitField d 31 16))
  else if d ≠ 0 then none
  else some (.leaf (BitVec.ofNat 21 sym) w1.toNat)

/-! ### The tree in NODE -/

/-- The freq field of a record (R37). -/
def NodeRec.freq : NodeRec → Nat
  | .leaf _ f => f
  | .internal f _ _ => f

/-- The children of a record, left first; a leaf has none (R37). -/
def NodeRec.children : NodeRec → List Nat
  | .leaf _ _ => []
  | .internal _ l r => [l, r]

/-- The record is a leaf (kind = 0). -/
def NodeRec.isLeaf : NodeRec → Bool
  | .leaf _ _ => true
  | .internal _ _ _ => false

/-- How often index q is the left or the right of an internal record (R140 (c)). -/
def childCount (nodes : List NodeRec) (q : Nat) : Nat := (nodes.flatMap NodeRec.children).count q

/-- Condition (b) of R140 at record p. -/
def childrenBelow (p : Nat) : NodeRec → Bool
  | .leaf _ _ => true
  | .internal _ l r => decide (l < p) && decide (r < p) && decide (l ≠ r)

/-- Condition (b) of R140 at the record that index p names. -/
def recordOk (nodes : List NodeRec) (p : Nat) : Bool :=
  match nodes[p]? with
  | some n => childrenBelow p n
  | none => true

/-- The witness of R140 that NODE is no tree: (a), then the smallest p for (b), then the smallest q for (c). -/
def treeFault (nodes : List NodeRec) : Option Nat :=
  if nodes.length = 0 then some 0
  else
    match (List.range nodes.length).find? (fun p => !recordOk nodes p) with
    | some p => some p
    | none => (List.range (nodes.length - 1)).find? (fun q => !decide (childCount nodes q = 1))

/-! ### The read window -/

/-- The three words of a NODE record (R69, R74). -/
def nodeWords : NodeRec → Word × Word × Word
  | .leaf sym f => (sym.setWidth 32, word f, 0)
  | .internal f l r => (0x80000000#32, word f, word (r * 2 ^ 16 + l))

/-- Chunk c of a code (R74): bit t of the code, for 32·c ≤ t < 32·c + 32, at bit 31 − (t − 32·c); the rest 0. -/
def codeChunk (bits : List Bool) (c : Nat) : Word :=
  word (((List.range 32).map fun k => if bits.getD (32 * c + k) false then 2 ^ (31 - k) else 0).sum)

/-- The words of element `k` of the buffer with id `id` (R74's table); `none` when there is no such element. -/
def bufferWords (id k sub : Nat) (s : State) : Option (Word × Word × Word) :=
  match id with
  | 0 => s.aSym[k]?.map fun x => (x.setWidth 32, 0, 0)
  | 1 => s.aEnd[k]?.map fun x => (word x, 0, 0)
  | 2 => s.bSym[k]?.map fun x => (x.setWidth 32, 0, 0)
  | 3 => s.bEnd[k]?.map fun x => (word x, 0, 0)
  | 4 => s.lcs[k]?.map fun x => (word x, 0, 0)
  | 5 => s.text[k]?.map fun x => (x.setWidth 32, 0, 0)
  | 6 => s.freq[k]?.map fun e => (e.sym.setWidth 32, word e.cnt, 0)
  | 7 => s.node[k]?.map nodeWords
  | 8 => s.code[k]?.map fun e => (e.sym.setWidth 32, word e.bits.length, codeChunk e.bits sub)
  | 9 => s.bits[k]?.map fun b => (word b.toNat, 0, 0)
  | 10 => s.bytes[k]?.map fun b => (b.setWidth 32, 0, 0)
  | 11 => s.dtext[k]?.map fun x => (x.setWidth 32, 0, 0)
  | _ => none

/-- What RD_BUF, RD_IDX and RD_SUB select (R74): nothing when the selection is not valid. RD_BUF[31:4] ≠ 0 makes the
id above 11. -/
def windowWords (s : State) : Option (Word × Word × Word) :=
  bufferWords s.rdBuf.toNat s.rdIdx.toNat s.rdSub.toNat s

end Sys2Proof.Machine
end

