-- ==== Sys2Proof/Machine/Differ.lean ====
section
/-! DEFINITION. The line differ: DIFF (R110 to R121). -/

namespace Sys2Proof.Machine

/-- The mark of a removal (R12). -/
def HYPHEN : Symbol := 0x2D

/-- The mark of an addition (R12). -/
def PLUS : Symbol := 0x2B

/-- The symbol after a mark (R12, R116). -/
def SPACE : Symbol := 0x20

/-- The cells 1, 2, … of row i of the length table (R114), for the line `a` = a_i. `prev` is row i−1 from column
j−1 on, `l` is L(i, j−1). -/
def rowCells (a : Line) : List Line → List Nat → Nat → List Nat
  | b :: bs, d :: u :: us, l =>
    let c := if a = b then d + 1 else if l ≥ u then l else u
    c :: rowCells a bs (u :: us) c
  | _, _, _ => []

/-- Row i of the length table from row i−1 (R114); L(i, 0) = 0. -/
def nextRow (bs : List Line) (prev : List Nat) (a : Line) : List Nat := 0 :: rowCells a bs prev 0

/-- The rows of the length table from a given row on, one more for each line of A. -/
def lcsRows (bs : List Line) : List Line → List Nat → List (List Nat)
  | [], row => [row]
  | a :: as, row => row :: lcsRows bs as (nextRow bs row a)

/-- The dynamic-programming table (R114), (m+1) rows of (n+1) lengths; L(0, j) = 0. -/
def lcsTable (as bs : List Line) : List (List Nat) := lcsRows bs as (List.replicate (bs.length + 1) 0)

/-- L(i, j) of a table (R114). -/
def cell (table : List (List Nat)) (i j : Nat) : Nat := (table.getD i []).getD j 0

/-- On a mismatch, whether the recurrence takes S(i, j−1), of length `l`, and not S(i−1, j), of length `u` (R112,
R113). -/
def takesLeft (tie : LcsTie) (l u : Nat) : Bool :=
  match tie with
  | .left => decide (u ≤ l)
  | .up => decide (u < l)

/-- The walk back from (i, j) (R114). The indices it meets come in falling order, so that consing each in front of
`acc` gives `reverse(stack)`. Each pass lowers i or j, so `fuel` = i + j passes suffice. -/
def walkBack (tie : LcsTie) (as bs : List Line) (table : List (List Nat)) : Nat → Nat → Nat → List Nat → List Nat
  | 0, _, _, acc => acc
  | fuel + 1, i, j, acc =>
    if i = 0 ∨ j = 0 then acc
    else if as.getD (i - 1) [] = bs.getD (j - 1) [] then walkBack tie as bs table fuel (i - 1) (j - 1) ((i - 1) :: acc)
    else if takesLeft tie (cell table i (j - 1)) (cell table (i - 1) j) then walkBack tie as bs table fuel i (j - 1) acc
    else walkBack tie as bs table fuel (i - 1) j acc

/-- The content of LCS (R114). -/
def lcsIndices (tie : LcsTie) (as bs : List Line) : List Nat :=
  walkBack tie as bs (lcsTable as bs) (as.length + bs.length) as.length bs.length []

/-- `emit(mark, line)` (R116). -/
def emit (mark : Symbol) (line : Line) : List Symbol := mark :: SPACE :: line

/-- The walk that produces the text (R115), over the lines of A and of B still to come and the common lines still to
come. The next common line is found by value. -/
def walkText : List Line → List Line → List Line → List Symbol
  | [], as, bs => as.flatMap (emit HYPHEN) ++ bs.flatMap (emit PLUS)
  | c :: cs, as, bs =>
    (as.takeWhile (fun x => decide (x ≠ c))).flatMap (emit HYPHEN) ++
      (bs.takeWhile (fun x => decide (x ≠ c))).flatMap (emit PLUS) ++
      walkText cs ((as.dropWhile (fun x => decide (x ≠ c))).drop 1) ((bs.dropWhile (fun x => decide (x ≠ c))).drop 1)

/-- The lines that a list of indices into A names (R32). -/
def commonLines (as : List Line) (idx : List Nat) : List Line := idx.map fun i => as.getD i []

/-- The diff text of two line sequences: a function of them and the tie alone (R117). -/
def diffText (tie : LcsTie) (as bs : List Line) : List Symbol := walkText (commonLines as (lcsIndices tie as bs)) as bs

/-- What a failed DIFF leaves of its outputs (R241). -/
def invalidateDiff (s : State) : State := { s with lcs := [], text := [] }

/-- The results of DIFF (R110). That TEXT and LCS fit their buffers is R114 and R118. -/
def writeDiff (s : State) : State :=
  { s with
    lcs := lcsIndices s.cfg.lcsTie (linesA s) (linesB s)
    text := diffText s.cfg.lcsTie (linesA s) (linesB s) }

/-- The rule of DIFF: the open-line check (R111), then the results. -/
def diffBody (s : State) : Ended :=
  if openLine s.aSym s.aEnd then raise .operand 0 (word s.aSym.length) (invalidateDiff s)
  else if openLine s.bSym s.bEnd then raise .operand 1 (word s.bSym.length) (invalidateDiff s)
  else .ok (writeDiff s)

/-- DIFF (R110), CMD word 0x00000001. -/
def execDiff (s : State) : Host.Outcome State Fault Refusal := command 0x1 diffBody s

end Sys2Proof.Machine
end

