-- ==== Sys2Proof/Machine/HuffDecode.lean ====
section
/-! DEFINITION. The Huffman decoder: DECODE (R170 to R179). -/

namespace Sys2Proof.Machine

/-- The child of record `cur` on a bit: left on 0, right on 1 (R173). -/
def childOn (nodes : List NodeRec) (cur : Nat) (b : Bool) : Nat :=
  match nodes[cur]? with
  | some (.internal _ l r) => if b then r else l
  | _ => cur

/-- The loop for a root that is an internal record (R173), from bit k on, at cursor `cur`, with `out` emitted: the text and
the cursor at the end, or the error with its two details (R176). -/
def decodeFrom (nodes : List NodeRec) (cap root : Nat) :
    List Bool → Nat → Nat → List Symbol → Except (ErrCode × Word × Word) (List Symbol × Nat)
  | [], _, cur, out => .ok (out, cur)
  | b :: rest, k, cur, out =>
    match nodes[childOn nodes cur b]? with
    | some (.leaf s _) =>
      match appendTo cap out s with
      | some out' => decodeFrom nodes cap root rest (k + 1) root out'
      | none => .error (.capacity, word k, s.setWidth 32)
    | _ => decodeFrom nodes cap root rest (k + 1) (childOn nodes cur b) out

/-- The loop for a root that is a leaf with symbol `s` (R174). -/
def decodeLeaf (s : Symbol) (cap : Nat) :
    List Bool → Nat → List Symbol → Except (ErrCode × Word × Word) (List Symbol)
  | [], _, out => .ok out
  | b :: rest, k, out =>
    if b then .error (.invalidCode, word k, 1)
    else
      match appendTo cap out s with
      | some out' => decodeLeaf s cap rest (k + 1) out'
      | none => .error (.capacity, word k, s.setWidth 32)

/-- The decoder on a tree (R173, R174): the text, and whether it ended inside a code (R175). -/
def decodeBits (nodes : List NodeRec) (cap : Nat) (bits : List Bool) : Except (ErrCode × Word × Word) (List Symbol × Bool) :=
  let root := nodes.length - 1
  match nodes[root]? with
  | some (.leaf s _) =>
    match decodeLeaf s cap bits 0 [] with
    | .ok out => .ok (out, false)
    | .error e => .error e
  | _ =>
    match decodeFrom nodes cap root bits 0 root [] with
    | .ok (out, cur) => .ok (out, decide (cur ≠ root))
    | .error e => .error e

/-- What a failed DECODE leaves of its outputs (R241), and a DECODE of no bits (R171). -/
def invalidateDecode (s : State) : State := { s with dtext := [], decPartial := false }

/-- The results of DECODE (R170). -/
def writeDecode (t : List Symbol) (p : Bool) (s : State) : State := { s with dtext := t, decPartial := p }

/-- The rule of DECODE: R171, R172, then R173 or R174, then R175. -/
def decodeBody (s : State) : Ended :=
  if s.bits = [] then .ok (writeDecode [] false s)
  else
    match treeFault s.node with
    | some q => raise .badTree (word q) (word s.node.length) (invalidateDecode s)
    | none =>
      match decodeBits s.node s.cfg.maxText s.bits with
      | .error (e, i0, i1) => raise e i0 i1 (invalidateDecode s)
      | .ok (t, p) => .ok (writeDecode t p s)

/-- DECODE (R170), CMD word 0x00000005. -/
def execDecode (s : State) : Host.Outcome State Fault Refusal := command 0x5 decodeBody s

end Sys2Proof.Machine
end

