-- ==== Sys2Proof/Machine/HuffTree.lean ====
section
/-! DEFINITION. The Huffman tree builder: BTREE and BCODES (R130 to R147). -/

namespace Sys2Proof.Machine

/-! ### BTREE -/

/-- One more occurrence of a symbol that FREQ holds (R132); nothing when FREQ does not hold it. -/
def bump (s : Symbol) : List FreqEntry → Option (List FreqEntry)
  | [] => none
  | e :: es => if e.sym = s then some ({ e with cnt := e.cnt + 1 } :: es) else (bump s es).map (e :: ·)

/-- The frequency count (R132) over the symbols from index k on, or the index and symbol of the first one that does not
fit (R139). -/
def countFreq (cap : Nat) : List Symbol → Nat → List FreqEntry → Except (Nat × Symbol) (List FreqEntry)
  | [], _, f => .ok f
  | s :: rest, k, f =>
    match bump s f with
    | some f' => countFreq cap rest (k + 1) f'
    | none =>
      match appendTo cap f ⟨s, 1⟩ with
      | some f' => countFreq cap rest (k + 1) f'
      | none => .error (k, s)

/-- The freq of the record at an index. -/
def freqAt (nodes : List NodeRec) (q : Nat) : Nat :=
  match nodes[q]? with
  | some n => n.freq
  | none => 0

/-- The queue order of this hardware (R134): by freq, then by index. -/
def byFreqThenIndex (nodes : List NodeRec) (x y : Nat) : Bool :=
  decide (freqAt nodes x < freqAt nodes y) || (decide (freqAt nodes x = freqAt nodes y) && decide (x < y))

/-- `least(Q)` (R134) under an order, for a queue given as its first index and the others. -/
def leastOf (before : Nat → Nat → Bool) (q : Nat) (qs : List Nat) : Nat :=
  qs.foldl (fun m x => if before x m then x else m) q

/-- The merging loop (R133). `order` is the parameter HEAP_TIE (R134): the queue order as a function of the records.
Each pass makes the queue one shorter, so `fuel` = |Q| passes suffice. The first popped is the left child (R135). -/
def mergeLoop (order : List NodeRec → Nat → Nat → Bool) : Nat → List NodeRec → List Nat → List NodeRec
  | 0, nodes, _ => nodes
  | _, nodes, [] => nodes
  | _, nodes, [_] => nodes
  | fuel + 1, nodes, q0 :: q1 :: qs =>
    let x := leastOf (order nodes) q0 (q1 :: qs)
    match (q0 :: q1 :: qs).erase x with
    | [] => nodes
    | r :: rs =>
      let y := leastOf (order nodes) r rs
      mergeLoop order fuel (nodes ++ [.internal (freqAt nodes x + freqAt nodes y) x y])
        ((r :: rs).erase y ++ [nodes.length])

/-- The leaves of a frequency table, in its order (R133). -/
def leavesOf (freq : List FreqEntry) : List NodeRec := freq.map fun e => .leaf e.sym e.cnt

/-- The records BTREE writes from a frequency table (R133). -/
def buildNodes (order : List NodeRec → Nat → Nat → Bool) (freq : List FreqEntry) : List NodeRec :=
  mergeLoop order freq.length (leavesOf freq) (List.range freq.length)

/-- What a failed BTREE leaves of its outputs (R131, R139, R241). -/
def invalidateTree (s : State) : State := { s with freq := [], node := [], code := [] }

/-- The results of BTREE (R130); CODE is emptied (R137). -/
def writeTree (f : List FreqEntry) (s : State) : State :=
  { s with freq := f, node := buildNodes byFreqThenIndex f, code := [] }

/-- The rule of BTREE: R131, R132, R133. -/
def btreeBody (s : State) : Ended :=
  if s.text = [] then raise .emptyInput 0 0 (invalidateTree s)
  else
    match countFreq s.cfg.maxSyms s.text 0 [] with
    | .error (k, x) => raise .capacity (word k) (x.setWidth 32) (invalidateTree s)
    | .ok f => .ok (writeTree f s)

/-- BTREE (R130), CMD word 0x00000002. -/
def execBtree (s : State) : Host.Outcome State Fault Refusal := command 0x2 btreeBody s

/-! ### BCODES -/

/-- A code map has an entry for the symbol. -/
def hasCode (s : Symbol) (code : List CodeEntry) : Bool := code.any fun e => decide (e.sym = s)

/-- The traversal (R142) with the explicit stack, its top first: an index and the bits from the root to it. The answer is
CODE, or the index and symbol of a leaf that repeats a symbol (R144). Under TreeOK each record is popped once, so
`fuel` = NODE_CNT passes empty the stack. -/
def traverse (nodes : List NodeRec) :
    Nat → List (Nat × List Bool) → List CodeEntry → Except (Nat × Symbol) (List CodeEntry)
  | _, [], code => .ok code
  | 0, _ :: _, code => .ok code
  | fuel + 1, (p, pre) :: stack, code =>
    match nodes[p]? with
    | some (.leaf s _) => if hasCode s code then .error (p, s) else traverse nodes fuel stack (code ++ [⟨s, pre⟩])
    | some (.internal _ l r) => traverse nodes fuel ((l, pre ++ [false]) :: (r, pre ++ [true]) :: stack) code
    | none => traverse nodes fuel stack code

/-- The code map of a tree: R143 when the root is a leaf, R142 otherwise. The root is the last record (R16). -/
def codesOf (nodes : List NodeRec) : Except (Nat × Symbol) (List CodeEntry) :=
  match nodes[nodes.length - 1]? with
  | some (.leaf s _) => .ok [⟨s, [false]⟩]
  | _ => traverse nodes nodes.length [(nodes.length - 1, [])] []

/-- What a failed BCODES leaves of its output (R241). -/
def invalidateCode (s : State) : State := { s with code := [] }

/-- The result of BCODES (R141). -/
def writeCode (c : List CodeEntry) (s : State) : State := { s with code := c }

/-- The rule of BCODES (R141): TreeOK (R140), then R143 or R142; a repeated symbol sets bit 31 of ERRINFO1 (R144). -/
def bcodesBody (s : State) : Ended :=
  match treeFault s.node with
  | some q => raise .badTree (word q) (word s.node.length) (invalidateCode s)
  | none =>
    match codesOf s.node with
    | .error (p, x) => raise .badTree (word p) (word (0x80000000 + x.toNat)) (invalidateCode s)
    | .ok c => .ok (writeCode c s)

/-- BCODES (R141), CMD word 0x00000003. -/
def execBcodes (s : State) : Host.Outcome State Fault Refusal := command 0x3 bcodesBody s

end Sys2Proof.Machine
end

