-- ==== Sys2Proof/Machine/HuffEncode.lean ====
section
/-! DEFINITION. The Huffman encoder: ENCODE (R160 to R163). -/

namespace Sys2Proof.Machine

/-- The code of a symbol in a code map (R160); the entry is unique (R38). -/
def lookupCode (code : List CodeEntry) (s : Symbol) : Option (List Bool) :=
  match code with
  | [] => none
  | e :: es => if e.sym = s then some e.bits else lookupCode es s

/-- Append the bits of one code, each while BIT_LEN is below the capacity (R160); nothing when one does not fit. -/
def appendBits (cap : Nat) : List Bool → List Bool → Option (List Bool)
  | out, [] => some out
  | out, b :: bs =>
    match appendTo cap out b with
    | some out' => appendBits cap out' bs
    | none => none

/-- The loop of ENCODE (R160) over the symbols from index k on: the bits, or the error, index and symbol it stops at (R161,
R162). -/
def encodeFrom (cap : Nat) (code : List CodeEntry) :
    List Symbol → Nat → List Bool → Except (ErrCode × Nat × Symbol) (List Bool)
  | [], _, out => .ok out
  | s :: rest, k, out =>
    match lookupCode code s with
    | none => .error (.unknownSymbol, k, s)
    | some c =>
      match appendBits cap out c with
      | none => .error (.capacity, k, s)
      | some out' => encodeFrom cap code rest (k + 1) out'

/-- What a failed ENCODE or UNPACK.t leaves of its output (R241). -/
def invalidateBits (s : State) : State := { s with bits := [] }

/-- The result of ENCODE and of UNPACK: BITS. -/
def writeBits (b : List Bool) (s : State) : State := { s with bits := b }

/-- The rule of ENCODE (R160). -/
def encodeBody (s : State) : Ended :=
  match encodeFrom s.cfg.maxBits s.code s.text 0 [] with
  | .error (e, k, x) => raise e (word k) (x.setWidth 32) (invalidateBits s)
  | .ok b => .ok (writeBits b s)

/-- ENCODE (R160), CMD word 0x00000004. -/
def execEncode (s : State) : Host.Outcome State Fault Refusal := command 0x4 encodeBody s

end Sys2Proof.Machine
end

