-- ==== Sys2Proof/Machine/Packer.lean ====
section
/-! DEFINITION. The bit packer: PACK, UNPACK, UNPACK.t (R185 to R193). -/

namespace Sys2Proof.Machine

/-- `bit(k)` (R186): BITS[k], and 0 at and above BIT_LEN. -/
def bitAt (bits : List Bool) (k : Nat) : Bool := bits.getD k false

/-- Byte c of the packed bits (R186): the first bit of the chunk is the most significant. -/
def packByte (bits : List Bool) (c : Nat) : Byte :=
  BitVec.ofNat 8 (((List.range 8).map fun t => (bitAt bits (8 * c + t)).toNat * 2 ^ (7 - t)).sum)

/-- `pack(bitString)` (R185). -/
def packBits (bits : List Bool) : List Byte := (List.range (ceil8 bits.length)).map (packByte bits)

/-- The eight bits of a byte, bit 7 first (R189). -/
def byteBits (b : Byte) : List Bool := (List.range 8).map fun u => b.getLsbD (7 - u)

/-- `unpack(bytes)` (R189). -/
def unpackBytes (bytes : List Byte) : List Bool := bytes.flatMap byteBits

/-- The results of PACK (R185, R187). -/
def writePack (s : State) : State := { s with bytes := packBits s.bits, pkBits := word s.bits.length }

/-- The rule of PACK (R185). It has no error (R186). -/
def packBody (s : State) : Ended := .ok (writePack s)

/-- The rule of UNPACK with t = 0 (R189, R190). It has no error. -/
def unpackBody (s : State) : Ended := .ok (writeBits (unpackBytes s.bytes) s)

/-- The rule of UNPACK.t (R191): PK_BITS must be a length these bytes can have; then expand and truncate. -/
def unpackTBody (s : State) : Ended :=
  if ceil8 s.pkBits.toNat ≠ s.bytes.length then raise .operand s.pkBits (word s.bytes.length) (invalidateBits s)
  else .ok (writeBits ((unpackBytes s.bytes).take s.pkBits.toNat) s)

/-- PACK (R185), CMD word 0x00000006. -/
def execPack (s : State) : Host.Outcome State Fault Refusal := command 0x6 packBody s

/-- UNPACK (R189), CMD word 0x00000007. -/
def execUnpack (s : State) : Host.Outcome State Fault Refusal := command 0x7 unpackBody s

/-- UNPACK.t (R191), CMD word 0x00000107. -/
def execUnpackT (s : State) : Host.Outcome State Fault Refusal := command 0x7 unpackTBody s

end Sys2Proof.Machine
end

