-- ==== Sys2Proof/Machine/Sequencer.lean ====
section
/-! DEFINITION. The sequencer: CMP, CMP.p, STAT, RUN, CLR (R200 to R212). -/

namespace Sys2Proof.Machine

/-! ### CMP -/

/-- DTEXT equals TEXT: the same length and the same symbol at every index (R200). -/
def textsEqual (s : State) : Bool := decide (s.dtext = s.text)

/-- The rule of CMP (R200). A difference is a flag, not an error (R201). -/
def cmpBody (s : State) : Ended := .ok (setVerified (textsEqual s) s)

/-- The rule of CMP.p (R200). -/
def cmpPBody (s : State) : Ended := .ok (setVerifiedPk (textsEqual s) s)

/-- CMP (R200), CMD word 0x00000008. -/
def execCmp (s : State) : Host.Outcome State Fault Refusal := command 0x8 cmpBody s

/-- CMP.p (R200), CMD word 0x00000208. -/
def execCmpP (s : State) : Host.Outcome State Fault Refusal := command 0x8 cmpPBody s

/-! ### STAT -/

/-- `utf8len(s)` (R203), total on all symbols. -/
def utf8len (x : Symbol) : Nat :=
  if x.toNat < 0x80 then 1 else if x.toNat < 0x800 then 2 else if x.toNat < 0x10000 then 3 else 4

/-- The UTF-8 size of a sequence of symbols (R202). -/
def utf8size (t : List Symbol) : Nat := (t.map utf8len).sum

/-- The ratio (R204): quotient and remainder of 100·compressed by the size of the text, both 0 when that is 0. -/
def ratio (compressed size : Nat) : Nat × Nat :=
  if size = 0 then (0, 0) else (100 * compressed / size, 100 * compressed % size)

/-- The results of STAT (R202, R204). -/
def writeStats (s : State) : State :=
  { s with
    aBytes := word (utf8size s.aSym)
    bBytes := word (utf8size s.bSym)
    textBytes := word (utf8size s.text)
    ratioQ := word (ratio s.bytes.length (utf8size s.text)).1
    ratioR := word (ratio s.bytes.length (utf8size s.text)).2 }

/-- The rule of STAT (R202). It has no error. -/
def statBody (s : State) : Ended := .ok (writeStats s)

/-- STAT (R202), CMD word 0x00000009. -/
def execStat (s : State) : Host.Outcome State Fault Refusal := command 0x9 statBody s

/-! ### RUN -/

/-- What RUN clears before step 1 (R206). -/
def clearRunOutputs (s : State) : State :=
  clearResultFlags
    { s with
      lcs := [], text := [], freq := [], node := [], code := [], bits := [], bytes := [], dtext := [], pkBits := 0
      aBytes := 0, bBytes := 0, textBytes := 0, ratioQ := 0, ratioR := 0 }

/-- One step of RUN (R206): step and phase are set, then the command named is executed by its own rule. -/
def runStep (st ph : BitVec 4) (body : State → Ended) (s : State) : Ended := body { s with stepOrd := st, phase := ph }

/-- Steps 2 to 10 of R206's table: the ordinal, the phase, the rule of the command. -/
def codecSteps : List (BitVec 4 × BitVec 4 × (State → Ended)) :=
  [(2, 0x2, btreeBody), (3, 0x3, bcodesBody), (4, 0x4, encodeBody), (5, 0x6, packBody), (6, 0x5, decodeBody),
   (7, 0x8, cmpBody), (8, 0x7, unpackTBody), (9, 0x5, decodeBody), (10, 0x8, cmpPBody)]

/-- Steps in order; a step that raises ends the run there (R206, R208). -/
def runSteps : List (BitVec 4 × BitVec 4 × (State → Ended)) → State → Ended
  | [], s => .ok s
  | (st, ph, body) :: rest, s =>
    match runStep st ph body s with
    | .ok s' => runSteps rest s'
    | .error e => .error e

/-- Steps 2 to 10, or the bypass of R207 on an empty diff text. -/
def codecOrBypass (s : State) : Ended := if s.text = [] then .ok (setEmptyDiff s) else runSteps codecSteps s

/-- The rule of RUN (R206): the clearing, step 1, steps 2 to 10 or the bypass, step 11. -/
def runBody (s : State) : Ended :=
  match runStep 1 0x1 diffBody (clearRunOutputs s) with
  | .error e => .error e
  | .ok s1 =>
    match codecOrBypass s1 with
    | .error e => .error e
    | .ok s2 => runStep 11 0x9 statBody s2

/-- RUN (R205), CMD word 0x0000000A. -/
def execRun (s : State) : Host.Outcome State Fault Refusal := command 0xA runBody s

/-! ### CLR -/

/-- CLR (R211), CMD word 0x0000000F: the only command accepted while ERR = 1 (R97 (1)). -/
def execClr (s : State) : Host.Outcome State Fault Refusal := .next (finish (.ok (clearErrors (accept 0xF s))))

end Sys2Proof.Machine
end

