-- ==== Sys2Proof/Machine/Dispatch.lean ====
section
/-! DEFINITION. The meaning of each command, as the host issues it: one arm for each constructor. -/

namespace Sys2Proof.Machine

def exec (i : Instr) (s : State) : Host.Outcome State Fault Refusal :=
  match i with
  | .diff => Sys2Proof.Machine.execDiff s
  | .btree => Sys2Proof.Machine.execBtree s
  | .bcodes => Sys2Proof.Machine.execBcodes s
  | .encode => Sys2Proof.Machine.execEncode s
  | .decode => Sys2Proof.Machine.execDecode s
  | .pack => Sys2Proof.Machine.execPack s
  | .unpack => Sys2Proof.Machine.execUnpack s
  | .unpackT => Sys2Proof.Machine.execUnpackT s
  | .cmp => Sys2Proof.Machine.execCmp s
  | .cmpP => Sys2Proof.Machine.execCmpP s
  | .stat => Sys2Proof.Machine.execStat s
  | .run => Sys2Proof.Machine.execRun s
  | .clr => Sys2Proof.Machine.execClr s

end Sys2Proof.Machine
end

