-- ==== Sys2Proof/Machine/Port.lean ====
section
/-! DEFINITION. The host port (R60 to R75): every write but that of CMD, every read, and which accesses the model
stops. -/

namespace Sys2Proof.Machine

/-- The reserved addresses (R62, U6): those of 0x00 to 0x7F that R22 does not name. -/
def reservedAddr (a : Nat) : Bool :=
  (0x0B ≤ a && a ≤ 0x0F) || (0x1D ≤ a && a ≤ 0x1F) || (0x25 ≤ a && a ≤ 0x2F) || (0x3B ≤ a && a ≤ 0x3F) ||
    (0x46 ≤ a && a ≤ 0x7F)

/-- RD_BUF, RD_IDX and RD_SUB, which the host may write while ERR = 1 (R63). -/
def isWindowSelect (a : Nat) : Bool := a == 0x40 || a == 0x41 || a == 0x42

/-- A push (R65 to R71): bad data bits raise ERR_OPERAND, then a full buffer raises ERR_CAPACITY, else the element is
appended, and `store` puts the longer sequence back. -/
def push {α : Type} (addr : Nat) (d : Word) (operand : Option α) (cap : Nat) (buf : List α) (store : List α → State)
    (s : State) : State :=
  match operand with
  | none => portError .operand addr d s
  | some v =>
    match appendTo cap buf v with
    | none => portError .capacity addr d s
    | some buf' => store buf'

/-- A_PUSH (R66). -/
def pushA (d : Word) (s : State) : State :=
  push 0x31 d (symbolOperand s.cfg d) s.cfg.maxInSyms s.aSym (fun b => { s with aSym := b }) s

/-- A_EOL (R67): the data word is ignored. -/
def closeA (d : Word) (s : State) : State :=
  push 0x32 d (some s.aSym.length) s.cfg.maxLines s.aEnd (fun b => { s with aEnd := b }) s

/-- B_PUSH (R66). -/
def pushB (d : Word) (s : State) : State :=
  push 0x33 d (symbolOperand s.cfg d) s.cfg.maxInSyms s.bSym (fun b => { s with bSym := b }) s

/-- B_EOL (R67). -/
def closeB (d : Word) (s : State) : State :=
  push 0x34 d (some s.bSym.length) s.cfg.maxLines s.bEnd (fun b => { s with bEnd := b }) s

/-- TEXT_PUSH (R68). -/
def pushText (d : Word) (s : State) : State :=
  push 0x35 d (symbolOperand s.cfg d) s.cfg.maxText s.text (fun b => { s with text := b }) s

/-- NODE_W2 (R69): the record is appended and CODE is emptied (R38). -/
def pushNode (d : Word) (s : State) : State :=
  push 0x38 d (nodeOperand s.cfg s.nodeW0 s.nodeW1 d) s.cfg.maxNodes s.node
    (fun b => { s with node := b, code := [] }) s

/-- BITS_PUSH (R70). -/
def pushBit (d : Word) (s : State) : State :=
  push 0x39 d (bitOperand d) s.cfg.maxBits s.bits (fun b => { s with bits := b }) s

/-- BYTES_PUSH (R71): PK_BITS is not written. -/
def pushByte (d : Word) (s : State) : State :=
  push 0x3A d (byteOperand d) s.cfg.maxBytes s.bytes (fun b => { s with bytes := b }) s

/-- BUF_CLR (R72): each set bit of the mask empties a buffer. -/
def bufClr (m : Word) (s : State) : State :=
  if bitField m 31 6 ≠ 0 then portError .operand 0x30 m s
  else
    { s with
      aSym := if m.getLsbD 0 then [] else s.aSym
      aEnd := if m.getLsbD 0 then [] else s.aEnd
      bSym := if m.getLsbD 1 then [] else s.bSym
      bEnd := if m.getLsbD 1 then [] else s.bEnd
      text := if m.getLsbD 2 then [] else s.text
      node := if m.getLsbD 3 then [] else s.node
      code := if m.getLsbD 3 then [] else s.code
      nodeW0 := if m.getLsbD 3 then 0 else s.nodeW0
      nodeW1 := if m.getLsbD 3 then 0 else s.nodeW1
      bits := if m.getLsbD 4 then [] else s.bits
      bytes := if m.getLsbD 5 then [] else s.bytes }

/-- HostWrite at an address other than CMD, while it is not ignored. A write to an RO address and to a reserved one has no
effect (R62, R64). -/
def writeCsr (a : Nat) (d : Word) (s : State) : State :=
  match a with
  | 0x1C => { s with pkBits := d }
  | 0x30 => bufClr d s
  | 0x31 => pushA d s
  | 0x32 => closeA d s
  | 0x33 => pushB d s
  | 0x34 => closeB d s
  | 0x35 => pushText d s
  | 0x36 => { s with nodeW0 := d }
  | 0x37 => { s with nodeW1 := d }
  | 0x38 => pushNode d s
  | 0x39 => pushBit d s
  | 0x3A => pushByte d s
  | 0x40 => { s with rdBuf := d }
  | 0x41 => { s with rdIdx := d }
  | 0x42 => { s with rdSub := d }
  | _ => s

/-- HostWrite at an address other than CMD: while ERR = 1 it is ignored but for the window selectors (R63). -/
def portWrite (a : Nat) (d : Word) (s : State) : State :=
  if s.err && !isWindowSelect a then s else writeCsr a d s

/-- ID, the constant "LCSD" (R22). -/
def idWord : Word := 0x4C435344

/-- The word a HostRead returns at an address other than RD_D0 to RD_D2 (R22): a WO address and a reserved one read 0 (R62,
R64). -/
def readCsr (a : Nat) (s : State) : Word :=
  match a with
  | 0x01 => statusWord s
  | 0x02 => word s.errCode.number
  | 0x03 => s.errInfo0
  | 0x04 => s.errInfo1
  | 0x05 => idWord
  | 0x06 => word s.cfg.maxLines
  | 0x07 => word s.cfg.maxInSyms
  | 0x08 => word s.cfg.maxText
  | 0x09 => word s.cfg.maxSyms
  | 0x0A => word s.cfg.maxBits
  | 0x10 => word s.aEnd.length
  | 0x11 => word s.aSym.length
  | 0x12 => word s.bEnd.length
  | 0x13 => word s.bSym.length
  | 0x14 => word s.lcs.length
  | 0x15 => word s.text.length
  | 0x16 => word s.freq.length
  | 0x17 => word s.node.length
  | 0x18 => word s.code.length
  | 0x19 => word s.bits.length
  | 0x1A => word s.bytes.length
  | 0x1B => word s.dtext.length
  | 0x1C => s.pkBits
  | 0x20 => s.aBytes
  | 0x21 => s.bBytes
  | 0x22 => s.textBytes
  | 0x23 => s.ratioQ
  | 0x24 => s.ratioR
  | 0x40 => s.rdBuf
  | 0x41 => s.rdIdx
  | 0x42 => s.rdSub
  | _ => 0

/-- The component of a selected element that RD_D0, RD_D1 or RD_D2 shows (R74). -/
def windowPart (a : Nat) (d : Word × Word × Word) : Word := if a = 0x43 then d.1 else if a = 0x44 then d.2.1 else d.2.2

/-- HostRead: the state after it with the word it returned. It has no effect on the block (R79). A read of RD_D0 to RD_D2 with
no valid selection returns a value nothing is known of (R75): the next free value. -/
def portRead (a : Nat) (s : State) : State :=
  if 0x43 ≤ a ∧ a ≤ 0x45 then
    match windowWords s with
    | some d => { s with readData := some (windowPart a d) }
    | none => { s with readData := some (Config.unspecifiedRead s.draws), draws := s.draws + 1 }
  else { s with readData := some (readCsr a s) }

/-- The accesses at an address that the model stops, by name: an address the block does not have (R60), a move the host has
not while BUSY = 1 (R61, U5), a reserved address (R62, U6). -/
def stopAt (a : Nat) (allowedWhileBusy : Bool) (s : State) : Option (Host.Outcome State Fault Refusal) :=
  if 0x80 ≤ a then some (.fault (.noSuchAddress a))
  else if s.busy && !allowedWhileBusy then some (.refused (.busyAccess a))
  else if reservedAddr a then some (.refused (.reservedAddress a))
  else none

/-- Which host operations the model stops. Only a read of STATUS is a move the host has while BUSY = 1 (R61). Reset is always
enabled (R260). -/
def stopOf (op : HostOp) (s : State) : Option (Host.Outcome State Fault Refusal) :=
  match op with
  | .write a _ => stopAt a false s
  | .read a => stopAt a (a == 0x01) s
  | .reset => none

end Sys2Proof.Machine
end

