-- ==== Sys2Proof/Machine/HostPort.lean ====
section
/-! DEFINITION. One operation of the host at the port: a command word written to CMD, any other write, a read, reset. -/

namespace Sys2Proof.Machine

/-- HostWrite(0x00, w) (R64, R97): the word is decoded and its command executed, or ERR_ILLEGAL_CMD recorded. -/
def issue (w : Word) (s : State) : Host.Outcome State Fault Refusal :=
  match decode w with
  | .ok i => exec i s
  | .error _ => .next (illegalCommand w s)

/-- One host operation: its effect whole, or the stop the model puts there. -/
def hostStep (op : HostOp) (s : State) : Host.Outcome State Fault Refusal :=
  match stopOf op s with
  | some stop => stop
  | none =>
    match op with
    | .write a d => if a = 0 then issue d s else .next (portWrite a d s)
    | .read a => .next (portRead a s)
    | .reset => .next (hostReset s)

end Sys2Proof.Machine
end

