-- ==== Sys2Proof/Machine/Step.lean ====
section
/-! DEFINITION. One step: the host's next operation at the port takes effect, whole (R7, R82). -/

namespace Sys2Proof.Machine

/-- One step of the machine: the host's next operation; with none pending the block is idle and waits (R45, R261). -/
def step (s : State) : Host.Outcome State Fault Refusal :=
  match s.script with
  | [] => .next s
  | op :: rest => hostStep op { s with script := rest }

/-- The state with a command word where the next step takes it: the host's next operation is HostWrite(0x00, w). -/
def State.withFetchWord (s : State) (nbits w : Nat) : State :=
  { s with script := .write 0 (BitVec.ofNat 32 (w % 2 ^ nbits)) :: s.script }

end Sys2Proof.Machine
end

