-- ==== Sys2Proof/Safety.lean ====
section
/-! DEFINITION. What counts as a safe run, and the words the statements use: the invariants of the state, TreeOK, the
recurrence of the LCS, paths in a tree. Nothing here is used by the machine. -/

namespace Sys2Proof

open Machine

/-! ### The buffers -/

/-- The buffers of one line sequence (R26, R31): within the capacities, line ends non-decreasing and within the
symbols. -/
def linesWf (c : Config) (sym : List Symbol) (ends : List Nat) : Bool :=
  decide (sym.length ≤ c.maxInSyms) && decide (ends.length ≤ c.maxLines) && decide (ends.Pairwise (· ≤ ·)) &&
    ends.all fun e => decide (e ≤ sym.length)

/-- The fields of a record fit their widths (R37): freq in 32 bits, an index in 16. -/
def nodeFits : NodeRec → Bool
  | .leaf _ f => decide (f < 2 ^ 32)
  | .internal f l r => decide (f < 2 ^ 32) && decide (l < 2 ^ 16) && decide (r < 2 ^ 16)

/-- The canonical form of the block's storage, the twelve buffers (R9, R26, R30 to R38): the parameters are those of a
machine, every length is within its capacity, and each buffer is what its rule says it always is. -/
def Memory.wf (s : State) : Bool :=
  s.cfg.wf && linesWf s.cfg s.aSym s.aEnd && linesWf s.cfg s.bSym s.bEnd &&
  decide (s.lcs.length ≤ s.cfg.maxLines) && decide (s.lcs.Pairwise (· < ·)) &&
  decide (s.text.length ≤ s.cfg.maxText) && decide (s.dtext.length ≤ s.cfg.maxText) &&
  decide (s.freq.length ≤ s.cfg.maxSyms) && decide ((s.freq.map FreqEntry.sym).Nodup) &&
  (s.freq.all fun e => decide (1 ≤ e.cnt) && decide (e.cnt < 2 ^ 32)) &&
  decide (s.node.length ≤ s.cfg.maxNodes) && s.node.all nodeFits &&
  decide (s.code.length ≤ s.cfg.maxSyms) && decide ((s.code.map CodeEntry.sym).Nodup) &&
  (s.code.all fun e => decide (1 ≤ e.bits.length) && decide (e.bits.length ≤ s.cfg.maxCodeLen)) &&
  decide (s.bits.length ≤ s.cfg.maxBits) && decide (s.bytes.length ≤ s.cfg.maxBytes)

/-! ### The error record and the flags -/

/-- The engine is idle, as the host always finds it (R23, R61), and the error record is there exactly while ERR = 1 (R24,
R41). -/
def errorRecordOk (s : State) : Bool :=
  !s.busy &&
    (if s.err then s.errCode != .none
     else s.errCode == .none && s.errInfo0 == 0 && s.errInfo1 == 0 && s.phase == 0 && s.stepOrd == 0)

/-- CODE belongs to the tree in NODE (R38, R85): it is empty, or it is what BCODES makes of NODE. -/
def CodeCoherent (s : State) : Prop := s.code = [] ∨ (treeFault s.node = none ∧ codesOf s.node = .ok s.code)

/-- The state with the flags the host only reads (R42) set to 0. -/
def forgetFlags (s : State) : State :=
  { s with done := false, verified := false, verifiedPk := false, mismatch := false, empty := false,
           decPartial := false }

/-- What a command that raised leaves of its outputs (R241); RUN's failing step is named in the error record. -/
def invalidated : Instr → State → State
  | .diff, s => { s with lcs := [], text := [] }
  | .btree, s => { s with freq := [], node := [], code := [] }
  | .bcodes, s => { s with code := [] }
  | .encode, s => { s with bits := [] }
  | .decode, s => { s with dtext := [], decPartial := false }
  | .unpackT, s => { s with bits := [] }
  | .pack, s | .unpack, s | .cmp, s | .cmpP, s | .stat, s | .run, s | .clr, s => s

/-- Commands one after another, as a host script issues them (R99). -/
def execAll : List Instr → State → Host.Outcome State Fault Refusal
  | [], s => .next s
  | i :: is, s =>
    match exec i s with
    | .next t => execAll is t
    | .fault r => .fault r
    | .refused r => .refused r

/-! ### Trees and paths -/

/-- TreeOK (R140): (a), (b) and (c). -/
def TreeOK (nodes : List NodeRec) : Prop :=
  1 ≤ nodes.length ∧
  (∀ p f l r : Nat, nodes[p]? = some (NodeRec.internal f l r) → l < p ∧ r < p ∧ l ≠ r) ∧
  ∀ q, q < nodes.length - 1 → childCount nodes q = 1

/-- The record reached from record p along the edges of a bit string, left on 0 and right on 1 (R16); none when the way
leaves the tree. -/
def follow (nodes : List NodeRec) : Nat → List Bool → Option Nat
  | p, [] => some p
  | p, b :: bs =>
    match nodes[p]? with
    | some (.internal _ l r) => follow nodes (if b then r else l) bs
    | _ => none

/-- The index of the root, the last record (R16). -/
def rootOf (nodes : List NodeRec) : Nat := nodes.length - 1

/-- The bit string leads from the root to a leaf with the symbol. -/
def LeadsTo (nodes : List NodeRec) (path : List Bool) (x : Symbol) : Prop :=
  ∃ q f, follow nodes (rootOf nodes) path = some q ∧ nodes[q]? = some (NodeRec.leaf x f)

/-- The bit string leads from the root to an internal record other than the root: it is the beginning of a code. -/
def EndsInside (nodes : List NodeRec) (path : List Bool) : Prop :=
  path ≠ [] ∧ ∃ q f l r : Nat, follow nodes (rootOf nodes) path = some q ∧ nodes[q]? = some (NodeRec.internal f l r)

/-- The root is an internal record. -/
def RootInternal (nodes : List NodeRec) : Prop := ∃ f l r : Nat, nodes[rootOf nodes]? = some (NodeRec.internal f l r)

/-- Path u parts from path v to the left: left-to-right order of leaves (R142). Neither is a beginning of the other. -/
def LeftOf (u v : List Bool) : Prop := ∃ w x y, u = w ++ false :: x ∧ v = w ++ true :: y

/-- Record p breaks condition (b) of R140. -/
def BadRecord (nodes : List NodeRec) (p : Nat) : Prop :=
  ∃ f l r : Nat, nodes[p]? = some (NodeRec.internal f l r) ∧ ¬(l < p ∧ r < p ∧ l ≠ r)

/-- q is the smallest index that witnesses that NODE is no tree: (a), then (b), then (c) (R140). -/
def TreeWitness (nodes : List NodeRec) (q : Nat) : Prop :=
  (nodes = [] ∧ q = 0) ∨
  (nodes ≠ [] ∧ BadRecord nodes q ∧ ∀ p, p < q → ¬BadRecord nodes p) ∨
  (nodes ≠ [] ∧ (∀ p, ¬BadRecord nodes p) ∧ q < nodes.length - 1 ∧ childCount nodes q ≠ 1 ∧
    ∀ p, p < q → childCount nodes p = 1)

/-- When record p was made, record q was in the queue (R133): made before p, and not yet taken as a child. -/
def InQueue (nodes : List NodeRec) (p q : Nat) : Prop :=
  q < p ∧ ∀ p' f l r : Nat, p' < p → nodes[p']? = some (NodeRec.internal f l r) → q ≠ l ∧ q ≠ r

/-- The queue order (R134): by freq, then by index. -/
def Before (nodes : List NodeRec) (x q : Nat) : Prop :=
  freqAt nodes x < freqAt nodes q ∨ (freqAt nodes x = freqAt nodes q ∧ x < q)

/-- The symbols of the leaves, by index. -/
def leafSymbols (nodes : List NodeRec) : List Symbol :=
  nodes.filterMap fun n => match n with
    | .leaf x _ => some x
    | .internal _ _ _ => none

/-! ### The longest common subsequence -/

/-- The cells S(i, ·) of the table of R112, from the cells S(i−1, ·) and a_i. -/
def lcsCells (tie : LcsTie) (bs : List Line) (a : Line) (prev : Nat → List Line) : Nat → List Line
  | 0 => []
  | j + 1 =>
    if a = bs.getD j [] then prev j ++ [a]
    else
      match tie with
      | .left =>
        if (lcsCells tie bs a prev j).length ≥ (prev (j + 1)).length then lcsCells tie bs a prev j else prev (j + 1)
      | .up =>
        if (lcsCells tie bs a prev j).length > (prev (j + 1)).length then lcsCells tie bs a prev j else prev (j + 1)

/-- S(i, j) (R112), for the lines `as` and `bs`, with the tie of R113. -/
def lcsSeq (tie : LcsTie) (as bs : List Line) : Nat → Nat → List Line
  | 0, _ => []
  | i + 1, j => lcsCells tie bs (as.getD i []) (lcsSeq tie as bs i) j

/-! ### How an operation ends, written out for the statements -/

/-- The end of a command that did not raise (R97 (5)), after the results were written. -/
def completed (s : State) : State := { s with phase := 0, stepOrd := 0, busy := false, done := true }

/-- The end of a command that raised (R240), after its outputs were invalidated. -/
def commandError (e : ErrCode) (i0 i1 : Word) (ph st : BitVec 4) (s : State) : State :=
  { s with errCode := e, errInfo0 := i0, errInfo1 := i1, phase := ph, stepOrd := st, err := true, busy := false,
           done := true }

/-- The record of a port error (R65, R240): DONE is not touched. -/
def portRecord (e : ErrCode) (addr : Nat) (d : Word) (s : State) : State :=
  { s with errCode := e, errInfo0 := BitVec.ofNat 32 addr, errInfo1 := d, phase := 0, stepOrd := 0, err := true }

/-- The host writes `d` at `a` next, and the block is idle and accepts it. -/
def Accepts (s : State) (a : Nat) (d : Word) (rest : List HostOp) : Prop :=
  s.busy = false ∧ s.err = false ∧ s.script = .write a d :: rest

/-- A and B have no open line (R31). -/
def LinesClosed (s : State) : Prop := s.aSym.length ≤ s.aEnd.getLastD 0 ∧ s.bSym.length ≤ s.bEnd.getLastD 0

end Sys2Proof
end

