-- ==== Sys2Proof/Certificates/Slice0/Obligations.lean ====
section
/-! DEFINITION. The statements for the provers. -/

open Sys2Proof Sys2Proof.Machine

/-! ### Encoding and the step -/

/-- R98: the word of each mnemonic decodes to the command it names. -/
def Obligations.SpecWordsDecode : Prop :=
  decode 0x00000001#32 = .ok .diff ∧ decode 0x00000002#32 = .ok .btree ∧ decode 0x00000003#32 = .ok .bcodes ∧
  decode 0x00000004#32 = .ok .encode ∧ decode 0x00000005#32 = .ok .decode ∧ decode 0x00000006#32 = .ok .pack ∧
  decode 0x00000007#32 = .ok .unpack ∧ decode 0x00000107#32 = .ok .unpackT ∧ decode 0x00000008#32 = .ok .cmp ∧
  decode 0x00000208#32 = .ok .cmpP ∧ decode 0x00000009#32 = .ok .stat ∧ decode 0x0000000A#32 = .ok .run ∧
  decode 0x0000000F#32 = .ok .clr

/-- R94, R98: a word decodes to a command exactly when it is that command's encoding. Every bit of the word
counts. -/
def Obligations.DecodeEncodeAgree : Prop :=
  ∀ (w : Word) (i : Instr), decode w = .ok i ↔ w = encode i

/-- R94, R231: which words are legal, and what an illegal one does when the host writes it to CMD. -/
def Obligations.LegalWordsAndIllegalRaise : Prop :=
  ∀ w : Word,
    ((∃ i, decode w = .ok i) ↔
      w.toNat / 2 ^ 10 = 0 ∧ ((1 ≤ w.toNat % 2 ^ 8 ∧ w.toNat % 2 ^ 8 ≤ 0x0A) ∨ w.toNat % 2 ^ 8 = 0x0F) ∧
      (w.getLsbD 8 = true → w.toNat % 2 ^ 8 = 0x07) ∧ (w.getLsbD 9 = true → w.toNat % 2 ^ 8 = 0x08)) ∧
    ((∀ i, decode w ≠ .ok i) → ∀ (s : State) (rest : List HostOp), Accepts s 0 w rest →
      step s = .next (commandError .illegalCmd w 0 0 0 { s with script := rest }))

/-- R64, R97: when the host's next operation writes a command word to CMD, the step is the meaning of that command on the
state with the operation taken off the host's list (the list is the model's own field, log entry 2). -/
def Obligations.StepRunsDecodedCommand : Prop :=
  ∀ (s : State) (w : Word) (i : Instr) (rest : List HostOp), s.busy = false → s.script = .write 0 w :: rest →
    decode w = .ok i → step s = exec i { s with script := rest }

/-- R63: what the block does with the host's operations while ERR = 1, at every address that R22 names. The reserved addresses and
those outside the block, which the model stops, are excluded. -/
def Obligations.ErrorGate : Prop :=
  ∀ (s : State) (rest : List HostOp), s.busy = false → s.err = true →
    let named : Nat → Prop := fun a => a ≤ 0x0A ∨ (0x10 ≤ a ∧ a ≤ 0x1C) ∨ (0x20 ≤ a ∧ a ≤ 0x24) ∨
      (0x30 ≤ a ∧ a ≤ 0x3A) ∨ (0x40 ≤ a ∧ a ≤ 0x45)
    (∀ (a : Nat) (d : Word), named a → a ≠ 0x40 → a ≠ 0x41 → a ≠ 0x42 →
      ¬(a = 0 ∧ d = 0x0000000F#32) → s.script = .write a d :: rest → step s = .next { s with script := rest }) ∧
    (∀ d : Word, s.script = .write 0x40 d :: rest → step s = .next { s with script := rest, rdBuf := d }) ∧
    (∀ d : Word, s.script = .write 0x41 d :: rest → step s = .next { s with script := rest, rdIdx := d }) ∧
    (∀ d : Word, s.script = .write 0x42 d :: rest → step s = .next { s with script := rest, rdSub := d }) ∧
    (s.script = .write 0 0x0000000F#32 :: rest → ∃ t, step s = .next t ∧ t.err = false ∧ t.errCode = .none) ∧
    ∀ a : Nat, named a → s.script = .read a :: rest →
      step s = .next (portRead a { s with script := rest }) ∧
      (a ≠ 0x01 → (portRead a { s with script := rest }).readData =
        (portRead a { s with script := rest, err := false }).readData)

/-- R62 and U6, log entry 3 (the model's choice where the spec asks for one): the model stops a host that uses an address of the
five reserved ranges of R62, by name; what the hardware does there, read 0 and ignore the write, is what the port operations do. -/
def Obligations.ReservedAddressStops : Prop :=
  ∀ (s : State) (a : Nat) (d : Word) (rest : List HostOp), s.busy = false →
    (0x0B ≤ a ∧ a ≤ 0x0F) ∨ (0x1D ≤ a ∧ a ≤ 0x1F) ∨ (0x25 ≤ a ∧ a ≤ 0x2F) ∨ (0x3B ≤ a ∧ a ≤ 0x3F) ∨
      (0x46 ≤ a ∧ a ≤ 0x7F) →
    (s.script = .write a d :: rest → step s = .refused (.reservedAddress a)) ∧
    (s.script = .read a :: rest → step s = .refused (.reservedAddress a)) ∧
    portWrite a d s = s ∧ portRead a s = { s with readData := some 0 }

/-- R60, R61, log entries 4 and 5: the host has no access outside the 128 words, and while BUSY = 1 only the read of
STATUS. -/
def Obligations.AccessesTheHostHasNot : Prop :=
  ∀ (s : State) (a : Nat) (d : Word) (rest : List HostOp),
    (0x80 ≤ a → (s.script = .write a d :: rest → step s = .fault (.noSuchAddress a)) ∧
      (s.script = .read a :: rest → step s = .fault (.noSuchAddress a))) ∧
    (a < 0x80 → s.busy = true → (s.script = .write a d :: rest → step s = .refused (.busyAccess a)) ∧
      (s.script = .read a :: rest → a ≠ 0x01 → step s = .refused (.busyAccess a))) ∧
    (s.script = .read 0x01 :: rest →
      step s = .next { s with script := rest, readData := some (statusWord s) })

/-! ### Reset -/

/-- R260: reset is always enabled and its result does not depend on the state before it (the host's own list, the last word
read and the count of free values are the model's, log entries 2 and 6). -/
def Obligations.ResetFromAnyState : Prop :=
  ∀ (s : State) (rest : List HostOp), s.script = .reset :: rest →
    step s = .next { State.resetOf s.cfg with script := rest, readData := s.readData, draws := s.draws }

/-- R45, R261: the reset state, complete: every register the host can read, every buffer, the staging words; the block waits for the
host, which is an idle step here (log entry 2). -/
def Obligations.ResetState : Prop :=
  ∀ c : Config, let s := State.resetOf c
    statusWord s = 0 ∧ s.busy = false ∧ s.done = false ∧ s.err = false ∧ s.verified = false ∧ s.verifiedPk = false ∧
    s.mismatch = false ∧ s.empty = false ∧ s.decPartial = false ∧ s.phase = 0 ∧ s.stepOrd = 0 ∧
    (∀ a, a ∈ [0x02, 0x03, 0x04, 0x10, 0x11, 0x12, 0x13, 0x14, 0x15, 0x16, 0x17, 0x18, 0x19, 0x1A, 0x1B, 0x1C, 0x20, 0x21,
      0x22, 0x23, 0x24, 0x40, 0x41, 0x42] → readCsr a s = 0) ∧
    s.aSym = [] ∧ s.aEnd = [] ∧ s.bSym = [] ∧ s.bEnd = [] ∧ s.lcs = [] ∧ s.text = [] ∧ s.freq = [] ∧ s.node = [] ∧
    s.code = [] ∧ s.bits = [] ∧ s.bytes = [] ∧ s.dtext = [] ∧ s.nodeW0 = 0 ∧ s.nodeW1 = 0 ∧
    readCsr 0x05 s = 0x4C435344#32 ∧ readCsr 0x06 s = BitVec.ofNat 32 c.maxLines ∧
    readCsr 0x07 s = BitVec.ofNat 32 c.maxInSyms ∧ readCsr 0x08 s = BitVec.ofNat 32 c.maxText ∧
    readCsr 0x09 s = BitVec.ofNat 32 c.maxSyms ∧ readCsr 0x0A s = BitVec.ofNat 32 c.maxBits ∧
    step s = .next s

/-! ### The host port -/

/-- R79: a read never has a side effect on the block. Only the model's own fields take what was read. -/
def Obligations.ReadsHaveNoSideEffect : Prop :=
  ∀ (s t : State) (a : Nat) (rest : List HostOp), s.script = .read a :: rest → step s = .next t →
    t = { s with script := rest, readData := t.readData, draws := t.draws }

/-- R23: the bits of STATUS. -/
def Obligations.StatusLayout : Prop :=
  ∀ s : State,
    (statusWord s).getLsbD 0 = s.busy ∧ (statusWord s).getLsbD 1 = s.done ∧ (statusWord s).getLsbD 2 = s.err ∧
    (statusWord s).getLsbD 3 = s.verified ∧ (statusWord s).getLsbD 4 = s.verifiedPk ∧
    (statusWord s).getLsbD 5 = s.mismatch ∧ (statusWord s).getLsbD 6 = s.empty ∧
    (statusWord s).getLsbD 7 = s.decPartial ∧ (∀ k, k < 4 → (statusWord s).getLsbD (8 + k) = s.phase.getLsbD k) ∧
    (∀ k, k < 4 → (statusWord s).getLsbD (12 + k) = s.stepOrd.getLsbD k) ∧
    ∀ k, 16 ≤ k → (statusWord s).getLsbD k = false

/-- R74: what a step that reads RD_D0 to RD_D2 returns, with ERR = 1 and with ERR = 0: the words of the selected element of each
of the twelve buffers, and the bits of a chunk of a code. -/
def Obligations.ReadWindowShowsElement : Prop :=
  ∀ (s : State) (k : Nat) (rest : List HostOp), s.busy = false → s.rdIdx.toNat = k →
    let shows : Nat → Word → Word → Word → Prop := fun id d0 d1 d2 => s.rdBuf.toNat = id →
      (s.script = .read 0x43 :: rest → step s = .next { s with script := rest, readData := some d0 }) ∧
      (s.script = .read 0x44 :: rest → step s = .next { s with script := rest, readData := some d1 }) ∧
      (s.script = .read 0x45 :: rest → step s = .next { s with script := rest, readData := some d2 })
    (∀ x : Symbol, (s.aSym[k]? = some x → shows 0 (x.setWidth 32) 0 0) ∧
      (s.bSym[k]? = some x → shows 2 (x.setWidth 32) 0 0) ∧ (s.text[k]? = some x → shows 5 (x.setWidth 32) 0 0) ∧
      (s.dtext[k]? = some x → shows 11 (x.setWidth 32) 0 0)) ∧
    (∀ n : Nat, (s.aEnd[k]? = some n → shows 1 (BitVec.ofNat 32 n) 0 0) ∧
      (s.bEnd[k]? = some n → shows 3 (BitVec.ofNat 32 n) 0 0) ∧ (s.lcs[k]? = some n → shows 4 (BitVec.ofNat 32 n) 0 0)) ∧
    (∀ e : FreqEntry, s.freq[k]? = some e → shows 6 (e.sym.setWidth 32) (BitVec.ofNat 32 e.cnt) 0) ∧
    (∀ (x : Symbol) (f : Nat), s.node[k]? = some (.leaf x f) → shows 7 (x.setWidth 32) (BitVec.ofNat 32 f) 0) ∧
    (∀ f l r : Nat, l < 2 ^ 16 → s.node[k]? = some (.internal f l r) →
      shows 7 0x80000000#32 (BitVec.ofNat 32 f) (BitVec.ofNat 16 r ++ BitVec.ofNat 16 l)) ∧
    (∀ e : CodeEntry, s.code[k]? = some e →
      ∃ d2 : Word, shows 8 (e.sym.setWidth 32) (BitVec.ofNat 32 e.bits.length) d2 ∧
        ∀ j, j < 32 → d2.getLsbD (31 - j) = e.bits.getD (32 * s.rdSub.toNat + j) false) ∧
    (∀ b : Bool, s.bits[k]? = some b → shows 9 (if b then 1 else 0) 0 0) ∧
    (∀ b : Byte, s.bytes[k]? = some b → shows 10 (b.setWidth 32) 0 0)

/-- R75, U1, log entry 6: a step that reads RD_D0 to RD_D2 without a valid selection, with ERR = 1 or 0, returns the next free value,
for any count of free values so far; a buffer id above 11 and an index at or above the length are such selections. -/
def Obligations.InvalidSelectionIsFree : Prop :=
  ∀ (s : State) (a : Nat) (rest : List HostOp), 0x43 ≤ a → a ≤ 0x45 → s.busy = false → s.script = .read a :: rest →
    (11 < s.rdBuf.toNat ∨
      ∃ len, [s.aSym.length, s.aEnd.length, s.bSym.length, s.bEnd.length, s.lcs.length, s.text.length, s.freq.length,
        s.node.length, s.code.length, s.bits.length, s.bytes.length, s.dtext.length][s.rdBuf.toNat]? = some len ∧
        len ≤ s.rdIdx.toNat) →
    step s = .next
      { s with script := rest, readData := some (Config.unspecifiedRead s.draws), draws := s.draws + 1 }

/-- R66 to R68: A_PUSH, B_PUSH and TEXT_PUSH: the reserved data bits, then the full buffer, then the append; A_EOL and B_EOL close the
open line, whatever the data word is; nothing else changes. -/
def Obligations.TextPushes : Prop :=
  ∀ (s : State) (d : Word) (rest : List HostOp), s.cfg.symW ≤ 21 →
    let u := { s with script := rest }
    (Accepts s 0x31 d rest → step s = .next
      (if d.toNat / 2 ^ s.cfg.symW ≠ 0 then portRecord .operand 0x31 d u
       else if s.aSym.length = s.cfg.maxInSyms then portRecord .capacity 0x31 d u
       else { u with aSym := s.aSym ++ [BitVec.ofNat 21 d.toNat] })) ∧
    (Accepts s 0x33 d rest → step s = .next
      (if d.toNat / 2 ^ s.cfg.symW ≠ 0 then portRecord .operand 0x33 d u
       else if s.bSym.length = s.cfg.maxInSyms then portRecord .capacity 0x33 d u
       else { u with bSym := s.bSym ++ [BitVec.ofNat 21 d.toNat] })) ∧
    (Accepts s 0x35 d rest → step s = .next
      (if d.toNat / 2 ^ s.cfg.symW ≠ 0 then portRecord .operand 0x35 d u
       else if s.text.length = s.cfg.maxText then portRecord .capacity 0x35 d u
       else { u with text := s.text ++ [BitVec.ofNat 21 d.toNat] })) ∧
    (Accepts s 0x32 d rest → step s = .next
      (if s.aEnd.length = s.cfg.maxLines then portRecord .capacity 0x32 d u
       else { u with aEnd := s.aEnd ++ [s.aSym.length] })) ∧
    (Accepts s 0x34 d rest → step s = .next
      (if s.bEnd.length = s.cfg.maxLines then portRecord .capacity 0x34 d u
       else { u with bEnd := s.bEnd ++ [s.bSym.length] }))

/-- R69: the staging words are stored without a check; NODE_W2 checks the fields in order, then the capacity, then appends the
record and empties CODE. -/
def Obligations.NodePush : Prop :=
  ∀ (s : State) (d : Word) (rest : List HostOp), 1 ≤ s.cfg.symW → s.cfg.symW ≤ 21 →
    let u := { s with script := rest }
    (Accepts s 0x36 d rest → step s = .next { u with nodeW0 := d }) ∧
    (Accepts s 0x37 d rest → step s = .next { u with nodeW1 := d }) ∧
    (Accepts s 0x38 d rest →
      let sym := s.nodeW0.toNat % 2 ^ s.cfg.symW
      let record : NodeRec :=
        if s.nodeW0.getLsbD 31 then .internal s.nodeW1.toNat (d.toNat % 2 ^ 16) (d.toNat / 2 ^ 16)
        else .leaf (BitVec.ofNat 21 sym) s.nodeW1.toNat
      step s = .next
        (if s.nodeW0.toNat % 2 ^ 31 / 2 ^ s.cfg.symW ≠ 0 then portRecord .operand 0x38 d u
         else if s.nodeW0.getLsbD 31 = true ∧ sym ≠ 0 then portRecord .operand 0x38 d u
         else if s.nodeW0.getLsbD 31 = false ∧ d ≠ 0 then portRecord .operand 0x38 d u
         else if s.node.length = 2 * s.cfg.maxSyms - 1 then portRecord .capacity 0x38 d u
         else { u with node := s.node ++ [record], code := [] }))

/-- R70, R71: BITS_PUSH and BYTES_PUSH; PK_BITS is not written. -/
def Obligations.BitAndBytePushes : Prop :=
  ∀ (s : State) (d : Word) (rest : List HostOp),
    let u := { s with script := rest }
    (Accepts s 0x39 d rest → step s = .next
      (if d.toNat / 2 ≠ 0 then portRecord .operand 0x39 d u
       else if s.bits.length = s.cfg.maxBits then portRecord .capacity 0x39 d u
       else { u with bits := s.bits ++ [decide (d.toNat = 1)] })) ∧
    (Accepts s 0x3A d rest → step s = .next
      (if d.toNat / 2 ^ 8 ≠ 0 then portRecord .operand 0x3A d u
       else if s.bytes.length = s.cfg.maxBits / 8 then portRecord .capacity 0x3A d u
       else { u with bytes := s.bytes ++ [BitVec.ofNat 8 d.toNat] }))

/-- R72: BUF_CLR empties exactly the buffers its mask names, or refuses the whole mask. -/
def Obligations.BufClrEmptiesNamedBuffers : Prop :=
  ∀ (s : State) (m : Word) (rest : List HostOp), Accepts s 0x30 m rest →
    let u := { s with script := rest }
    ∃ t, step s = .next t ∧
      (m.toNat / 2 ^ 6 ≠ 0 → t = portRecord .operand 0x30 m u) ∧
      (m.toNat / 2 ^ 6 = 0 →
        t = { u with aSym := t.aSym, aEnd := t.aEnd, bSym := t.bSym, bEnd := t.bEnd, text := t.text, node := t.node,
                     code := t.code, nodeW0 := t.nodeW0, nodeW1 := t.nodeW1, bits := t.bits, bytes := t.bytes } ∧
        (if m.getLsbD 0 then t.aSym = [] ∧ t.aEnd = [] else t.aSym = s.aSym ∧ t.aEnd = s.aEnd) ∧
        (if m.getLsbD 1 then t.bSym = [] ∧ t.bEnd = [] else t.bSym = s.bSym ∧ t.bEnd = s.bEnd) ∧
        (if m.getLsbD 2 then t.text = [] else t.text = s.text) ∧
        (if m.getLsbD 3 then t.node = [] ∧ t.code = [] ∧ t.nodeW0 = 0 ∧ t.nodeW1 = 0
         else t.node = s.node ∧ t.code = s.code ∧ t.nodeW0 = s.nodeW0 ∧ t.nodeW1 = s.nodeW1) ∧
        (if m.getLsbD 4 then t.bits = [] else t.bits = s.bits) ∧
        (if m.getLsbD 5 then t.bytes = [] else t.bytes = s.bytes))

/-- R73: PK_BITS, RD_BUF, RD_IDX and RD_SUB are stored with no check. -/
def Obligations.PlainRegisterWrites : Prop :=
  ∀ (s : State) (d : Word) (rest : List HostOp),
    (Accepts s 0x1C d rest → step s = .next { s with script := rest, pkBits := d }) ∧
    (Accepts s 0x40 d rest → step s = .next { s with script := rest, rdBuf := d }) ∧
    (Accepts s 0x41 d rest → step s = .next { s with script := rest, rdIdx := d }) ∧
    (Accepts s 0x42 d rest → step s = .next { s with script := rest, rdSub := d })

/-- R21, R22, R26, R64: a write to an RO address has no effect, a read of a WO address returns 0, and a read of an RO or RW address
returns the register there: STATUS, ERRCODE with the numbers of R230, the error details, the constants, the lengths of the buffers,
PK_BITS, the statistics, the window selectors, and at RD_D0 to RD_D2 the first, second and third word of the selected element, or a
free value (log entry 6) when nothing is selected (which words these are is `ReadWindowShowsElement`). -/
def Obligations.CsrMap : Prop :=
  (∀ (s : State) (a : Nat) (d : Word) (rest : List HostOp),
    (1 ≤ a ∧ a ≤ 0x0A) ∨ (0x10 ≤ a ∧ a ≤ 0x1B) ∨ (0x20 ≤ a ∧ a ≤ 0x24) ∨ (0x43 ≤ a ∧ a ≤ 0x45) →
    Accepts s a d rest → step s = .next { s with script := rest }) ∧
  ∀ (s : State) (a : Nat) (rest : List HostOp), s.busy = false → s.script = .read a :: rest →
    (a = 0 ∨ (0x30 ≤ a ∧ a ≤ 0x3A) → step s = .next { s with script := rest, readData := some 0 }) ∧
    (∀ (e : ErrCode) (n : Word),
      (e, n) ∈ [(ErrCode.none, 0), (ErrCode.illegalCmd, 1), (ErrCode.emptyInput, 2), (ErrCode.unknownSymbol, 3),
        (ErrCode.capacity, 4), (ErrCode.badTree, 5), (ErrCode.invalidCode, 6), (ErrCode.operand, 7)] →
      a = 0x02 → s.errCode = e → step s = .next { s with script := rest, readData := some n }) ∧
    (∀ d0 d1 d2 v : Word, windowWords s = some (d0, d1, d2) → (a, v) ∈ [(0x43, d0), (0x44, d1), (0x45, d2)] →
      step s = .next { s with script := rest, readData := some v }) ∧
    (windowWords s = none → 0x43 ≤ a → a ≤ 0x45 →
      step s = .next
        { s with script := rest, readData := some (Config.unspecifiedRead s.draws), draws := s.draws + 1 }) ∧
    ∀ v : Word,
      (a, v) ∈ [(0x01, statusWord s), (0x03, s.errInfo0), (0x04, s.errInfo1),
        (0x05, 0x4C435344#32), (0x06, BitVec.ofNat 32 s.cfg.maxLines), (0x07, BitVec.ofNat 32 s.cfg.maxInSyms),
        (0x08, BitVec.ofNat 32 s.cfg.maxText), (0x09, BitVec.ofNat 32 s.cfg.maxSyms),
        (0x0A, BitVec.ofNat 32 s.cfg.maxBits), (0x10, BitVec.ofNat 32 s.aEnd.length),
        (0x11, BitVec.ofNat 32 s.aSym.length), (0x12, BitVec.ofNat 32 s.bEnd.length),
        (0x13, BitVec.ofNat 32 s.bSym.length), (0x14, BitVec.ofNat 32 s.lcs.length),
        (0x15, BitVec.ofNat 32 s.text.length), (0x16, BitVec.ofNat 32 s.freq.length),
        (0x17, BitVec.ofNat 32 s.node.length), (0x18, BitVec.ofNat 32 s.code.length),
        (0x19, BitVec.ofNat 32 s.bits.length), (0x1A, BitVec.ofNat 32 s.bytes.length),
        (0x1B, BitVec.ofNat 32 s.dtext.length), (0x1C, s.pkBits), (0x20, s.aBytes), (0x21, s.bBytes),
        (0x22, s.textBytes), (0x23, s.ratioQ), (0x24, s.ratioR), (0x40, s.rdBuf), (0x41, s.rdIdx), (0x42, s.rdSub)] →
      step s = .next { s with script := rest, readData := some v }

/-- R65: a port write that cannot be performed records ERR_CAPACITY or ERR_OPERAND with the port's address and the data word and
changes nothing else; DONE keeps its value. -/
def Obligations.PortErrorsAreRecordsOnly : Prop :=
  ∀ (s t : State) (a : Nat) (d : Word) (rest : List HostOp), a ≠ 0 → Accepts s a d rest → step s = .next t →
    t.err = true →
    (t.errCode = .capacity ∨ t.errCode = .operand) ∧ t = portRecord t.errCode a d { s with script := rest }

/-! ### DIFF -/

/-- R110, R112 to R116: on closed lines DIFF completes; LCS holds rising indices of lines of A, which are the sequence S(m, n) of the
recurrence; TEXT is the walk's; nothing else changes. -/
def Obligations.DiffFollowsRecurrence : Prop :=
  ∀ s : State, s.err = false → LinesClosed s →
    ∃ idx : List Nat,
      exec .diff s = .next (completed
        { s with lcs := idx, text := walkText (commonLines (linesA s) idx) (linesA s) (linesB s) }) ∧
      idx.Pairwise (· < ·) ∧ (∀ i ∈ idx, i < (linesA s).length) ∧
      commonLines (linesA s) idx =
        lcsSeq s.cfg.lcsTie (linesA s) (linesB s) (linesA s).length (linesB s).length

/-- R112: what DIFF leaves in LCS is a common subsequence of A and B, and no common subsequence is longer. -/
def Obligations.DiffFindsLongestCommon : Prop :=
  ∀ s : State, s.err = false → LinesClosed s →
    ∃ t, exec .diff s = .next t ∧ t.err = false ∧
      (commonLines (linesA s) t.lcs).Sublist (linesA s) ∧ (commonLines (linesA s) t.lcs).Sublist (linesB s) ∧
      ∀ zs : List Line, zs.Sublist (linesA s) → zs.Sublist (linesB s) → zs.length ≤ t.lcs.length

/-- R115, R116, R118, R120: there is one sequence of visited lines, each consumed (none), removed (some false) or added (some true), in
which A is the lines not added, B the lines not removed, the consumed ones are the LCS, and TEXT is the marks, a space and the lines of the
others. -/
def Obligations.DiffTextReconstructs : Prop :=
  ∀ s : State, s.err = false → LinesClosed s →
    ∃ t, exec .diff s = .next t ∧ t.err = false ∧
      ∃ v : List (Option Bool × Line),
        (v.filter fun e => decide (e.1 ≠ some true)).map Prod.snd = linesA s ∧
        (v.filter fun e => decide (e.1 ≠ some false)).map Prod.snd = linesB s ∧
        (v.filter fun e => decide (e.1 = none)).map Prod.snd = commonLines (linesA s) t.lcs ∧
        t.text = v.flatMap fun e =>
          match e.1 with
          | none => []
          | some false => [0x2D#21, 0x20#21] ++ e.2
          | some true => [0x2B#21, 0x20#21] ++ e.2

/-- R31, R118: the lines DIFF works on are those of R31: as many as A_END has entries, line i the symbols of A_SYM from where line
i − 1 ends up to A_END[i], all of A_SYM when no line is open, and the same for B; within the capacities DIFF raises no
ERR_CAPACITY: the text fits TEXT and the indices fit LCS. -/
def Obligations.DiffFitsText : Prop :=
  (∀ s : State, Memory.wf s = true →
    let areLines : List Symbol → List Nat → List Line → Prop := fun sym ends lines =>
      lines.length = ends.length ∧
      (∀ e, ends[0]? = some e → lines[0]? = some (sym.take e)) ∧
      (∀ i b e, ends[i]? = some b → ends[i + 1]? = some e → lines[i + 1]? = some ((sym.take e).drop b)) ∧
      (sym.length ≤ ends.getLastD 0 → lines.flatten = sym)
    areLines s.aSym s.aEnd (linesA s) ∧ areLines s.bSym s.bEnd (linesB s)) ∧
  ∀ s : State, Memory.wf s = true → s.err = false →
    ∃ t, exec .diff s = .next t ∧ (t.err = true → t.errCode = .operand) ∧
      t.text.length ≤ s.aSym.length + s.bSym.length + 2 * (s.aEnd.length + s.bEnd.length) ∧
      t.text.length ≤ s.cfg.maxText ∧ t.lcs.length ≤ s.aEnd.length ∧ t.lcs.length ≤ s.bEnd.length ∧
      t.lcs.length ≤ s.cfg.maxLines

/-- R111: an open line of A, then one of B, raises ERR_OPERAND and empties both outputs. -/
def Obligations.DiffOpenLine : Prop :=
  ∀ s : State, s.err = false →
    (s.aEnd.getLastD 0 < s.aSym.length →
      exec .diff s = .next (commandError .operand 0 (BitVec.ofNat 32 s.aSym.length) 0x1 0 { s with lcs := [], text := [] })) ∧
    (s.aSym.length ≤ s.aEnd.getLastD 0 → s.bEnd.getLastD 0 < s.bSym.length →
      exec .diff s = .next (commandError .operand 1 (BitVec.ofNat 32 s.bSym.length) 0x1 0 { s with lcs := [], text := [] }))

/-- R119: the corner cases: A = B line for line, no line of A, no line of B, no common line. -/
def Obligations.DiffCornerCases : Prop :=
  ∀ s : State, s.err = false → LinesClosed s →
    ∃ t, exec .diff s = .next t ∧ t.err = false ∧
      (linesA s = linesB s → t.lcs = List.range (linesA s).length ∧ t.text = []) ∧
      (linesA s = [] → t.lcs = [] ∧ t.text = (linesB s).flatMap fun l => [0x2B#21, 0x20#21] ++ l) ∧
      (linesB s = [] → t.lcs = [] ∧ t.text = (linesA s).flatMap fun l => [0x2D#21, 0x20#21] ++ l) ∧
      ((∀ l ∈ linesA s, l ∉ linesB s) → t.lcs = [] ∧
        t.text = ((linesA s).flatMap fun l => [0x2D#21, 0x20#21] ++ l) ++
          (linesB s).flatMap fun l => [0x2B#21, 0x20#21] ++ l)

/-! ### BTREE -/

/-- R130, R132, R133, R138: BTREE counts the distinct symbols in order of first occurrence, makes a leaf of each and internal records up to
one root whose freq is the length of the text; the records are a tree; CODE is emptied; nothing else changes. -/
def Obligations.BtreeBuildsTree : Prop :=
  ∀ s : State, s.err = false → s.text ≠ [] → s.text.eraseDups.length ≤ s.cfg.maxSyms →
    ∃ (f : List FreqEntry) (n : List NodeRec),
      exec .btree s = .next (completed { s with freq := f, node := n, code := [] }) ∧
      f.map FreqEntry.sym = s.text.eraseDups ∧ (∀ e ∈ f, e.cnt = s.text.count e.sym) ∧
      n.length = 2 * f.length - 1 ∧ n.take f.length = (f.map fun e => NodeRec.leaf e.sym e.cnt) ∧
      (∀ p, f.length ≤ p → p < n.length → ∃ fr l r : Nat, n[p]? = some (NodeRec.internal fr l r)) ∧
      freqAt n (rootOf n) = s.text.length ∧ TreeOK n

/-- R133 to R135: each internal record has the sum of its children's frequencies, its left child is the least of the queue at its
making, and its right child the least of the rest. -/
def Obligations.BtreeMergesLeast : Prop :=
  ∀ s : State, s.err = false → s.text ≠ [] → s.text.eraseDups.length ≤ s.cfg.maxSyms →
    ∃ t, exec .btree s = .next t ∧ t.err = false ∧
      ∀ p fr x y : Nat, t.node[p]? = some (NodeRec.internal fr x y) →
        fr = freqAt t.node x + freqAt t.node y ∧ InQueue t.node p x ∧ InQueue t.node p y ∧ x ≠ y ∧
        (∀ q, InQueue t.node p q → q ≠ x → Before t.node x q) ∧
        ∀ q, InQueue t.node p q → q ≠ x → q ≠ y → Before t.node y q

/-- R131, R139: BTREE on an empty text, and on a text with too many distinct symbols: the first symbol that does not fit is
reported, and FREQ, NODE and CODE are emptied. -/
def Obligations.BtreeErrors : Prop :=
  ∀ s : State, s.err = false →
    (s.text = [] →
      exec .btree s = .next (commandError .emptyInput 0 0 0x2 0 { s with freq := [], node := [], code := [] })) ∧
    ∀ (k : Nat) (x : Symbol), s.text[k]? = some x → (s.text.take k).eraseDups.length = s.cfg.maxSyms → x ∉ s.text.take k →
      exec .btree s = .next (commandError .capacity (BitVec.ofNat 32 k) (x.setWidth 32) 0x2 0
        { s with freq := [], node := [], code := [] })

/-- R134, HEAP_TIE: whatever order the queue uses, the records are one tree with 2k − 1 records over the given leaves. -/
def Obligations.AnyQueueOrderBuildsTree : Prop :=
  ∀ (order : List NodeRec → Nat → Nat → Bool) (f : List FreqEntry), f ≠ [] →
    TreeOK (buildNodes order f) ∧ (buildNodes order f).length = 2 * f.length - 1 ∧
    leafSymbols (buildNodes order f) = f.map FreqEntry.sym

/-! ### TreeOK and BCODES -/

/-- R140: the check of the machine is TreeOK, and it names the smallest witness of the first condition that fails. -/
def Obligations.TreeCheckIsTreeOK : Prop :=
  ∀ nodes : List NodeRec, (treeFault nodes = none ↔ TreeOK nodes) ∧
    ∀ q, treeFault nodes = some q ↔ TreeWitness nodes q

/-- R140, R172, R235: BCODES, and DECODE with at least one bit, on records that are no tree. -/
def Obligations.BadTreeRaises : Prop :=
  ∀ (s : State) (q : Nat), s.err = false → TreeWitness s.node q →
    exec .bcodes s = .next (commandError .badTree (BitVec.ofNat 32 q) (BitVec.ofNat 32 s.node.length) 0x3 0
      { s with code := [] }) ∧
    (s.bits ≠ [] →
      exec .decode s = .next (commandError .badTree (BitVec.ofNat 32 q) (BitVec.ofNat 32 s.node.length) 0x5 0
        { s with dtext := [], decPartial := false }))

/-- R141 to R143, R146: on a tree with different leaf symbols BCODES completes; CODE has one entry for each leaf, in left-to-right order,
each code the path to its leaf, so that no code is the beginning of another; one leaf gets the code 0; nothing else changes. -/
def Obligations.BcodesWritesPrefixCode : Prop :=
  ∀ s : State, s.err = false → TreeOK s.node → (leafSymbols s.node).Nodup →
    ∃ c : List CodeEntry,
      exec .bcodes s = .next (completed { s with code := c }) ∧
      (c.map CodeEntry.sym).Perm (leafSymbols s.node) ∧ c.length = (s.node.length + 1) / 2 ∧
      (s.node.length = 1 → c.map CodeEntry.bits = [[false]]) ∧
      (1 < s.node.length → (∀ e ∈ c, LeadsTo s.node e.bits e.sym) ∧ c.Pairwise fun a b => LeftOf a.bits b.bits) ∧
      ∀ e ∈ c, 1 ≤ e.bits.length ∧ e.bits.length ≤ max 1 (c.length - 1)

/-- R144: when two leaves carry one symbol, the second leaf in visiting order of the first repetition met is reported. -/
def Obligations.BcodesRepeatedSymbol : Prop :=
  ∀ (s : State) (p f : Nat) (x : Symbol) (v : List Bool), s.err = false → TreeOK s.node →
    follow s.node (rootOf s.node) v = some p → s.node[p]? = some (NodeRec.leaf x f) →
    (∃ u, LeftOf u v ∧ LeadsTo s.node u x) →
    (∀ u' v' y, LeftOf u' v' → LeadsTo s.node u' y → LeadsTo s.node v' y → v' = v ∨ LeftOf v v') →
    exec .bcodes s = .next (commandError .badTree (BitVec.ofNat 32 p) (BitVec.ofNat 32 (0x80000000 + x.toNat)) 0x3 0
      { s with code := [] })

/-! ### ENCODE -/

/-- R160: when every symbol of TEXT has a code and the bits fit, BITS is the codes in order; nothing else changes. -/
def Obligations.EncodeConcatenatesCodes : Prop :=
  ∀ (s : State) (codeOf : Symbol → List Bool), s.err = false → (∀ e ∈ s.code, e.bits = codeOf e.sym) →
    (∀ x ∈ s.text, ∃ e ∈ s.code, e.sym = x) → (s.text.flatMap codeOf).length ≤ s.cfg.maxBits →
    exec .encode s = .next (completed { s with bits := s.text.flatMap codeOf })

/-- R161, R162: the first symbol in index order without a code, or whose code does not fit, is reported, and BITS is emptied. -/
def Obligations.EncodeErrors : Prop :=
  ∀ (s : State) (codeOf : Symbol → List Bool) (k : Nat) (x : Symbol), s.err = false →
    (∀ e ∈ s.code, e.bits = codeOf e.sym) → s.text[k]? = some x → (∀ y ∈ s.text.take k, ∃ e ∈ s.code, e.sym = y) →
    ((s.text.take k).flatMap codeOf).length ≤ s.cfg.maxBits →
    ((∀ e ∈ s.code, e.sym ≠ x) →
      exec .encode s = .next (commandError .unknownSymbol (BitVec.ofNat 32 k) (x.setWidth 32) 0x4 0 { s with bits := [] })) ∧
    ((∃ e ∈ s.code, e.sym = x) → s.cfg.maxBits < ((s.text.take (k + 1)).flatMap codeOf).length →
      exec .encode s = .next (commandError .capacity (BitVec.ofNat 32 k) (x.setWidth 32) 0x4 0 { s with bits := [] }))

/-! ### DECODE -/

/-- R171: with no bits DECODE empties DTEXT and succeeds, whatever NODE holds. -/
def Obligations.DecodeNoBits : Prop :=
  ∀ s : State, s.err = false → s.bits = [] →
    exec .decode s = .next (completed { s with dtext := [], decPartial := false })

/-- R173, R175, R176, R236: under a tree whose root is internal every bit string is a sequence of codes followed by at most one
unfinished code; DECODE emits the symbol of each code, and reports an unfinished one at the end; the symbol that does not fit raises
ERR_CAPACITY at the bit that completed its code. -/
def Obligations.DecodeFollowsPaths : Prop :=
  (∀ nodes : List NodeRec, TreeOK nodes → RootInternal nodes → ∀ bits : List Bool,
    ∃ (paths : List (List Bool)) (syms : List Symbol) (last : List Bool),
      bits = paths.flatten ++ last ∧ List.Forall₂ (LeadsTo nodes) paths syms ∧ (last = [] ∨ EndsInside nodes last)) ∧
  ∀ (s : State) (paths : List (List Bool)) (syms : List Symbol) (last : List Bool), s.err = false → TreeOK s.node →
    RootInternal s.node → List.Forall₂ (LeadsTo s.node) paths syms → syms.length ≤ s.cfg.maxText →
    (s.bits = paths.flatten ++ last → last = [] ∨ EndsInside s.node last →
      exec .decode s = .next (completed { s with dtext := syms, decPartial := decide (last ≠ []) })) ∧
    ∀ (x : Symbol) (more : List Bool), LeadsTo s.node last x → s.bits = paths.flatten ++ last ++ more →
      syms.length = s.cfg.maxText →
      exec .decode s = .next (commandError .capacity (BitVec.ofNat 32 ((paths.flatten ++ last).length - 1)) (x.setWidth 32)
        0x5 0 { s with dtext := [], decPartial := false })

/-- R174: under a single-leaf tree each bit 0 emits the symbol, the first bit 1 raises ERR_INVALID_CODE, and the first symbol that does not
fit ERR_CAPACITY, the bit 1 first. -/
def Obligations.DecodeSingleLeaf : Prop :=
  ∀ (s : State) (x : Symbol) (f : Nat), s.err = false → s.node = [NodeRec.leaf x f] →
    (∀ n, s.bits = List.replicate n false → n ≤ s.cfg.maxText →
      exec .decode s = .next (completed { s with dtext := List.replicate n x, decPartial := false })) ∧
    (∀ (n : Nat) (more : List Bool), s.bits = List.replicate n false ++ true :: more → n ≤ s.cfg.maxText →
      exec .decode s = .next (commandError .invalidCode (BitVec.ofNat 32 n) 1 0x5 0
        { s with dtext := [], decPartial := false })) ∧
    ∀ more : List Bool, s.bits = List.replicate (s.cfg.maxText + 1) false ++ more →
      exec .decode s = .next (commandError .capacity (BitVec.ofNat 32 s.cfg.maxText) (x.setWidth 32) 0x5 0
        { s with dtext := [], decPartial := false })

/-- R177: when CODE was written by a BCODES (from u to r) from the NODE that s still holds, and ENCODE succeeded on TEXT, DECODE gives the
text back, for one distinct symbol and for the empty text too. -/
def Obligations.DecodeInvertsEncode : Prop :=
  ∀ u r s t : State, u.err = false → exec .bcodes u = .next r → r.err = false → s.node = r.node → s.code = r.code →
    s.err = false → s.text.length ≤ s.cfg.maxText → exec .encode s = .next t → t.err = false →
    exec .decode t = .next (completed { t with dtext := s.text, decPartial := false })

/-! ### PACK and UNPACK -/

/-- R185 to R187: BYTE_LEN is ceil8(BIT_LEN), bit k of the bit string is bit 7 − (k mod 8) of byte floor(k / 8), the pad bits are 0, PK_BITS
is BIT_LEN; BYTES cannot overflow; nothing else changes. -/
def Obligations.PackByteLaw : Prop :=
  ∀ s : State, s.err = false →
    ∃ bs : List Byte,
      exec .pack s = .next (completed { s with bytes := bs, pkBits := BitVec.ofNat 32 s.bits.length }) ∧
      bs.length = (s.bits.length + 7) / 8 ∧
      (s.bits.length ≤ s.cfg.maxBits → s.cfg.maxBits % 8 = 0 → bs.length ≤ s.cfg.maxBits / 8) ∧
      ∀ k, k < 8 * bs.length → (bs.getD (k / 8) 0).getLsbD (7 - k % 8) = s.bits.getD k false

/-- R189, R190: UNPACK expands each byte to exactly eight bits, the most significant first; BITS cannot overflow. -/
def Obligations.UnpackExpands : Prop :=
  ∀ s : State, s.err = false →
    ∃ b : List Bool,
      exec .unpack s = .next (completed { s with bits := b }) ∧ b.length = 8 * s.bytes.length ∧
      (s.bytes.length ≤ s.cfg.maxBits / 8 → b.length ≤ s.cfg.maxBits) ∧
      ∀ k, k < b.length → b[k]? = some ((s.bytes.getD (k / 8) 0).getLsbD (7 - k % 8))

/-- R191: UNPACK.t checks that PK_BITS is a length these bytes can have, then expands and truncates to it; PK_BITS is not changed. -/
def Obligations.UnpackTruncates : Prop :=
  ∀ s : State, s.err = false →
    ((s.pkBits.toNat + 7) / 8 = s.bytes.length →
      ∃ b : List Bool,
        exec .unpackT s = .next (completed { s with bits := b }) ∧ b.length = s.pkBits.toNat ∧
        ∀ k, k < b.length → b[k]? = some ((s.bytes.getD (k / 8) 0).getLsbD (7 - k % 8))) ∧
    ((s.pkBits.toNat + 7) / 8 ≠ s.bytes.length →
      exec .unpackT s = .next (commandError .operand s.pkBits (BitVec.ofNat 32 s.bytes.length) 0x7 0 { s with bits := [] }))

/-- R192: PACK then UNPACK gives the bits and zeros to the next multiple of 8, PACK then UNPACK.t gives the bits, and UNPACK then PACK gives the
bytes. -/
def Obligations.PackUnpackRoundTrip : Prop :=
  ∀ s : State, s.err = false → s.bits.length < 2 ^ 32 →
    (∃ t, exec .pack s = .next t ∧ t.err = false ∧ exec .unpackT t = .next (completed { t with bits := s.bits }) ∧
      exec .unpack t = .next (completed
        { t with bits := s.bits ++ List.replicate (8 * ((s.bits.length + 7) / 8) - s.bits.length) false })) ∧
    ∃ t, exec .unpack s = .next t ∧ t.err = false ∧
      exec .pack t = .next (completed { t with bytes := s.bytes, pkBits := BitVec.ofNat 32 (8 * s.bytes.length) })

/-! ### CMP, STAT, CLR -/

/-- R200, R201: CMP and CMP.p write their flag with the result and set MISMATCH on a difference; nothing else changes and nothing is
raised. -/
def Obligations.CmpReportsByFlag : Prop :=
  ∀ s : State, s.err = false →
    (s.dtext = s.text → exec .cmp s = .next (completed { s with verified := true }) ∧
      exec .cmpP s = .next (completed { s with verifiedPk := true })) ∧
    (s.dtext ≠ s.text → exec .cmp s = .next (completed { s with verified := false, mismatch := true }) ∧
      exec .cmpP s = .next (completed { s with verifiedPk := false, mismatch := true }))

/-- R202 to R204: the five statistics, without wrap-around for buffers within their capacities; nothing else changes. -/
def Obligations.StatMeasures : Prop :=
  ∀ s : State, s.err = false → Memory.wf s = true →
    let len : Symbol → Nat := fun x =>
      if x.toNat < 0x80 then 1 else if x.toNat < 0x800 then 2 else if x.toNat < 0x10000 then 3 else 4
    ∃ a b t q r : Word,
      exec .stat s = .next (completed { s with aBytes := a, bBytes := b, textBytes := t, ratioQ := q, ratioR := r }) ∧
      a.toNat = (s.aSym.map len).sum ∧ b.toNat = (s.bSym.map len).sum ∧ t.toNat = (s.text.map len).sum ∧
      (t.toNat = 0 ↔ s.text = []) ∧ (t.toNat = 0 → q = 0 ∧ r = 0) ∧
      (t.toNat ≠ 0 → 100 * s.bytes.length = q.toNat * t.toNat + r.toNat ∧ r.toNat < t.toNat)

/-- R211: CLR, with ERR = 1 and with ERR = 0: the error record and the flags are cleared, DONE is 1, nothing else changes; no other command
is accepted while ERR = 1. -/
def Obligations.ClrAcknowledges : Prop :=
  (∀ s : State, exec .clr s = .next
    { s with err := false, errCode := .none, errInfo0 := 0, errInfo1 := 0, phase := 0, stepOrd := 0, verified := false,
             verifiedPk := false, mismatch := false, empty := false, decPartial := false, done := true, busy := false }) ∧
  ∀ (s : State) (i : Instr), s.err = true → i ≠ .clr → exec i s = .next s

/-! ### RUN -/

/-- R212: a RUN that raises nothing on a diff text that is not empty leaves exactly what the sequence of commands leaves; on an empty one
the BTREE of the sequence raises ERR_EMPTY_INPUT. -/
def Obligations.RunEqualsSequence : Prop :=
  ∀ s t : State, errorRecordOk s = true → s.err = false → exec .run s = .next t → t.err = false →
    (t.text ≠ [] →
      execAll [.clr, .diff, .btree, .bcodes, .encode, .pack, .decode, .cmp, .unpackT, .decode, .cmpP, .stat] s = .next t) ∧
    (t.text = [] →
      ∃ u, execAll [.clr, .diff, .btree] s = .next u ∧ u.err = true ∧ u.errCode = .emptyInput)

/-- R207: with an empty diff text, which is to say with the same lines on both sides, RUN takes the bypass: no tree, no bits, no bytes, EMPTY and both verification flags set, the
ratio 0. -/
def Obligations.RunBypass : Prop :=
  ∀ s : State, s.err = false → LinesClosed s →
    (diffText s.cfg.lcsTie (linesA s) (linesB s) = [] ↔ linesA s = linesB s) ∧
    (linesA s = linesB s → exec .run s = .next (completed
      { s with lcs := List.range (linesA s).length, text := [], freq := [], node := [], code := [], bits := [], bytes := [],
               dtext := [], pkBits := 0, empty := true, verified := true, verifiedPk := true, mismatch := false,
               decPartial := false, aBytes := BitVec.ofNat 32 (utf8size s.aSym), bBytes := BitVec.ofNat 32 (utf8size s.bSym),
               textBytes := 0, ratioQ := 0, ratioR := 0 }))

/-- R210, R209: what every RUN without error leaves; and RUN completes without error on closed lines when the symbols of the diff text
fit a tree and its longest possible encoding fits BITS. -/
def Obligations.RunVerifies : Prop :=
  (∀ s t : State, Memory.wf s = true → s.err = false → exec .run s = .next t → t.err = false →
    t.verified = true ∧ t.verifiedPk = true ∧ t.mismatch = false ∧ t.decPartial = false ∧ t.dtext = t.text ∧
    t.text = diffText s.cfg.lcsTie (linesA s) (linesB s) ∧ t.pkBits.toNat = t.bits.length ∧
    t.bytes.length = (t.bits.length + 7) / 8 ∧ (t.empty = true ↔ t.text = []) ∧
    (t.text = [] → t.ratioQ = 0 ∧ t.ratioR = 0) ∧
    (t.text ≠ [] → t.text.length ≤ t.bits.length ∧ 1 ≤ t.bytes.length ∧ (t.ratioQ ≠ 0 ∨ t.ratioR ≠ 0))) ∧
  ∀ s : State, Memory.wf s = true → s.err = false → LinesClosed s →
    (diffText s.cfg.lcsTie (linesA s) (linesB s)).eraseDups.length ≤ s.cfg.maxSyms →
    (diffText s.cfg.lcsTie (linesA s) (linesB s)).length * s.cfg.maxCodeLen ≤ s.cfg.maxBits →
    ∃ t, exec .run s = .next t ∧ t.err = false

/-- R208: the only errors RUN can end with, the step and phase recorded. The failing step's outputs and those of later steps are
empty; the outputs of earlier steps stay: LCS and TEXT are what DIFF leaves from the same A and B, FREQ and NODE what BTREE leaves
after it, CODE what BCODES leaves after that. -/
def Obligations.RunErrorsAreThree : Prop :=
  ∀ s t : State, Memory.wf s = true → s.err = false → exec .run s = .next t → t.err = true →
    t.bits = [] ∧ t.bytes = [] ∧ t.dtext = [] ∧ t.pkBits = 0 ∧ t.aBytes = 0 ∧ t.bBytes = 0 ∧ t.textBytes = 0 ∧
    t.ratioQ = 0 ∧ t.ratioR = 0 ∧ t.verified = false ∧ t.verifiedPk = false ∧ t.mismatch = false ∧ t.empty = false ∧
    t.decPartial = false ∧ t.done = true ∧ t.busy = false ∧
    ((t.stepOrd = 1 ∧ t.phase = 0x1 ∧ t.errCode = .operand ∧ t.lcs = [] ∧ t.text = [] ∧ t.freq = [] ∧ t.node = [] ∧
        t.code = []) ∨
     ∃ d, exec .diff s = .next d ∧ d.err = false ∧ t.lcs = d.lcs ∧ t.text = d.text ∧
       t.text = diffText s.cfg.lcsTie (linesA s) (linesB s) ∧
       ((t.stepOrd = 2 ∧ t.phase = 0x2 ∧ t.errCode = .capacity ∧ t.freq = [] ∧ t.node = [] ∧ t.code = []) ∨
        (t.stepOrd = 4 ∧ t.phase = 0x4 ∧ t.errCode = .capacity ∧
          ∃ b c, exec .btree d = .next b ∧ b.err = false ∧ exec .bcodes b = .next c ∧ c.err = false ∧
            t.freq = b.freq ∧ t.node = b.node ∧ t.code = c.code ∧ TreeOK t.node ∧ codesOf t.node = .ok t.code)))

/-- R210: RUN is a function of A and B alone: two idle states of one machine with the same A and B, whatever else they hold, are left alike
but for the staging and window registers and the model's own fields, which RUN does not touch. -/
def Obligations.RunDependsOnInputsOnly : Prop :=
  ∀ s s' t t' : State, errorRecordOk s = true → errorRecordOk s' = true → s.err = false → s'.err = false →
    s.cfg = s'.cfg → s.aSym = s'.aSym → s.aEnd = s'.aEnd → s.bSym = s'.bSym → s.bEnd = s'.bEnd →
    exec .run s = .next t → exec .run s' = .next t' →
    t' = { t with nodeW0 := s'.nodeW0, nodeW1 := s'.nodeW1, rdBuf := s'.rdBuf, rdIdx := s'.rdIdx, rdSub := s'.rdSub,
                  script := s'.script, readData := s'.readData, draws := s'.draws }

/-! ### The whole machine -/

/-- R7: every command is total: it always ends in a next state. -/
def Obligations.CommandsAlwaysEnd : Prop :=
  ∀ (i : Instr) (s : State), ∃ t, exec i s = .next t

/-- R31, R241: no command writes A or B, the parameters, the staging or window registers, or the model's own fields. -/
def Obligations.CommandsKeepInputs : Prop :=
  ∀ (i : Instr) (s t : State), exec i s = .next t →
    t.cfg = s.cfg ∧ t.aSym = s.aSym ∧ t.aEnd = s.aEnd ∧ t.bSym = s.bSym ∧ t.bEnd = s.bEnd ∧ t.nodeW0 = s.nodeW0 ∧
    t.nodeW1 = s.nodeW1 ∧ t.rdBuf = s.rdBuf ∧ t.rdIdx = s.rdIdx ∧ t.rdSub = s.rdSub ∧ t.script = s.script ∧
    t.readData = s.readData ∧ t.draws = s.draws

/-- R42: no command's computation reads a flag: two states that differ only in DONE, VERIFIED, VERIFIED_PK, MISMATCH, EMPTY and DEC_PARTIAL
are left states that differ only in these. -/
def Obligations.FlagsAreOutputs : Prop :=
  ∀ (i : Instr) (s s' t t' : State), forgetFlags s = forgetFlags s' → exec i s = .next t → exec i s' = .next t' →
    forgetFlags t = forgetFlags t'

/-- R240 to R242: a command other than RUN that raises leaves the state before it, with its outputs emptied and the error record
written, and nothing else changed. -/
def Obligations.ErrorsArePrecise : Prop :=
  ∀ (i : Instr) (s t : State), i ≠ .run → s.err = false → exec i s = .next t → t.err = true →
    t = commandError t.errCode t.errInfo0 t.errInfo1 (BitVec.ofNat 4 (opcode i)) 0 (invalidated i s)

/-- R24, R61: in every state a step leaves, from one that has this form, the engine is idle, and the error record is there exactly while
ERR = 1. -/
def Obligations.StepKeepsErrorRecord : Prop :=
  ∀ s t : State, errorRecordOk s = true → step s = .next t → errorRecordOk t = true

/-- R26, R30 to R38: every step keeps every buffer within its capacity and of the form its rule gives it. -/
def Obligations.StepKeepsMemory : Prop :=
  ∀ s t : State, Memory.wf s = true → step s = .next t → Memory.wf t = true

/-- R38, R85: every step keeps CODE coherent with NODE: a stale code map cannot exist. -/
def Obligations.StepKeepsCodeCoherent : Prop :=
  ∀ s t : State, CodeCoherent s → step s = .next t → CodeCoherent t

/-- The three invariants hold in the reset state of every machine whose parameters obey R9. -/
def Obligations.ResetMeetsInvariants : Prop :=
  ∀ c : Config, c.wf = true →
    errorRecordOk (State.resetOf c) = true ∧ Memory.wf (State.resetOf c) = true ∧ CodeCoherent (State.resetOf c)
end

