-- ==== Sys2Proof/Laws/State.lean ====
section
/-! SUPPORT. What each named update of the state does to each field: one lemma per field per update, true by rfl. -/

namespace Sys2Proof.Machine

/-! ### `accept` -/

@[simp] theorem accept_cfg (op : BitVec 4) (s : State) : (accept op s).cfg = s.cfg := rfl
@[simp] theorem accept_busy (op : BitVec 4) (s : State) : (accept op s).busy = true := rfl
@[simp] theorem accept_done (op : BitVec 4) (s : State) : (accept op s).done = false := rfl
@[simp] theorem accept_err (op : BitVec 4) (s : State) : (accept op s).err = s.err := rfl
@[simp] theorem accept_verified (op : BitVec 4) (s : State) : (accept op s).verified = s.verified := rfl
@[simp] theorem accept_verifiedPk (op : BitVec 4) (s : State) : (accept op s).verifiedPk = s.verifiedPk := rfl
@[simp] theorem accept_mismatch (op : BitVec 4) (s : State) : (accept op s).mismatch = s.mismatch := rfl
@[simp] theorem accept_empty (op : BitVec 4) (s : State) : (accept op s).empty = s.empty := rfl
@[simp] theorem accept_decPartial (op : BitVec 4) (s : State) : (accept op s).decPartial = s.decPartial := rfl
@[simp] theorem accept_phase (op : BitVec 4) (s : State) : (accept op s).phase = op := rfl
@[simp] theorem accept_stepOrd (op : BitVec 4) (s : State) : (accept op s).stepOrd = 0 := rfl
@[simp] theorem accept_errCode (op : BitVec 4) (s : State) : (accept op s).errCode = s.errCode := rfl
@[simp] theorem accept_errInfo0 (op : BitVec 4) (s : State) : (accept op s).errInfo0 = s.errInfo0 := rfl
@[simp] theorem accept_errInfo1 (op : BitVec 4) (s : State) : (accept op s).errInfo1 = s.errInfo1 := rfl
@[simp] theorem accept_aSym (op : BitVec 4) (s : State) : (accept op s).aSym = s.aSym := rfl
@[simp] theorem accept_aEnd (op : BitVec 4) (s : State) : (accept op s).aEnd = s.aEnd := rfl
@[simp] theorem accept_bSym (op : BitVec 4) (s : State) : (accept op s).bSym = s.bSym := rfl
@[simp] theorem accept_bEnd (op : BitVec 4) (s : State) : (accept op s).bEnd = s.bEnd := rfl
@[simp] theorem accept_lcs (op : BitVec 4) (s : State) : (accept op s).lcs = s.lcs := rfl
@[simp] theorem accept_text (op : BitVec 4) (s : State) : (accept op s).text = s.text := rfl
@[simp] theorem accept_freq (op : BitVec 4) (s : State) : (accept op s).freq = s.freq := rfl
@[simp] theorem accept_node (op : BitVec 4) (s : State) : (accept op s).node = s.node := rfl
@[simp] theorem accept_code (op : BitVec 4) (s : State) : (accept op s).code = s.code := rfl
@[simp] theorem accept_bits (op : BitVec 4) (s : State) : (accept op s).bits = s.bits := rfl
@[simp] theorem accept_bytes (op : BitVec 4) (s : State) : (accept op s).bytes = s.bytes := rfl
@[simp] theorem accept_dtext (op : BitVec 4) (s : State) : (accept op s).dtext = s.dtext := rfl
@[simp] theorem accept_pkBits (op : BitVec 4) (s : State) : (accept op s).pkBits = s.pkBits := rfl
@[simp] theorem accept_aBytes (op : BitVec 4) (s : State) : (accept op s).aBytes = s.aBytes := rfl
@[simp] theorem accept_bBytes (op : BitVec 4) (s : State) : (accept op s).bBytes = s.bBytes := rfl
@[simp] theorem accept_textBytes (op : BitVec 4) (s : State) : (accept op s).textBytes = s.textBytes := rfl
@[simp] theorem accept_ratioQ (op : BitVec 4) (s : State) : (accept op s).ratioQ = s.ratioQ := rfl
@[simp] theorem accept_ratioR (op : BitVec 4) (s : State) : (accept op s).ratioR = s.ratioR := rfl
@[simp] theorem accept_nodeW0 (op : BitVec 4) (s : State) : (accept op s).nodeW0 = s.nodeW0 := rfl
@[simp] theorem accept_nodeW1 (op : BitVec 4) (s : State) : (accept op s).nodeW1 = s.nodeW1 := rfl
@[simp] theorem accept_rdBuf (op : BitVec 4) (s : State) : (accept op s).rdBuf = s.rdBuf := rfl
@[simp] theorem accept_rdIdx (op : BitVec 4) (s : State) : (accept op s).rdIdx = s.rdIdx := rfl
@[simp] theorem accept_rdSub (op : BitVec 4) (s : State) : (accept op s).rdSub = s.rdSub := rfl
@[simp] theorem accept_script (op : BitVec 4) (s : State) : (accept op s).script = s.script := rfl
@[simp] theorem accept_readData (op : BitVec 4) (s : State) : (accept op s).readData = s.readData := rfl
@[simp] theorem accept_draws (op : BitVec 4) (s : State) : (accept op s).draws = s.draws := rfl

/-! ### `endNormal` -/

@[simp] theorem endNormal_cfg (s : State) : (endNormal s).cfg = s.cfg := rfl
@[simp] theorem endNormal_busy (s : State) : (endNormal s).busy = false := rfl
@[simp] theorem endNormal_done (s : State) : (endNormal s).done = true := rfl
@[simp] theorem endNormal_err (s : State) : (endNormal s).err = s.err := rfl
@[simp] theorem endNormal_verified (s : State) : (endNormal s).verified = s.verified := rfl
@[simp] theorem endNormal_verifiedPk (s : State) : (endNormal s).verifiedPk = s.verifiedPk := rfl
@[simp] theorem endNormal_mismatch (s : State) : (endNormal s).mismatch = s.mismatch := rfl
@[simp] theorem endNormal_empty (s : State) : (endNormal s).empty = s.empty := rfl
@[simp] theorem endNormal_decPartial (s : State) : (endNormal s).decPartial = s.decPartial := rfl
@[simp] theorem endNormal_phase (s : State) : (endNormal s).phase = 0 := rfl
@[simp] theorem endNormal_stepOrd (s : State) : (endNormal s).stepOrd = 0 := rfl
@[simp] theorem endNormal_errCode (s : State) : (endNormal s).errCode = s.errCode := rfl
@[simp] theorem endNormal_errInfo0 (s : State) : (endNormal s).errInfo0 = s.errInfo0 := rfl
@[simp] theorem endNormal_errInfo1 (s : State) : (endNormal s).errInfo1 = s.errInfo1 := rfl
@[simp] theorem endNormal_aSym (s : State) : (endNormal s).aSym = s.aSym := rfl
@[simp] theorem endNormal_aEnd (s : State) : (endNormal s).aEnd = s.aEnd := rfl
@[simp] theorem endNormal_bSym (s : State) : (endNormal s).bSym = s.bSym := rfl
@[simp] theorem endNormal_bEnd (s : State) : (endNormal s).bEnd = s.bEnd := rfl
@[simp] theorem endNormal_lcs (s : State) : (endNormal s).lcs = s.lcs := rfl
@[simp] theorem endNormal_text (s : State) : (endNormal s).text = s.text := rfl
@[simp] theorem endNormal_freq (s : State) : (endNormal s).freq = s.freq := rfl
@[simp] theorem endNormal_node (s : State) : (endNormal s).node = s.node := rfl
@[simp] theorem endNormal_code (s : State) : (endNormal s).code = s.code := rfl
@[simp] theorem endNormal_bits (s : State) : (endNormal s).bits = s.bits := rfl
@[simp] theorem endNormal_bytes (s : State) : (endNormal s).bytes = s.bytes := rfl
@[simp] theorem endNormal_dtext (s : State) : (endNormal s).dtext = s.dtext := rfl
@[simp] theorem endNormal_pkBits (s : State) : (endNormal s).pkBits = s.pkBits := rfl
@[simp] theorem endNormal_aBytes (s : State) : (endNormal s).aBytes = s.aBytes := rfl
@[simp] theorem endNormal_bBytes (s : State) : (endNormal s).bBytes = s.bBytes := rfl
@[simp] theorem endNormal_textBytes (s : State) : (endNormal s).textBytes = s.textBytes := rfl
@[simp] theorem endNormal_ratioQ (s : State) : (endNormal s).ratioQ = s.ratioQ := rfl
@[simp] theorem endNormal_ratioR (s : State) : (endNormal s).ratioR = s.ratioR := rfl
@[simp] theorem endNormal_nodeW0 (s : State) : (endNormal s).nodeW0 = s.nodeW0 := rfl
@[simp] theorem endNormal_nodeW1 (s : State) : (endNormal s).nodeW1 = s.nodeW1 := rfl
@[simp] theorem endNormal_rdBuf (s : State) : (endNormal s).rdBuf = s.rdBuf := rfl
@[simp] theorem endNormal_rdIdx (s : State) : (endNormal s).rdIdx = s.rdIdx := rfl
@[simp] theorem endNormal_rdSub (s : State) : (endNormal s).rdSub = s.rdSub := rfl
@[simp] theorem endNormal_script (s : State) : (endNormal s).script = s.script := rfl
@[simp] theorem endNormal_readData (s : State) : (endNormal s).readData = s.readData := rfl
@[simp] theorem endNormal_draws (s : State) : (endNormal s).draws = s.draws := rfl

/-! ### `endRaised` -/

@[simp] theorem endRaised_cfg (s : State) : (endRaised s).cfg = s.cfg := rfl
@[simp] theorem endRaised_busy (s : State) : (endRaised s).busy = false := rfl
@[simp] theorem endRaised_done (s : State) : (endRaised s).done = true := rfl
@[simp] theorem endRaised_err (s : State) : (endRaised s).err = s.err := rfl
@[simp] theorem endRaised_verified (s : State) : (endRaised s).verified = s.verified := rfl
@[simp] theorem endRaised_verifiedPk (s : State) : (endRaised s).verifiedPk = s.verifiedPk := rfl
@[simp] theorem endRaised_mismatch (s : State) : (endRaised s).mismatch = s.mismatch := rfl
@[simp] theorem endRaised_empty (s : State) : (endRaised s).empty = s.empty := rfl
@[simp] theorem endRaised_decPartial (s : State) : (endRaised s).decPartial = s.decPartial := rfl
@[simp] theorem endRaised_phase (s : State) : (endRaised s).phase = s.phase := rfl
@[simp] theorem endRaised_stepOrd (s : State) : (endRaised s).stepOrd = s.stepOrd := rfl
@[simp] theorem endRaised_errCode (s : State) : (endRaised s).errCode = s.errCode := rfl
@[simp] theorem endRaised_errInfo0 (s : State) : (endRaised s).errInfo0 = s.errInfo0 := rfl
@[simp] theorem endRaised_errInfo1 (s : State) : (endRaised s).errInfo1 = s.errInfo1 := rfl
@[simp] theorem endRaised_aSym (s : State) : (endRaised s).aSym = s.aSym := rfl
@[simp] theorem endRaised_aEnd (s : State) : (endRaised s).aEnd = s.aEnd := rfl
@[simp] theorem endRaised_bSym (s : State) : (endRaised s).bSym = s.bSym := rfl
@[simp] theorem endRaised_bEnd (s : State) : (endRaised s).bEnd = s.bEnd := rfl
@[simp] theorem endRaised_lcs (s : State) : (endRaised s).lcs = s.lcs := rfl
@[simp] theorem endRaised_text (s : State) : (endRaised s).text = s.text := rfl
@[simp] theorem endRaised_freq (s : State) : (endRaised s).freq = s.freq := rfl
@[simp] theorem endRaised_node (s : State) : (endRaised s).node = s.node := rfl
@[simp] theorem endRaised_code (s : State) : (endRaised s).code = s.code := rfl
@[simp] theorem endRaised_bits (s : State) : (endRaised s).bits = s.bits := rfl
@[simp] theorem endRaised_bytes (s : State) : (endRaised s).bytes = s.bytes := rfl
@[simp] theorem endRaised_dtext (s : State) : (endRaised s).dtext = s.dtext := rfl
@[simp] theorem endRaised_pkBits (s : State) : (endRaised s).pkBits = s.pkBits := rfl
@[simp] theorem endRaised_aBytes (s : State) : (endRaised s).aBytes = s.aBytes := rfl
@[simp] theorem endRaised_bBytes (s : State) : (endRaised s).bBytes = s.bBytes := rfl
@[simp] theorem endRaised_textBytes (s : State) : (endRaised s).textBytes = s.textBytes := rfl
@[simp] theorem endRaised_ratioQ (s : State) : (endRaised s).ratioQ = s.ratioQ := rfl
@[simp] theorem endRaised_ratioR (s : State) : (endRaised s).ratioR = s.ratioR := rfl
@[simp] theorem endRaised_nodeW0 (s : State) : (endRaised s).nodeW0 = s.nodeW0 := rfl
@[simp] theorem endRaised_nodeW1 (s : State) : (endRaised s).nodeW1 = s.nodeW1 := rfl
@[simp] theorem endRaised_rdBuf (s : State) : (endRaised s).rdBuf = s.rdBuf := rfl
@[simp] theorem endRaised_rdIdx (s : State) : (endRaised s).rdIdx = s.rdIdx := rfl
@[simp] theorem endRaised_rdSub (s : State) : (endRaised s).rdSub = s.rdSub := rfl
@[simp] theorem endRaised_script (s : State) : (endRaised s).script = s.script := rfl
@[simp] theorem endRaised_readData (s : State) : (endRaised s).readData = s.readData := rfl
@[simp] theorem endRaised_draws (s : State) : (endRaised s).draws = s.draws := rfl

/-! ### `errorEntry` -/

@[simp] theorem errorEntry_cfg (e : ErrCode) (i0 i1 : Word) (ph st : BitVec 4) (s : State) : (errorEntry e i0 i1 ph st s).cfg = s.cfg := rfl
@[simp] theorem errorEntry_busy (e : ErrCode) (i0 i1 : Word) (ph st : BitVec 4) (s : State) : (errorEntry e i0 i1 ph st s).busy = s.busy := rfl
@[simp] theorem errorEntry_done (e : ErrCode) (i0 i1 : Word) (ph st : BitVec 4) (s : State) : (errorEntry e i0 i1 ph st s).done = s.done := rfl
@[simp] theorem errorEntry_err (e : ErrCode) (i0 i1 : Word) (ph st : BitVec 4) (s : State) : (errorEntry e i0 i1 ph st s).err = true := rfl
@[simp] theorem errorEntry_verified (e : ErrCode) (i0 i1 : Word) (ph st : BitVec 4) (s : State) : (errorEntry e i0 i1 ph st s).verified = s.verified := rfl
@[simp] theorem errorEntry_verifiedPk (e : ErrCode) (i0 i1 : Word) (ph st : BitVec 4) (s : State) : (errorEntry e i0 i1 ph st s).verifiedPk = s.verifiedPk := rfl
@[simp] theorem errorEntry_mismatch (e : ErrCode) (i0 i1 : Word) (ph st : BitVec 4) (s : State) : (errorEntry e i0 i1 ph st s).mismatch = s.mismatch := rfl
@[simp] theorem errorEntry_empty (e : ErrCode) (i0 i1 : Word) (ph st : BitVec 4) (s : State) : (errorEntry e i0 i1 ph st s).empty = s.empty := rfl
@[simp] theorem errorEntry_decPartial (e : ErrCode) (i0 i1 : Word) (ph st : BitVec 4) (s : State) : (errorEntry e i0 i1 ph st s).decPartial = s.decPartial := rfl
@[simp] theorem errorEntry_phase (e : ErrCode) (i0 i1 : Word) (ph st : BitVec 4) (s : State) : (errorEntry e i0 i1 ph st s).phase = ph := rfl
@[simp] theorem errorEntry_stepOrd (e : ErrCode) (i0 i1 : Word) (ph st : BitVec 4) (s : State) : (errorEntry e i0 i1 ph st s).stepOrd = st := rfl
@[simp] theorem errorEntry_errCode (e : ErrCode) (i0 i1 : Word) (ph st : BitVec 4) (s : State) : (errorEntry e i0 i1 ph st s).errCode = e := rfl
@[simp] theorem errorEntry_errInfo0 (e : ErrCode) (i0 i1 : Word) (ph st : BitVec 4) (s : State) : (errorEntry e i0 i1 ph st s).errInfo0 = i0 := rfl
@[simp] theorem errorEntry_errInfo1 (e : ErrCode) (i0 i1 : Word) (ph st : BitVec 4) (s : State) : (errorEntry e i0 i1 ph st s).errInfo1 = i1 := rfl
@[simp] theorem errorEntry_aSym (e : ErrCode) (i0 i1 : Word) (ph st : BitVec 4) (s : State) : (errorEntry e i0 i1 ph st s).aSym = s.aSym := rfl
@[simp] theorem errorEntry_aEnd (e : ErrCode) (i0 i1 : Word) (ph st : BitVec 4) (s : State) : (errorEntry e i0 i1 ph st s).aEnd = s.aEnd := rfl
@[simp] theorem errorEntry_bSym (e : ErrCode) (i0 i1 : Word) (ph st : BitVec 4) (s : State) : (errorEntry e i0 i1 ph st s).bSym = s.bSym := rfl
@[simp] theorem errorEntry_bEnd (e : ErrCode) (i0 i1 : Word) (ph st : BitVec 4) (s : State) : (errorEntry e i0 i1 ph st s).bEnd = s.bEnd := rfl
@[simp] theorem errorEntry_lcs (e : ErrCode) (i0 i1 : Word) (ph st : BitVec 4) (s : State) : (errorEntry e i0 i1 ph st s).lcs = s.lcs := rfl
@[simp] theorem errorEntry_text (e : ErrCode) (i0 i1 : Word) (ph st : BitVec 4) (s : State) : (errorEntry e i0 i1 ph st s).text = s.text := rfl
@[simp] theorem errorEntry_freq (e : ErrCode) (i0 i1 : Word) (ph st : BitVec 4) (s : State) : (errorEntry e i0 i1 ph st s).freq = s.freq := rfl
@[simp] theorem errorEntry_node (e : ErrCode) (i0 i1 : Word) (ph st : BitVec 4) (s : State) : (errorEntry e i0 i1 ph st s).node = s.node := rfl
@[simp] theorem errorEntry_code (e : ErrCode) (i0 i1 : Word) (ph st : BitVec 4) (s : State) : (errorEntry e i0 i1 ph st s).code = s.code := rfl
@[simp] theorem errorEntry_bits (e : ErrCode) (i0 i1 : Word) (ph st : BitVec 4) (s : State) : (errorEntry e i0 i1 ph st s).bits = s.bits := rfl
@[simp] theorem errorEntry_bytes (e : ErrCode) (i0 i1 : Word) (ph st : BitVec 4) (s : State) : (errorEntry e i0 i1 ph st s).bytes = s.bytes := rfl
@[simp] theorem errorEntry_dtext (e : ErrCode) (i0 i1 : Word) (ph st : BitVec 4) (s : State) : (errorEntry e i0 i1 ph st s).dtext = s.dtext := rfl
@[simp] theorem errorEntry_pkBits (e : ErrCode) (i0 i1 : Word) (ph st : BitVec 4) (s : State) : (errorEntry e i0 i1 ph st s).pkBits = s.pkBits := rfl
@[simp] theorem errorEntry_aBytes (e : ErrCode) (i0 i1 : Word) (ph st : BitVec 4) (s : State) : (errorEntry e i0 i1 ph st s).aBytes = s.aBytes := rfl
@[simp] theorem errorEntry_bBytes (e : ErrCode) (i0 i1 : Word) (ph st : BitVec 4) (s : State) : (errorEntry e i0 i1 ph st s).bBytes = s.bBytes := rfl
@[simp] theorem errorEntry_textBytes (e : ErrCode) (i0 i1 : Word) (ph st : BitVec 4) (s : State) : (errorEntry e i0 i1 ph st s).textBytes = s.textBytes := rfl
@[simp] theorem errorEntry_ratioQ (e : ErrCode) (i0 i1 : Word) (ph st : BitVec 4) (s : State) : (errorEntry e i0 i1 ph st s).ratioQ = s.ratioQ := rfl
@[simp] theorem errorEntry_ratioR (e : ErrCode) (i0 i1 : Word) (ph st : BitVec 4) (s : State) : (errorEntry e i0 i1 ph st s).ratioR = s.ratioR := rfl
@[simp] theorem errorEntry_nodeW0 (e : ErrCode) (i0 i1 : Word) (ph st : BitVec 4) (s : State) : (errorEntry e i0 i1 ph st s).nodeW0 = s.nodeW0 := rfl
@[simp] theorem errorEntry_nodeW1 (e : ErrCode) (i0 i1 : Word) (ph st : BitVec 4) (s : State) : (errorEntry e i0 i1 ph st s).nodeW1 = s.nodeW1 := rfl
@[simp] theorem errorEntry_rdBuf (e : ErrCode) (i0 i1 : Word) (ph st : BitVec 4) (s : State) : (errorEntry e i0 i1 ph st s).rdBuf = s.rdBuf := rfl
@[simp] theorem errorEntry_rdIdx (e : ErrCode) (i0 i1 : Word) (ph st : BitVec 4) (s : State) : (errorEntry e i0 i1 ph st s).rdIdx = s.rdIdx := rfl
@[simp] theorem errorEntry_rdSub (e : ErrCode) (i0 i1 : Word) (ph st : BitVec 4) (s : State) : (errorEntry e i0 i1 ph st s).rdSub = s.rdSub := rfl
@[simp] theorem errorEntry_script (e : ErrCode) (i0 i1 : Word) (ph st : BitVec 4) (s : State) : (errorEntry e i0 i1 ph st s).script = s.script := rfl
@[simp] theorem errorEntry_readData (e : ErrCode) (i0 i1 : Word) (ph st : BitVec 4) (s : State) : (errorEntry e i0 i1 ph st s).readData = s.readData := rfl
@[simp] theorem errorEntry_draws (e : ErrCode) (i0 i1 : Word) (ph st : BitVec 4) (s : State) : (errorEntry e i0 i1 ph st s).draws = s.draws := rfl

/-! ### `clearResultFlags` -/

@[simp] theorem clearResultFlags_cfg (s : State) : (clearResultFlags s).cfg = s.cfg := rfl
@[simp] theorem clearResultFlags_busy (s : State) : (clearResultFlags s).busy = s.busy := rfl
@[simp] theorem clearResultFlags_done (s : State) : (clearResultFlags s).done = s.done := rfl
@[simp] theorem clearResultFlags_err (s : State) : (clearResultFlags s).err = s.err := rfl
@[simp] theorem clearResultFlags_verified (s : State) : (clearResultFlags s).verified = false := rfl
@[simp] theorem clearResultFlags_verifiedPk (s : State) : (clearResultFlags s).verifiedPk = false := rfl
@[simp] theorem clearResultFlags_mismatch (s : State) : (clearResultFlags s).mismatch = false := rfl
@[simp] theorem clearResultFlags_empty (s : State) : (clearResultFlags s).empty = false := rfl
@[simp] theorem clearResultFlags_decPartial (s : State) : (clearResultFlags s).decPartial = false := rfl
@[simp] theorem clearResultFlags_phase (s : State) : (clearResultFlags s).phase = s.phase := rfl
@[simp] theorem clearResultFlags_stepOrd (s : State) : (clearResultFlags s).stepOrd = s.stepOrd := rfl
@[simp] theorem clearResultFlags_errCode (s : State) : (clearResultFlags s).errCode = s.errCode := rfl
@[simp] theorem clearResultFlags_errInfo0 (s : State) : (clearResultFlags s).errInfo0 = s.errInfo0 := rfl
@[simp] theorem clearResultFlags_errInfo1 (s : State) : (clearResultFlags s).errInfo1 = s.errInfo1 := rfl
@[simp] theorem clearResultFlags_aSym (s : State) : (clearResultFlags s).aSym = s.aSym := rfl
@[simp] theorem clearResultFlags_aEnd (s : State) : (clearResultFlags s).aEnd = s.aEnd := rfl
@[simp] theorem clearResultFlags_bSym (s : State) : (clearResultFlags s).bSym = s.bSym := rfl
@[simp] theorem clearResultFlags_bEnd (s : State) : (clearResultFlags s).bEnd = s.bEnd := rfl
@[simp] theorem clearResultFlags_lcs (s : State) : (clearResultFlags s).lcs = s.lcs := rfl
@[simp] theorem clearResultFlags_text (s : State) : (clearResultFlags s).text = s.text := rfl
@[simp] theorem clearResultFlags_freq (s : State) : (clearResultFlags s).freq = s.freq := rfl
@[simp] theorem clearResultFlags_node (s : State) : (clearResultFlags s).node = s.node := rfl
@[simp] theorem clearResultFlags_code (s : State) : (clearResultFlags s).code = s.code := rfl
@[simp] theorem clearResultFlags_bits (s : State) : (clearResultFlags s).bits = s.bits := rfl
@[simp] theorem clearResultFlags_bytes (s : State) : (clearResultFlags s).bytes = s.bytes := rfl
@[simp] theorem clearResultFlags_dtext (s : State) : (clearResultFlags s).dtext = s.dtext := rfl
@[simp] theorem clearResultFlags_pkBits (s : State) : (clearResultFlags s).pkBits = s.pkBits := rfl
@[simp] theorem clearResultFlags_aBytes (s : State) : (clearResultFlags s).aBytes = s.aBytes := rfl
@[simp] theorem clearResultFlags_bBytes (s : State) : (clearResultFlags s).bBytes = s.bBytes := rfl
@[simp] theorem clearResultFlags_textBytes (s : State) : (clearResultFlags s).textBytes = s.textBytes := rfl
@[simp] theorem clearResultFlags_ratioQ (s : State) : (clearResultFlags s).ratioQ = s.ratioQ := rfl
@[simp] theorem clearResultFlags_ratioR (s : State) : (clearResultFlags s).ratioR = s.ratioR := rfl
@[simp] theorem clearResultFlags_nodeW0 (s : State) : (clearResultFlags s).nodeW0 = s.nodeW0 := rfl
@[simp] theorem clearResultFlags_nodeW1 (s : State) : (clearResultFlags s).nodeW1 = s.nodeW1 := rfl
@[simp] theorem clearResultFlags_rdBuf (s : State) : (clearResultFlags s).rdBuf = s.rdBuf := rfl
@[simp] theorem clearResultFlags_rdIdx (s : State) : (clearResultFlags s).rdIdx = s.rdIdx := rfl
@[simp] theorem clearResultFlags_rdSub (s : State) : (clearResultFlags s).rdSub = s.rdSub := rfl
@[simp] theorem clearResultFlags_script (s : State) : (clearResultFlags s).script = s.script := rfl
@[simp] theorem clearResultFlags_readData (s : State) : (clearResultFlags s).readData = s.readData := rfl
@[simp] theorem clearResultFlags_draws (s : State) : (clearResultFlags s).draws = s.draws := rfl

/-! ### `setVerified` -/

@[simp] theorem setVerified_cfg (eq : Bool) (s : State) : (setVerified eq s).cfg = s.cfg := rfl
@[simp] theorem setVerified_busy (eq : Bool) (s : State) : (setVerified eq s).busy = s.busy := rfl
@[simp] theorem setVerified_done (eq : Bool) (s : State) : (setVerified eq s).done = s.done := rfl
@[simp] theorem setVerified_err (eq : Bool) (s : State) : (setVerified eq s).err = s.err := rfl
@[simp] theorem setVerified_verified (eq : Bool) (s : State) : (setVerified eq s).verified = eq := rfl
@[simp] theorem setVerified_verifiedPk (eq : Bool) (s : State) : (setVerified eq s).verifiedPk = s.verifiedPk := rfl
@[simp] theorem setVerified_mismatch (eq : Bool) (s : State) : (setVerified eq s).mismatch = (s.mismatch || !eq) := rfl
@[simp] theorem setVerified_empty (eq : Bool) (s : State) : (setVerified eq s).empty = s.empty := rfl
@[simp] theorem setVerified_decPartial (eq : Bool) (s : State) : (setVerified eq s).decPartial = s.decPartial := rfl
@[simp] theorem setVerified_phase (eq : Bool) (s : State) : (setVerified eq s).phase = s.phase := rfl
@[simp] theorem setVerified_stepOrd (eq : Bool) (s : State) : (setVerified eq s).stepOrd = s.stepOrd := rfl
@[simp] theorem setVerified_errCode (eq : Bool) (s : State) : (setVerified eq s).errCode = s.errCode := rfl
@[simp] theorem setVerified_errInfo0 (eq : Bool) (s : State) : (setVerified eq s).errInfo0 = s.errInfo0 := rfl
@[simp] theorem setVerified_errInfo1 (eq : Bool) (s : State) : (setVerified eq s).errInfo1 = s.errInfo1 := rfl
@[simp] theorem setVerified_aSym (eq : Bool) (s : State) : (setVerified eq s).aSym = s.aSym := rfl
@[simp] theorem setVerified_aEnd (eq : Bool) (s : State) : (setVerified eq s).aEnd = s.aEnd := rfl
@[simp] theorem setVerified_bSym (eq : Bool) (s : State) : (setVerified eq s).bSym = s.bSym := rfl
@[simp] theorem setVerified_bEnd (eq : Bool) (s : State) : (setVerified eq s).bEnd = s.bEnd := rfl
@[simp] theorem setVerified_lcs (eq : Bool) (s : State) : (setVerified eq s).lcs = s.lcs := rfl
@[simp] theorem setVerified_text (eq : Bool) (s : State) : (setVerified eq s).text = s.text := rfl
@[simp] theorem setVerified_freq (eq : Bool) (s : State) : (setVerified eq s).freq = s.freq := rfl
@[simp] theorem setVerified_node (eq : Bool) (s : State) : (setVerified eq s).node = s.node := rfl
@[simp] theorem setVerified_code (eq : Bool) (s : State) : (setVerified eq s).code = s.code := rfl
@[simp] theorem setVerified_bits (eq : Bool) (s : State) : (setVerified eq s).bits = s.bits := rfl
@[simp] theorem setVerified_bytes (eq : Bool) (s : State) : (setVerified eq s).bytes = s.bytes := rfl
@[simp] theorem setVerified_dtext (eq : Bool) (s : State) : (setVerified eq s).dtext = s.dtext := rfl
@[simp] theorem setVerified_pkBits (eq : Bool) (s : State) : (setVerified eq s).pkBits = s.pkBits := rfl
@[simp] theorem setVerified_aBytes (eq : Bool) (s : State) : (setVerified eq s).aBytes = s.aBytes := rfl
@[simp] theorem setVerified_bBytes (eq : Bool) (s : State) : (setVerified eq s).bBytes = s.bBytes := rfl
@[simp] theorem setVerified_textBytes (eq : Bool) (s : State) : (setVerified eq s).textBytes = s.textBytes := rfl
@[simp] theorem setVerified_ratioQ (eq : Bool) (s : State) : (setVerified eq s).ratioQ = s.ratioQ := rfl
@[simp] theorem setVerified_ratioR (eq : Bool) (s : State) : (setVerified eq s).ratioR = s.ratioR := rfl
@[simp] theorem setVerified_nodeW0 (eq : Bool) (s : State) : (setVerified eq s).nodeW0 = s.nodeW0 := rfl
@[simp] theorem setVerified_nodeW1 (eq : Bool) (s : State) : (setVerified eq s).nodeW1 = s.nodeW1 := rfl
@[simp] theorem setVerified_rdBuf (eq : Bool) (s : State) : (setVerified eq s).rdBuf = s.rdBuf := rfl
@[simp] theorem setVerified_rdIdx (eq : Bool) (s : State) : (setVerified eq s).rdIdx = s.rdIdx := rfl
@[simp] theorem setVerified_rdSub (eq : Bool) (s : State) : (setVerified eq s).rdSub = s.rdSub := rfl
@[simp] theorem setVerified_script (eq : Bool) (s : State) : (setVerified eq s).script = s.script := rfl
@[simp] theorem setVerified_readData (eq : Bool) (s : State) : (setVerified eq s).readData = s.readData := rfl
@[simp] theorem setVerified_draws (eq : Bool) (s : State) : (setVerified eq s).draws = s.draws := rfl

/-! ### `setVerifiedPk` -/

@[simp] theorem setVerifiedPk_cfg (eq : Bool) (s : State) : (setVerifiedPk eq s).cfg = s.cfg := rfl
@[simp] theorem setVerifiedPk_busy (eq : Bool) (s : State) : (setVerifiedPk eq s).busy = s.busy := rfl
@[simp] theorem setVerifiedPk_done (eq : Bool) (s : State) : (setVerifiedPk eq s).done = s.done := rfl
@[simp] theorem setVerifiedPk_err (eq : Bool) (s : State) : (setVerifiedPk eq s).err = s.err := rfl
@[simp] theorem setVerifiedPk_verified (eq : Bool) (s : State) : (setVerifiedPk eq s).verified = s.verified := rfl
@[simp] theorem setVerifiedPk_verifiedPk (eq : Bool) (s : State) : (setVerifiedPk eq s).verifiedPk = eq := rfl
@[simp] theorem setVerifiedPk_mismatch (eq : Bool) (s : State) : (setVerifiedPk eq s).mismatch = (s.mismatch || !eq) := rfl
@[simp] theorem setVerifiedPk_empty (eq : Bool) (s : State) : (setVerifiedPk eq s).empty = s.empty := rfl
@[simp] theorem setVerifiedPk_decPartial (eq : Bool) (s : State) : (setVerifiedPk eq s).decPartial = s.decPartial := rfl
@[simp] theorem setVerifiedPk_phase (eq : Bool) (s : State) : (setVerifiedPk eq s).phase = s.phase := rfl
@[simp] theorem setVerifiedPk_stepOrd (eq : Bool) (s : State) : (setVerifiedPk eq s).stepOrd = s.stepOrd := rfl
@[simp] theorem setVerifiedPk_errCode (eq : Bool) (s : State) : (setVerifiedPk eq s).errCode = s.errCode := rfl
@[simp] theorem setVerifiedPk_errInfo0 (eq : Bool) (s : State) : (setVerifiedPk eq s).errInfo0 = s.errInfo0 := rfl
@[simp] theorem setVerifiedPk_errInfo1 (eq : Bool) (s : State) : (setVerifiedPk eq s).errInfo1 = s.errInfo1 := rfl
@[simp] theorem setVerifiedPk_aSym (eq : Bool) (s : State) : (setVerifiedPk eq s).aSym = s.aSym := rfl
@[simp] theorem setVerifiedPk_aEnd (eq : Bool) (s : State) : (setVerifiedPk eq s).aEnd = s.aEnd := rfl
@[simp] theorem setVerifiedPk_bSym (eq : Bool) (s : State) : (setVerifiedPk eq s).bSym = s.bSym := rfl
@[simp] theorem setVerifiedPk_bEnd (eq : Bool) (s : State) : (setVerifiedPk eq s).bEnd = s.bEnd := rfl
@[simp] theorem setVerifiedPk_lcs (eq : Bool) (s : State) : (setVerifiedPk eq s).lcs = s.lcs := rfl
@[simp] theorem setVerifiedPk_text (eq : Bool) (s : State) : (setVerifiedPk eq s).text = s.text := rfl
@[simp] theorem setVerifiedPk_freq (eq : Bool) (s : State) : (setVerifiedPk eq s).freq = s.freq := rfl
@[simp] theorem setVerifiedPk_node (eq : Bool) (s : State) : (setVerifiedPk eq s).node = s.node := rfl
@[simp] theorem setVerifiedPk_code (eq : Bool) (s : State) : (setVerifiedPk eq s).code = s.code := rfl
@[simp] theorem setVerifiedPk_bits (eq : Bool) (s : State) : (setVerifiedPk eq s).bits = s.bits := rfl
@[simp] theorem setVerifiedPk_bytes (eq : Bool) (s : State) : (setVerifiedPk eq s).bytes = s.bytes := rfl
@[simp] theorem setVerifiedPk_dtext (eq : Bool) (s : State) : (setVerifiedPk eq s).dtext = s.dtext := rfl
@[simp] theorem setVerifiedPk_pkBits (eq : Bool) (s : State) : (setVerifiedPk eq s).pkBits = s.pkBits := rfl
@[simp] theorem setVerifiedPk_aBytes (eq : Bool) (s : State) : (setVerifiedPk eq s).aBytes = s.aBytes := rfl
@[simp] theorem setVerifiedPk_bBytes (eq : Bool) (s : State) : (setVerifiedPk eq s).bBytes = s.bBytes := rfl
@[simp] theorem setVerifiedPk_textBytes (eq : Bool) (s : State) : (setVerifiedPk eq s).textBytes = s.textBytes := rfl
@[simp] theorem setVerifiedPk_ratioQ (eq : Bool) (s : State) : (setVerifiedPk eq s).ratioQ = s.ratioQ := rfl
@[simp] theorem setVerifiedPk_ratioR (eq : Bool) (s : State) : (setVerifiedPk eq s).ratioR = s.ratioR := rfl
@[simp] theorem setVerifiedPk_nodeW0 (eq : Bool) (s : State) : (setVerifiedPk eq s).nodeW0 = s.nodeW0 := rfl
@[simp] theorem setVerifiedPk_nodeW1 (eq : Bool) (s : State) : (setVerifiedPk eq s).nodeW1 = s.nodeW1 := rfl
@[simp] theorem setVerifiedPk_rdBuf (eq : Bool) (s : State) : (setVerifiedPk eq s).rdBuf = s.rdBuf := rfl
@[simp] theorem setVerifiedPk_rdIdx (eq : Bool) (s : State) : (setVerifiedPk eq s).rdIdx = s.rdIdx := rfl
@[simp] theorem setVerifiedPk_rdSub (eq : Bool) (s : State) : (setVerifiedPk eq s).rdSub = s.rdSub := rfl
@[simp] theorem setVerifiedPk_script (eq : Bool) (s : State) : (setVerifiedPk eq s).script = s.script := rfl
@[simp] theorem setVerifiedPk_readData (eq : Bool) (s : State) : (setVerifiedPk eq s).readData = s.readData := rfl
@[simp] theorem setVerifiedPk_draws (eq : Bool) (s : State) : (setVerifiedPk eq s).draws = s.draws := rfl

/-! ### `setEmptyDiff` -/

@[simp] theorem setEmptyDiff_cfg (s : State) : (setEmptyDiff s).cfg = s.cfg := rfl
@[simp] theorem setEmptyDiff_busy (s : State) : (setEmptyDiff s).busy = s.busy := rfl
@[simp] theorem setEmptyDiff_done (s : State) : (setEmptyDiff s).done = s.done := rfl
@[simp] theorem setEmptyDiff_err (s : State) : (setEmptyDiff s).err = s.err := rfl
@[simp] theorem setEmptyDiff_verified (s : State) : (setEmptyDiff s).verified = true := rfl
@[simp] theorem setEmptyDiff_verifiedPk (s : State) : (setEmptyDiff s).verifiedPk = true := rfl
@[simp] theorem setEmptyDiff_mismatch (s : State) : (setEmptyDiff s).mismatch = s.mismatch := rfl
@[simp] theorem setEmptyDiff_empty (s : State) : (setEmptyDiff s).empty = true := rfl
@[simp] theorem setEmptyDiff_decPartial (s : State) : (setEmptyDiff s).decPartial = s.decPartial := rfl
@[simp] theorem setEmptyDiff_phase (s : State) : (setEmptyDiff s).phase = s.phase := rfl
@[simp] theorem setEmptyDiff_stepOrd (s : State) : (setEmptyDiff s).stepOrd = s.stepOrd := rfl
@[simp] theorem setEmptyDiff_errCode (s : State) : (setEmptyDiff s).errCode = s.errCode := rfl
@[simp] theorem setEmptyDiff_errInfo0 (s : State) : (setEmptyDiff s).errInfo0 = s.errInfo0 := rfl
@[simp] theorem setEmptyDiff_errInfo1 (s : State) : (setEmptyDiff s).errInfo1 = s.errInfo1 := rfl
@[simp] theorem setEmptyDiff_aSym (s : State) : (setEmptyDiff s).aSym = s.aSym := rfl
@[simp] theorem setEmptyDiff_aEnd (s : State) : (setEmptyDiff s).aEnd = s.aEnd := rfl
@[simp] theorem setEmptyDiff_bSym (s : State) : (setEmptyDiff s).bSym = s.bSym := rfl
@[simp] theorem setEmptyDiff_bEnd (s : State) : (setEmptyDiff s).bEnd = s.bEnd := rfl
@[simp] theorem setEmptyDiff_lcs (s : State) : (setEmptyDiff s).lcs = s.lcs := rfl
@[simp] theorem setEmptyDiff_text (s : State) : (setEmptyDiff s).text = s.text := rfl
@[simp] theorem setEmptyDiff_freq (s : State) : (setEmptyDiff s).freq = s.freq := rfl
@[simp] theorem setEmptyDiff_node (s : State) : (setEmptyDiff s).node = s.node := rfl
@[simp] theorem setEmptyDiff_code (s : State) : (setEmptyDiff s).code = s.code := rfl
@[simp] theorem setEmptyDiff_bits (s : State) : (setEmptyDiff s).bits = s.bits := rfl
@[simp] theorem setEmptyDiff_bytes (s : State) : (setEmptyDiff s).bytes = s.bytes := rfl
@[simp] theorem setEmptyDiff_dtext (s : State) : (setEmptyDiff s).dtext = s.dtext := rfl
@[simp] theorem setEmptyDiff_pkBits (s : State) : (setEmptyDiff s).pkBits = s.pkBits := rfl
@[simp] theorem setEmptyDiff_aBytes (s : State) : (setEmptyDiff s).aBytes = s.aBytes := rfl
@[simp] theorem setEmptyDiff_bBytes (s : State) : (setEmptyDiff s).bBytes = s.bBytes := rfl
@[simp] theorem setEmptyDiff_textBytes (s : State) : (setEmptyDiff s).textBytes = s.textBytes := rfl
@[simp] theorem setEmptyDiff_ratioQ (s : State) : (setEmptyDiff s).ratioQ = s.ratioQ := rfl
@[simp] theorem setEmptyDiff_ratioR (s : State) : (setEmptyDiff s).ratioR = s.ratioR := rfl
@[simp] theorem setEmptyDiff_nodeW0 (s : State) : (setEmptyDiff s).nodeW0 = s.nodeW0 := rfl
@[simp] theorem setEmptyDiff_nodeW1 (s : State) : (setEmptyDiff s).nodeW1 = s.nodeW1 := rfl
@[simp] theorem setEmptyDiff_rdBuf (s : State) : (setEmptyDiff s).rdBuf = s.rdBuf := rfl
@[simp] theorem setEmptyDiff_rdIdx (s : State) : (setEmptyDiff s).rdIdx = s.rdIdx := rfl
@[simp] theorem setEmptyDiff_rdSub (s : State) : (setEmptyDiff s).rdSub = s.rdSub := rfl
@[simp] theorem setEmptyDiff_script (s : State) : (setEmptyDiff s).script = s.script := rfl
@[simp] theorem setEmptyDiff_readData (s : State) : (setEmptyDiff s).readData = s.readData := rfl
@[simp] theorem setEmptyDiff_draws (s : State) : (setEmptyDiff s).draws = s.draws := rfl

/-! ### `clearErrors` -/

@[simp] theorem clearErrors_cfg (s : State) : (clearErrors s).cfg = s.cfg := rfl
@[simp] theorem clearErrors_busy (s : State) : (clearErrors s).busy = s.busy := rfl
@[simp] theorem clearErrors_done (s : State) : (clearErrors s).done = s.done := rfl
@[simp] theorem clearErrors_err (s : State) : (clearErrors s).err = false := rfl
@[simp] theorem clearErrors_verified (s : State) : (clearErrors s).verified = false := rfl
@[simp] theorem clearErrors_verifiedPk (s : State) : (clearErrors s).verifiedPk = false := rfl
@[simp] theorem clearErrors_mismatch (s : State) : (clearErrors s).mismatch = false := rfl
@[simp] theorem clearErrors_empty (s : State) : (clearErrors s).empty = false := rfl
@[simp] theorem clearErrors_decPartial (s : State) : (clearErrors s).decPartial = false := rfl
@[simp] theorem clearErrors_phase (s : State) : (clearErrors s).phase = 0 := rfl
@[simp] theorem clearErrors_stepOrd (s : State) : (clearErrors s).stepOrd = 0 := rfl
@[simp] theorem clearErrors_errCode (s : State) : (clearErrors s).errCode = .none := rfl
@[simp] theorem clearErrors_errInfo0 (s : State) : (clearErrors s).errInfo0 = 0 := rfl
@[simp] theorem clearErrors_errInfo1 (s : State) : (clearErrors s).errInfo1 = 0 := rfl
@[simp] theorem clearErrors_aSym (s : State) : (clearErrors s).aSym = s.aSym := rfl
@[simp] theorem clearErrors_aEnd (s : State) : (clearErrors s).aEnd = s.aEnd := rfl
@[simp] theorem clearErrors_bSym (s : State) : (clearErrors s).bSym = s.bSym := rfl
@[simp] theorem clearErrors_bEnd (s : State) : (clearErrors s).bEnd = s.bEnd := rfl
@[simp] theorem clearErrors_lcs (s : State) : (clearErrors s).lcs = s.lcs := rfl
@[simp] theorem clearErrors_text (s : State) : (clearErrors s).text = s.text := rfl
@[simp] theorem clearErrors_freq (s : State) : (clearErrors s).freq = s.freq := rfl
@[simp] theorem clearErrors_node (s : State) : (clearErrors s).node = s.node := rfl
@[simp] theorem clearErrors_code (s : State) : (clearErrors s).code = s.code := rfl
@[simp] theorem clearErrors_bits (s : State) : (clearErrors s).bits = s.bits := rfl
@[simp] theorem clearErrors_bytes (s : State) : (clearErrors s).bytes = s.bytes := rfl
@[simp] theorem clearErrors_dtext (s : State) : (clearErrors s).dtext = s.dtext := rfl
@[simp] theorem clearErrors_pkBits (s : State) : (clearErrors s).pkBits = s.pkBits := rfl
@[simp] theorem clearErrors_aBytes (s : State) : (clearErrors s).aBytes = s.aBytes := rfl
@[simp] theorem clearErrors_bBytes (s : State) : (clearErrors s).bBytes = s.bBytes := rfl
@[simp] theorem clearErrors_textBytes (s : State) : (clearErrors s).textBytes = s.textBytes := rfl
@[simp] theorem clearErrors_ratioQ (s : State) : (clearErrors s).ratioQ = s.ratioQ := rfl
@[simp] theorem clearErrors_ratioR (s : State) : (clearErrors s).ratioR = s.ratioR := rfl
@[simp] theorem clearErrors_nodeW0 (s : State) : (clearErrors s).nodeW0 = s.nodeW0 := rfl
@[simp] theorem clearErrors_nodeW1 (s : State) : (clearErrors s).nodeW1 = s.nodeW1 := rfl
@[simp] theorem clearErrors_rdBuf (s : State) : (clearErrors s).rdBuf = s.rdBuf := rfl
@[simp] theorem clearErrors_rdIdx (s : State) : (clearErrors s).rdIdx = s.rdIdx := rfl
@[simp] theorem clearErrors_rdSub (s : State) : (clearErrors s).rdSub = s.rdSub := rfl
@[simp] theorem clearErrors_script (s : State) : (clearErrors s).script = s.script := rfl
@[simp] theorem clearErrors_readData (s : State) : (clearErrors s).readData = s.readData := rfl
@[simp] theorem clearErrors_draws (s : State) : (clearErrors s).draws = s.draws := rfl

/-! ### `invalidateDiff` -/

@[simp] theorem invalidateDiff_cfg (s : State) : (invalidateDiff s).cfg = s.cfg := rfl
@[simp] theorem invalidateDiff_busy (s : State) : (invalidateDiff s).busy = s.busy := rfl
@[simp] theorem invalidateDiff_done (s : State) : (invalidateDiff s).done = s.done := rfl
@[simp] theorem invalidateDiff_err (s : State) : (invalidateDiff s).err = s.err := rfl
@[simp] theorem invalidateDiff_verified (s : State) : (invalidateDiff s).verified = s.verified := rfl
@[simp] theorem invalidateDiff_verifiedPk (s : State) : (invalidateDiff s).verifiedPk = s.verifiedPk := rfl
@[simp] theorem invalidateDiff_mismatch (s : State) : (invalidateDiff s).mismatch = s.mismatch := rfl
@[simp] theorem invalidateDiff_empty (s : State) : (invalidateDiff s).empty = s.empty := rfl
@[simp] theorem invalidateDiff_decPartial (s : State) : (invalidateDiff s).decPartial = s.decPartial := rfl
@[simp] theorem invalidateDiff_phase (s : State) : (invalidateDiff s).phase = s.phase := rfl
@[simp] theorem invalidateDiff_stepOrd (s : State) : (invalidateDiff s).stepOrd = s.stepOrd := rfl
@[simp] theorem invalidateDiff_errCode (s : State) : (invalidateDiff s).errCode = s.errCode := rfl
@[simp] theorem invalidateDiff_errInfo0 (s : State) : (invalidateDiff s).errInfo0 = s.errInfo0 := rfl
@[simp] theorem invalidateDiff_errInfo1 (s : State) : (invalidateDiff s).errInfo1 = s.errInfo1 := rfl
@[simp] theorem invalidateDiff_aSym (s : State) : (invalidateDiff s).aSym = s.aSym := rfl
@[simp] theorem invalidateDiff_aEnd (s : State) : (invalidateDiff s).aEnd = s.aEnd := rfl
@[simp] theorem invalidateDiff_bSym (s : State) : (invalidateDiff s).bSym = s.bSym := rfl
@[simp] theorem invalidateDiff_bEnd (s : State) : (invalidateDiff s).bEnd = s.bEnd := rfl
@[simp] theorem invalidateDiff_lcs (s : State) : (invalidateDiff s).lcs = [] := rfl
@[simp] theorem invalidateDiff_text (s : State) : (invalidateDiff s).text = [] := rfl
@[simp] theorem invalidateDiff_freq (s : State) : (invalidateDiff s).freq = s.freq := rfl
@[simp] theorem invalidateDiff_node (s : State) : (invalidateDiff s).node = s.node := rfl
@[simp] theorem invalidateDiff_code (s : State) : (invalidateDiff s).code = s.code := rfl
@[simp] theorem invalidateDiff_bits (s : State) : (invalidateDiff s).bits = s.bits := rfl
@[simp] theorem invalidateDiff_bytes (s : State) : (invalidateDiff s).bytes = s.bytes := rfl
@[simp] theorem invalidateDiff_dtext (s : State) : (invalidateDiff s).dtext = s.dtext := rfl
@[simp] theorem invalidateDiff_pkBits (s : State) : (invalidateDiff s).pkBits = s.pkBits := rfl
@[simp] theorem invalidateDiff_aBytes (s : State) : (invalidateDiff s).aBytes = s.aBytes := rfl
@[simp] theorem invalidateDiff_bBytes (s : State) : (invalidateDiff s).bBytes = s.bBytes := rfl
@[simp] theorem invalidateDiff_textBytes (s : State) : (invalidateDiff s).textBytes = s.textBytes := rfl
@[simp] theorem invalidateDiff_ratioQ (s : State) : (invalidateDiff s).ratioQ = s.ratioQ := rfl
@[simp] theorem invalidateDiff_ratioR (s : State) : (invalidateDiff s).ratioR = s.ratioR := rfl
@[simp] theorem invalidateDiff_nodeW0 (s : State) : (invalidateDiff s).nodeW0 = s.nodeW0 := rfl
@[simp] theorem invalidateDiff_nodeW1 (s : State) : (invalidateDiff s).nodeW1 = s.nodeW1 := rfl
@[simp] theorem invalidateDiff_rdBuf (s : State) : (invalidateDiff s).rdBuf = s.rdBuf := rfl
@[simp] theorem invalidateDiff_rdIdx (s : State) : (invalidateDiff s).rdIdx = s.rdIdx := rfl
@[simp] theorem invalidateDiff_rdSub (s : State) : (invalidateDiff s).rdSub = s.rdSub := rfl
@[simp] theorem invalidateDiff_script (s : State) : (invalidateDiff s).script = s.script := rfl
@[simp] theorem invalidateDiff_readData (s : State) : (invalidateDiff s).readData = s.readData := rfl
@[simp] theorem invalidateDiff_draws (s : State) : (invalidateDiff s).draws = s.draws := rfl

/-! ### `writeDiff` -/

@[simp] theorem writeDiff_cfg (s : State) : (writeDiff s).cfg = s.cfg := rfl
@[simp] theorem writeDiff_busy (s : State) : (writeDiff s).busy = s.busy := rfl
@[simp] theorem writeDiff_done (s : State) : (writeDiff s).done = s.done := rfl
@[simp] theorem writeDiff_err (s : State) : (writeDiff s).err = s.err := rfl
@[simp] theorem writeDiff_verified (s : State) : (writeDiff s).verified = s.verified := rfl
@[simp] theorem writeDiff_verifiedPk (s : State) : (writeDiff s).verifiedPk = s.verifiedPk := rfl
@[simp] theorem writeDiff_mismatch (s : State) : (writeDiff s).mismatch = s.mismatch := rfl
@[simp] theorem writeDiff_empty (s : State) : (writeDiff s).empty = s.empty := rfl
@[simp] theorem writeDiff_decPartial (s : State) : (writeDiff s).decPartial = s.decPartial := rfl
@[simp] theorem writeDiff_phase (s : State) : (writeDiff s).phase = s.phase := rfl
@[simp] theorem writeDiff_stepOrd (s : State) : (writeDiff s).stepOrd = s.stepOrd := rfl
@[simp] theorem writeDiff_errCode (s : State) : (writeDiff s).errCode = s.errCode := rfl
@[simp] theorem writeDiff_errInfo0 (s : State) : (writeDiff s).errInfo0 = s.errInfo0 := rfl
@[simp] theorem writeDiff_errInfo1 (s : State) : (writeDiff s).errInfo1 = s.errInfo1 := rfl
@[simp] theorem writeDiff_aSym (s : State) : (writeDiff s).aSym = s.aSym := rfl
@[simp] theorem writeDiff_aEnd (s : State) : (writeDiff s).aEnd = s.aEnd := rfl
@[simp] theorem writeDiff_bSym (s : State) : (writeDiff s).bSym = s.bSym := rfl
@[simp] theorem writeDiff_bEnd (s : State) : (writeDiff s).bEnd = s.bEnd := rfl
@[simp] theorem writeDiff_lcs (s : State) : (writeDiff s).lcs = lcsIndices s.cfg.lcsTie (linesA s) (linesB s) := rfl
@[simp] theorem writeDiff_text (s : State) : (writeDiff s).text = diffText s.cfg.lcsTie (linesA s) (linesB s) := rfl
@[simp] theorem writeDiff_freq (s : State) : (writeDiff s).freq = s.freq := rfl
@[simp] theorem writeDiff_node (s : State) : (writeDiff s).node = s.node := rfl
@[simp] theorem writeDiff_code (s : State) : (writeDiff s).code = s.code := rfl
@[simp] theorem writeDiff_bits (s : State) : (writeDiff s).bits = s.bits := rfl
@[simp] theorem writeDiff_bytes (s : State) : (writeDiff s).bytes = s.bytes := rfl
@[simp] theorem writeDiff_dtext (s : State) : (writeDiff s).dtext = s.dtext := rfl
@[simp] theorem writeDiff_pkBits (s : State) : (writeDiff s).pkBits = s.pkBits := rfl
@[simp] theorem writeDiff_aBytes (s : State) : (writeDiff s).aBytes = s.aBytes := rfl
@[simp] theorem writeDiff_bBytes (s : State) : (writeDiff s).bBytes = s.bBytes := rfl
@[simp] theorem writeDiff_textBytes (s : State) : (writeDiff s).textBytes = s.textBytes := rfl
@[simp] theorem writeDiff_ratioQ (s : State) : (writeDiff s).ratioQ = s.ratioQ := rfl
@[simp] theorem writeDiff_ratioR (s : State) : (writeDiff s).ratioR = s.ratioR := rfl
@[simp] theorem writeDiff_nodeW0 (s : State) : (writeDiff s).nodeW0 = s.nodeW0 := rfl
@[simp] theorem writeDiff_nodeW1 (s : State) : (writeDiff s).nodeW1 = s.nodeW1 := rfl
@[simp] theorem writeDiff_rdBuf (s : State) : (writeDiff s).rdBuf = s.rdBuf := rfl
@[simp] theorem writeDiff_rdIdx (s : State) : (writeDiff s).rdIdx = s.rdIdx := rfl
@[simp] theorem writeDiff_rdSub (s : State) : (writeDiff s).rdSub = s.rdSub := rfl
@[simp] theorem writeDiff_script (s : State) : (writeDiff s).script = s.script := rfl
@[simp] theorem writeDiff_readData (s : State) : (writeDiff s).readData = s.readData := rfl
@[simp] theorem writeDiff_draws (s : State) : (writeDiff s).draws = s.draws := rfl

/-! ### `invalidateTree` -/

@[simp] theorem invalidateTree_cfg (s : State) : (invalidateTree s).cfg = s.cfg := rfl
@[simp] theorem invalidateTree_busy (s : State) : (invalidateTree s).busy = s.busy := rfl
@[simp] theorem invalidateTree_done (s : State) : (invalidateTree s).done = s.done := rfl
@[simp] theorem invalidateTree_err (s : State) : (invalidateTree s).err = s.err := rfl
@[simp] theorem invalidateTree_verified (s : State) : (invalidateTree s).verified = s.verified := rfl
@[simp] theorem invalidateTree_verifiedPk (s : State) : (invalidateTree s).verifiedPk = s.verifiedPk := rfl
@[simp] theorem invalidateTree_mismatch (s : State) : (invalidateTree s).mismatch = s.mismatch := rfl
@[simp] theorem invalidateTree_empty (s : State) : (invalidateTree s).empty = s.empty := rfl
@[simp] theorem invalidateTree_decPartial (s : State) : (invalidateTree s).decPartial = s.decPartial := rfl
@[simp] theorem invalidateTree_phase (s : State) : (invalidateTree s).phase = s.phase := rfl
@[simp] theorem invalidateTree_stepOrd (s : State) : (invalidateTree s).stepOrd = s.stepOrd := rfl
@[simp] theorem invalidateTree_errCode (s : State) : (invalidateTree s).errCode = s.errCode := rfl
@[simp] theorem invalidateTree_errInfo0 (s : State) : (invalidateTree s).errInfo0 = s.errInfo0 := rfl
@[simp] theorem invalidateTree_errInfo1 (s : State) : (invalidateTree s).errInfo1 = s.errInfo1 := rfl
@[simp] theorem invalidateTree_aSym (s : State) : (invalidateTree s).aSym = s.aSym := rfl
@[simp] theorem invalidateTree_aEnd (s : State) : (invalidateTree s).aEnd = s.aEnd := rfl
@[simp] theorem invalidateTree_bSym (s : State) : (invalidateTree s).bSym = s.bSym := rfl
@[simp] theorem invalidateTree_bEnd (s : State) : (invalidateTree s).bEnd = s.bEnd := rfl
@[simp] theorem invalidateTree_lcs (s : State) : (invalidateTree s).lcs = s.lcs := rfl
@[simp] theorem invalidateTree_text (s : State) : (invalidateTree s).text = s.text := rfl
@[simp] theorem invalidateTree_freq (s : State) : (invalidateTree s).freq = [] := rfl
@[simp] theorem invalidateTree_node (s : State) : (invalidateTree s).node = [] := rfl
@[simp] theorem invalidateTree_code (s : State) : (invalidateTree s).code = [] := rfl
@[simp] theorem invalidateTree_bits (s : State) : (invalidateTree s).bits = s.bits := rfl
@[simp] theorem invalidateTree_bytes (s : State) : (invalidateTree s).bytes = s.bytes := rfl
@[simp] theorem invalidateTree_dtext (s : State) : (invalidateTree s).dtext = s.dtext := rfl
@[simp] theorem invalidateTree_pkBits (s : State) : (invalidateTree s).pkBits = s.pkBits := rfl
@[simp] theorem invalidateTree_aBytes (s : State) : (invalidateTree s).aBytes = s.aBytes := rfl
@[simp] theorem invalidateTree_bBytes (s : State) : (invalidateTree s).bBytes = s.bBytes := rfl
@[simp] theorem invalidateTree_textBytes (s : State) : (invalidateTree s).textBytes = s.textBytes := rfl
@[simp] theorem invalidateTree_ratioQ (s : State) : (invalidateTree s).ratioQ = s.ratioQ := rfl
@[simp] theorem invalidateTree_ratioR (s : State) : (invalidateTree s).ratioR = s.ratioR := rfl
@[simp] theorem invalidateTree_nodeW0 (s : State) : (invalidateTree s).nodeW0 = s.nodeW0 := rfl
@[simp] theorem invalidateTree_nodeW1 (s : State) : (invalidateTree s).nodeW1 = s.nodeW1 := rfl
@[simp] theorem invalidateTree_rdBuf (s : State) : (invalidateTree s).rdBuf = s.rdBuf := rfl
@[simp] theorem invalidateTree_rdIdx (s : State) : (invalidateTree s).rdIdx = s.rdIdx := rfl
@[simp] theorem invalidateTree_rdSub (s : State) : (invalidateTree s).rdSub = s.rdSub := rfl
@[simp] theorem invalidateTree_script (s : State) : (invalidateTree s).script = s.script := rfl
@[simp] theorem invalidateTree_readData (s : State) : (invalidateTree s).readData = s.readData := rfl
@[simp] theorem invalidateTree_draws (s : State) : (invalidateTree s).draws = s.draws := rfl

/-! ### `writeTree` -/

@[simp] theorem writeTree_cfg (f : List FreqEntry) (s : State) : (writeTree f s).cfg = s.cfg := rfl
@[simp] theorem writeTree_busy (f : List FreqEntry) (s : State) : (writeTree f s).busy = s.busy := rfl
@[simp] theorem writeTree_done (f : List FreqEntry) (s : State) : (writeTree f s).done = s.done := rfl
@[simp] theorem writeTree_err (f : List FreqEntry) (s : State) : (writeTree f s).err = s.err := rfl
@[simp] theorem writeTree_verified (f : List FreqEntry) (s : State) : (writeTree f s).verified = s.verified := rfl
@[simp] theorem writeTree_verifiedPk (f : List FreqEntry) (s : State) : (writeTree f s).verifiedPk = s.verifiedPk := rfl
@[simp] theorem writeTree_mismatch (f : List FreqEntry) (s : State) : (writeTree f s).mismatch = s.mismatch := rfl
@[simp] theorem writeTree_empty (f : List FreqEntry) (s : State) : (writeTree f s).empty = s.empty := rfl
@[simp] theorem writeTree_decPartial (f : List FreqEntry) (s : State) : (writeTree f s).decPartial = s.decPartial := rfl
@[simp] theorem writeTree_phase (f : List FreqEntry) (s : State) : (writeTree f s).phase = s.phase := rfl
@[simp] theorem writeTree_stepOrd (f : List FreqEntry) (s : State) : (writeTree f s).stepOrd = s.stepOrd := rfl
@[simp] theorem writeTree_errCode (f : List FreqEntry) (s : State) : (writeTree f s).errCode = s.errCode := rfl
@[simp] theorem writeTree_errInfo0 (f : List FreqEntry) (s : State) : (writeTree f s).errInfo0 = s.errInfo0 := rfl
@[simp] theorem writeTree_errInfo1 (f : List FreqEntry) (s : State) : (writeTree f s).errInfo1 = s.errInfo1 := rfl
@[simp] theorem writeTree_aSym (f : List FreqEntry) (s : State) : (writeTree f s).aSym = s.aSym := rfl
@[simp] theorem writeTree_aEnd (f : List FreqEntry) (s : State) : (writeTree f s).aEnd = s.aEnd := rfl
@[simp] theorem writeTree_bSym (f : List FreqEntry) (s : State) : (writeTree f s).bSym = s.bSym := rfl
@[simp] theorem writeTree_bEnd (f : List FreqEntry) (s : State) : (writeTree f s).bEnd = s.bEnd := rfl
@[simp] theorem writeTree_lcs (f : List FreqEntry) (s : State) : (writeTree f s).lcs = s.lcs := rfl
@[simp] theorem writeTree_text (f : List FreqEntry) (s : State) : (writeTree f s).text = s.text := rfl
@[simp] theorem writeTree_freq (f : List FreqEntry) (s : State) : (writeTree f s).freq = f := rfl
@[simp] theorem writeTree_node (f : List FreqEntry) (s : State) : (writeTree f s).node = buildNodes byFreqThenIndex f := rfl
@[simp] theorem writeTree_code (f : List FreqEntry) (s : State) : (writeTree f s).code = [] := rfl
@[simp] theorem writeTree_bits (f : List FreqEntry) (s : State) : (writeTree f s).bits = s.bits := rfl
@[simp] theorem writeTree_bytes (f : List FreqEntry) (s : State) : (writeTree f s).bytes = s.bytes := rfl
@[simp] theorem writeTree_dtext (f : List FreqEntry) (s : State) : (writeTree f s).dtext = s.dtext := rfl
@[simp] theorem writeTree_pkBits (f : List FreqEntry) (s : State) : (writeTree f s).pkBits = s.pkBits := rfl
@[simp] theorem writeTree_aBytes (f : List FreqEntry) (s : State) : (writeTree f s).aBytes = s.aBytes := rfl
@[simp] theorem writeTree_bBytes (f : List FreqEntry) (s : State) : (writeTree f s).bBytes = s.bBytes := rfl
@[simp] theorem writeTree_textBytes (f : List FreqEntry) (s : State) : (writeTree f s).textBytes = s.textBytes := rfl
@[simp] theorem writeTree_ratioQ (f : List FreqEntry) (s : State) : (writeTree f s).ratioQ = s.ratioQ := rfl
@[simp] theorem writeTree_ratioR (f : List FreqEntry) (s : State) : (writeTree f s).ratioR = s.ratioR := rfl
@[simp] theorem writeTree_nodeW0 (f : List FreqEntry) (s : State) : (writeTree f s).nodeW0 = s.nodeW0 := rfl
@[simp] theorem writeTree_nodeW1 (f : List FreqEntry) (s : State) : (writeTree f s).nodeW1 = s.nodeW1 := rfl
@[simp] theorem writeTree_rdBuf (f : List FreqEntry) (s : State) : (writeTree f s).rdBuf = s.rdBuf := rfl
@[simp] theorem writeTree_rdIdx (f : List FreqEntry) (s : State) : (writeTree f s).rdIdx = s.rdIdx := rfl
@[simp] theorem writeTree_rdSub (f : List FreqEntry) (s : State) : (writeTree f s).rdSub = s.rdSub := rfl
@[simp] theorem writeTree_script (f : List FreqEntry) (s : State) : (writeTree f s).script = s.script := rfl
@[simp] theorem writeTree_readData (f : List FreqEntry) (s : State) : (writeTree f s).readData = s.readData := rfl
@[simp] theorem writeTree_draws (f : List FreqEntry) (s : State) : (writeTree f s).draws = s.draws := rfl

/-! ### `invalidateCode` -/

@[simp] theorem invalidateCode_cfg (s : State) : (invalidateCode s).cfg = s.cfg := rfl
@[simp] theorem invalidateCode_busy (s : State) : (invalidateCode s).busy = s.busy := rfl
@[simp] theorem invalidateCode_done (s : State) : (invalidateCode s).done = s.done := rfl
@[simp] theorem invalidateCode_err (s : State) : (invalidateCode s).err = s.err := rfl
@[simp] theorem invalidateCode_verified (s : State) : (invalidateCode s).verified = s.verified := rfl
@[simp] theorem invalidateCode_verifiedPk (s : State) : (invalidateCode s).verifiedPk = s.verifiedPk := rfl
@[simp] theorem invalidateCode_mismatch (s : State) : (invalidateCode s).mismatch = s.mismatch := rfl
@[simp] theorem invalidateCode_empty (s : State) : (invalidateCode s).empty = s.empty := rfl
@[simp] theorem invalidateCode_decPartial (s : State) : (invalidateCode s).decPartial = s.decPartial := rfl
@[simp] theorem invalidateCode_phase (s : State) : (invalidateCode s).phase = s.phase := rfl
@[simp] theorem invalidateCode_stepOrd (s : State) : (invalidateCode s).stepOrd = s.stepOrd := rfl
@[simp] theorem invalidateCode_errCode (s : State) : (invalidateCode s).errCode = s.errCode := rfl
@[simp] theorem invalidateCode_errInfo0 (s : State) : (invalidateCode s).errInfo0 = s.errInfo0 := rfl
@[simp] theorem invalidateCode_errInfo1 (s : State) : (invalidateCode s).errInfo1 = s.errInfo1 := rfl
@[simp] theorem invalidateCode_aSym (s : State) : (invalidateCode s).aSym = s.aSym := rfl
@[simp] theorem invalidateCode_aEnd (s : State) : (invalidateCode s).aEnd = s.aEnd := rfl
@[simp] theorem invalidateCode_bSym (s : State) : (invalidateCode s).bSym = s.bSym := rfl
@[simp] theorem invalidateCode_bEnd (s : State) : (invalidateCode s).bEnd = s.bEnd := rfl
@[simp] theorem invalidateCode_lcs (s : State) : (invalidateCode s).lcs = s.lcs := rfl
@[simp] theorem invalidateCode_text (s : State) : (invalidateCode s).text = s.text := rfl
@[simp] theorem invalidateCode_freq (s : State) : (invalidateCode s).freq = s.freq := rfl
@[simp] theorem invalidateCode_node (s : State) : (invalidateCode s).node = s.node := rfl
@[simp] theorem invalidateCode_code (s : State) : (invalidateCode s).code = [] := rfl
@[simp] theorem invalidateCode_bits (s : State) : (invalidateCode s).bits = s.bits := rfl
@[simp] theorem invalidateCode_bytes (s : State) : (invalidateCode s).bytes = s.bytes := rfl
@[simp] theorem invalidateCode_dtext (s : State) : (invalidateCode s).dtext = s.dtext := rfl
@[simp] theorem invalidateCode_pkBits (s : State) : (invalidateCode s).pkBits = s.pkBits := rfl
@[simp] theorem invalidateCode_aBytes (s : State) : (invalidateCode s).aBytes = s.aBytes := rfl
@[simp] theorem invalidateCode_bBytes (s : State) : (invalidateCode s).bBytes = s.bBytes := rfl
@[simp] theorem invalidateCode_textBytes (s : State) : (invalidateCode s).textBytes = s.textBytes := rfl
@[simp] theorem invalidateCode_ratioQ (s : State) : (invalidateCode s).ratioQ = s.ratioQ := rfl
@[simp] theorem invalidateCode_ratioR (s : State) : (invalidateCode s).ratioR = s.ratioR := rfl
@[simp] theorem invalidateCode_nodeW0 (s : State) : (invalidateCode s).nodeW0 = s.nodeW0 := rfl
@[simp] theorem invalidateCode_nodeW1 (s : State) : (invalidateCode s).nodeW1 = s.nodeW1 := rfl
@[simp] theorem invalidateCode_rdBuf (s : State) : (invalidateCode s).rdBuf = s.rdBuf := rfl
@[simp] theorem invalidateCode_rdIdx (s : State) : (invalidateCode s).rdIdx = s.rdIdx := rfl
@[simp] theorem invalidateCode_rdSub (s : State) : (invalidateCode s).rdSub = s.rdSub := rfl
@[simp] theorem invalidateCode_script (s : State) : (invalidateCode s).script = s.script := rfl
@[simp] theorem invalidateCode_readData (s : State) : (invalidateCode s).readData = s.readData := rfl
@[simp] theorem invalidateCode_draws (s : State) : (invalidateCode s).draws = s.draws := rfl

/-! ### `writeCode` -/

@[simp] theorem writeCode_cfg (c : List CodeEntry) (s : State) : (writeCode c s).cfg = s.cfg := rfl
@[simp] theorem writeCode_busy (c : List CodeEntry) (s : State) : (writeCode c s).busy = s.busy := rfl
@[simp] theorem writeCode_done (c : List CodeEntry) (s : State) : (writeCode c s).done = s.done := rfl
@[simp] theorem writeCode_err (c : List CodeEntry) (s : State) : (writeCode c s).err = s.err := rfl
@[simp] theorem writeCode_verified (c : List CodeEntry) (s : State) : (writeCode c s).verified = s.verified := rfl
@[simp] theorem writeCode_verifiedPk (c : List CodeEntry) (s : State) : (writeCode c s).verifiedPk = s.verifiedPk := rfl
@[simp] theorem writeCode_mismatch (c : List CodeEntry) (s : State) : (writeCode c s).mismatch = s.mismatch := rfl
@[simp] theorem writeCode_empty (c : List CodeEntry) (s : State) : (writeCode c s).empty = s.empty := rfl
@[simp] theorem writeCode_decPartial (c : List CodeEntry) (s : State) : (writeCode c s).decPartial = s.decPartial := rfl
@[simp] theorem writeCode_phase (c : List CodeEntry) (s : State) : (writeCode c s).phase = s.phase := rfl
@[simp] theorem writeCode_stepOrd (c : List CodeEntry) (s : State) : (writeCode c s).stepOrd = s.stepOrd := rfl
@[simp] theorem writeCode_errCode (c : List CodeEntry) (s : State) : (writeCode c s).errCode = s.errCode := rfl
@[simp] theorem writeCode_errInfo0 (c : List CodeEntry) (s : State) : (writeCode c s).errInfo0 = s.errInfo0 := rfl
@[simp] theorem writeCode_errInfo1 (c : List CodeEntry) (s : State) : (writeCode c s).errInfo1 = s.errInfo1 := rfl
@[simp] theorem writeCode_aSym (c : List CodeEntry) (s : State) : (writeCode c s).aSym = s.aSym := rfl
@[simp] theorem writeCode_aEnd (c : List CodeEntry) (s : State) : (writeCode c s).aEnd = s.aEnd := rfl
@[simp] theorem writeCode_bSym (c : List CodeEntry) (s : State) : (writeCode c s).bSym = s.bSym := rfl
@[simp] theorem writeCode_bEnd (c : List CodeEntry) (s : State) : (writeCode c s).bEnd = s.bEnd := rfl
@[simp] theorem writeCode_lcs (c : List CodeEntry) (s : State) : (writeCode c s).lcs = s.lcs := rfl
@[simp] theorem writeCode_text (c : List CodeEntry) (s : State) : (writeCode c s).text = s.text := rfl
@[simp] theorem writeCode_freq (c : List CodeEntry) (s : State) : (writeCode c s).freq = s.freq := rfl
@[simp] theorem writeCode_node (c : List CodeEntry) (s : State) : (writeCode c s).node = s.node := rfl
@[simp] theorem writeCode_code (c : List CodeEntry) (s : State) : (writeCode c s).code = c := rfl
@[simp] theorem writeCode_bits (c : List CodeEntry) (s : State) : (writeCode c s).bits = s.bits := rfl
@[simp] theorem writeCode_bytes (c : List CodeEntry) (s : State) : (writeCode c s).bytes = s.bytes := rfl
@[simp] theorem writeCode_dtext (c : List CodeEntry) (s : State) : (writeCode c s).dtext = s.dtext := rfl
@[simp] theorem writeCode_pkBits (c : List CodeEntry) (s : State) : (writeCode c s).pkBits = s.pkBits := rfl
@[simp] theorem writeCode_aBytes (c : List CodeEntry) (s : State) : (writeCode c s).aBytes = s.aBytes := rfl
@[simp] theorem writeCode_bBytes (c : List CodeEntry) (s : State) : (writeCode c s).bBytes = s.bBytes := rfl
@[simp] theorem writeCode_textBytes (c : List CodeEntry) (s : State) : (writeCode c s).textBytes = s.textBytes := rfl
@[simp] theorem writeCode_ratioQ (c : List CodeEntry) (s : State) : (writeCode c s).ratioQ = s.ratioQ := rfl
@[simp] theorem writeCode_ratioR (c : List CodeEntry) (s : State) : (writeCode c s).ratioR = s.ratioR := rfl
@[simp] theorem writeCode_nodeW0 (c : List CodeEntry) (s : State) : (writeCode c s).nodeW0 = s.nodeW0 := rfl
@[simp] theorem writeCode_nodeW1 (c : List CodeEntry) (s : State) : (writeCode c s).nodeW1 = s.nodeW1 := rfl
@[simp] theorem writeCode_rdBuf (c : List CodeEntry) (s : State) : (writeCode c s).rdBuf = s.rdBuf := rfl
@[simp] theorem writeCode_rdIdx (c : List CodeEntry) (s : State) : (writeCode c s).rdIdx = s.rdIdx := rfl
@[simp] theorem writeCode_rdSub (c : List CodeEntry) (s : State) : (writeCode c s).rdSub = s.rdSub := rfl
@[simp] theorem writeCode_script (c : List CodeEntry) (s : State) : (writeCode c s).script = s.script := rfl
@[simp] theorem writeCode_readData (c : List CodeEntry) (s : State) : (writeCode c s).readData = s.readData := rfl
@[simp] theorem writeCode_draws (c : List CodeEntry) (s : State) : (writeCode c s).draws = s.draws := rfl

/-! ### `invalidateBits` -/

@[simp] theorem invalidateBits_cfg (s : State) : (invalidateBits s).cfg = s.cfg := rfl
@[simp] theorem invalidateBits_busy (s : State) : (invalidateBits s).busy = s.busy := rfl
@[simp] theorem invalidateBits_done (s : State) : (invalidateBits s).done = s.done := rfl
@[simp] theorem invalidateBits_err (s : State) : (invalidateBits s).err = s.err := rfl
@[simp] theorem invalidateBits_verified (s : State) : (invalidateBits s).verified = s.verified := rfl
@[simp] theorem invalidateBits_verifiedPk (s : State) : (invalidateBits s).verifiedPk = s.verifiedPk := rfl
@[simp] theorem invalidateBits_mismatch (s : State) : (invalidateBits s).mismatch = s.mismatch := rfl
@[simp] theorem invalidateBits_empty (s : State) : (invalidateBits s).empty = s.empty := rfl
@[simp] theorem invalidateBits_decPartial (s : State) : (invalidateBits s).decPartial = s.decPartial := rfl
@[simp] theorem invalidateBits_phase (s : State) : (invalidateBits s).phase = s.phase := rfl
@[simp] theorem invalidateBits_stepOrd (s : State) : (invalidateBits s).stepOrd = s.stepOrd := rfl
@[simp] theorem invalidateBits_errCode (s : State) : (invalidateBits s).errCode = s.errCode := rfl
@[simp] theorem invalidateBits_errInfo0 (s : State) : (invalidateBits s).errInfo0 = s.errInfo0 := rfl
@[simp] theorem invalidateBits_errInfo1 (s : State) : (invalidateBits s).errInfo1 = s.errInfo1 := rfl
@[simp] theorem invalidateBits_aSym (s : State) : (invalidateBits s).aSym = s.aSym := rfl
@[simp] theorem invalidateBits_aEnd (s : State) : (invalidateBits s).aEnd = s.aEnd := rfl
@[simp] theorem invalidateBits_bSym (s : State) : (invalidateBits s).bSym = s.bSym := rfl
@[simp] theorem invalidateBits_bEnd (s : State) : (invalidateBits s).bEnd = s.bEnd := rfl
@[simp] theorem invalidateBits_lcs (s : State) : (invalidateBits s).lcs = s.lcs := rfl
@[simp] theorem invalidateBits_text (s : State) : (invalidateBits s).text = s.text := rfl
@[simp] theorem invalidateBits_freq (s : State) : (invalidateBits s).freq = s.freq := rfl
@[simp] theorem invalidateBits_node (s : State) : (invalidateBits s).node = s.node := rfl
@[simp] theorem invalidateBits_code (s : State) : (invalidateBits s).code = s.code := rfl
@[simp] theorem invalidateBits_bits (s : State) : (invalidateBits s).bits = [] := rfl
@[simp] theorem invalidateBits_bytes (s : State) : (invalidateBits s).bytes = s.bytes := rfl
@[simp] theorem invalidateBits_dtext (s : State) : (invalidateBits s).dtext = s.dtext := rfl
@[simp] theorem invalidateBits_pkBits (s : State) : (invalidateBits s).pkBits = s.pkBits := rfl
@[simp] theorem invalidateBits_aBytes (s : State) : (invalidateBits s).aBytes = s.aBytes := rfl
@[simp] theorem invalidateBits_bBytes (s : State) : (invalidateBits s).bBytes = s.bBytes := rfl
@[simp] theorem invalidateBits_textBytes (s : State) : (invalidateBits s).textBytes = s.textBytes := rfl
@[simp] theorem invalidateBits_ratioQ (s : State) : (invalidateBits s).ratioQ = s.ratioQ := rfl
@[simp] theorem invalidateBits_ratioR (s : State) : (invalidateBits s).ratioR = s.ratioR := rfl
@[simp] theorem invalidateBits_nodeW0 (s : State) : (invalidateBits s).nodeW0 = s.nodeW0 := rfl
@[simp] theorem invalidateBits_nodeW1 (s : State) : (invalidateBits s).nodeW1 = s.nodeW1 := rfl
@[simp] theorem invalidateBits_rdBuf (s : State) : (invalidateBits s).rdBuf = s.rdBuf := rfl
@[simp] theorem invalidateBits_rdIdx (s : State) : (invalidateBits s).rdIdx = s.rdIdx := rfl
@[simp] theorem invalidateBits_rdSub (s : State) : (invalidateBits s).rdSub = s.rdSub := rfl
@[simp] theorem invalidateBits_script (s : State) : (invalidateBits s).script = s.script := rfl
@[simp] theorem invalidateBits_readData (s : State) : (invalidateBits s).readData = s.readData := rfl
@[simp] theorem invalidateBits_draws (s : State) : (invalidateBits s).draws = s.draws := rfl

/-! ### `writeBits` -/

@[simp] theorem writeBits_cfg (b : List Bool) (s : State) : (writeBits b s).cfg = s.cfg := rfl
@[simp] theorem writeBits_busy (b : List Bool) (s : State) : (writeBits b s).busy = s.busy := rfl
@[simp] theorem writeBits_done (b : List Bool) (s : State) : (writeBits b s).done = s.done := rfl
@[simp] theorem writeBits_err (b : List Bool) (s : State) : (writeBits b s).err = s.err := rfl
@[simp] theorem writeBits_verified (b : List Bool) (s : State) : (writeBits b s).verified = s.verified := rfl
@[simp] theorem writeBits_verifiedPk (b : List Bool) (s : State) : (writeBits b s).verifiedPk = s.verifiedPk := rfl
@[simp] theorem writeBits_mismatch (b : List Bool) (s : State) : (writeBits b s).mismatch = s.mismatch := rfl
@[simp] theorem writeBits_empty (b : List Bool) (s : State) : (writeBits b s).empty = s.empty := rfl
@[simp] theorem writeBits_decPartial (b : List Bool) (s : State) : (writeBits b s).decPartial = s.decPartial := rfl
@[simp] theorem writeBits_phase (b : List Bool) (s : State) : (writeBits b s).phase = s.phase := rfl
@[simp] theorem writeBits_stepOrd (b : List Bool) (s : State) : (writeBits b s).stepOrd = s.stepOrd := rfl
@[simp] theorem writeBits_errCode (b : List Bool) (s : State) : (writeBits b s).errCode = s.errCode := rfl
@[simp] theorem writeBits_errInfo0 (b : List Bool) (s : State) : (writeBits b s).errInfo0 = s.errInfo0 := rfl
@[simp] theorem writeBits_errInfo1 (b : List Bool) (s : State) : (writeBits b s).errInfo1 = s.errInfo1 := rfl
@[simp] theorem writeBits_aSym (b : List Bool) (s : State) : (writeBits b s).aSym = s.aSym := rfl
@[simp] theorem writeBits_aEnd (b : List Bool) (s : State) : (writeBits b s).aEnd = s.aEnd := rfl
@[simp] theorem writeBits_bSym (b : List Bool) (s : State) : (writeBits b s).bSym = s.bSym := rfl
@[simp] theorem writeBits_bEnd (b : List Bool) (s : State) : (writeBits b s).bEnd = s.bEnd := rfl
@[simp] theorem writeBits_lcs (b : List Bool) (s : State) : (writeBits b s).lcs = s.lcs := rfl
@[simp] theorem writeBits_text (b : List Bool) (s : State) : (writeBits b s).text = s.text := rfl
@[simp] theorem writeBits_freq (b : List Bool) (s : State) : (writeBits b s).freq = s.freq := rfl
@[simp] theorem writeBits_node (b : List Bool) (s : State) : (writeBits b s).node = s.node := rfl
@[simp] theorem writeBits_code (b : List Bool) (s : State) : (writeBits b s).code = s.code := rfl
@[simp] theorem writeBits_bits (b : List Bool) (s : State) : (writeBits b s).bits = b := rfl
@[simp] theorem writeBits_bytes (b : List Bool) (s : State) : (writeBits b s).bytes = s.bytes := rfl
@[simp] theorem writeBits_dtext (b : List Bool) (s : State) : (writeBits b s).dtext = s.dtext := rfl
@[simp] theorem writeBits_pkBits (b : List Bool) (s : State) : (writeBits b s).pkBits = s.pkBits := rfl
@[simp] theorem writeBits_aBytes (b : List Bool) (s : State) : (writeBits b s).aBytes = s.aBytes := rfl
@[simp] theorem writeBits_bBytes (b : List Bool) (s : State) : (writeBits b s).bBytes = s.bBytes := rfl
@[simp] theorem writeBits_textBytes (b : List Bool) (s : State) : (writeBits b s).textBytes = s.textBytes := rfl
@[simp] theorem writeBits_ratioQ (b : List Bool) (s : State) : (writeBits b s).ratioQ = s.ratioQ := rfl
@[simp] theorem writeBits_ratioR (b : List Bool) (s : State) : (writeBits b s).ratioR = s.ratioR := rfl
@[simp] theorem writeBits_nodeW0 (b : List Bool) (s : State) : (writeBits b s).nodeW0 = s.nodeW0 := rfl
@[simp] theorem writeBits_nodeW1 (b : List Bool) (s : State) : (writeBits b s).nodeW1 = s.nodeW1 := rfl
@[simp] theorem writeBits_rdBuf (b : List Bool) (s : State) : (writeBits b s).rdBuf = s.rdBuf := rfl
@[simp] theorem writeBits_rdIdx (b : List Bool) (s : State) : (writeBits b s).rdIdx = s.rdIdx := rfl
@[simp] theorem writeBits_rdSub (b : List Bool) (s : State) : (writeBits b s).rdSub = s.rdSub := rfl
@[simp] theorem writeBits_script (b : List Bool) (s : State) : (writeBits b s).script = s.script := rfl
@[simp] theorem writeBits_readData (b : List Bool) (s : State) : (writeBits b s).readData = s.readData := rfl
@[simp] theorem writeBits_draws (b : List Bool) (s : State) : (writeBits b s).draws = s.draws := rfl

/-! ### `invalidateDecode` -/

@[simp] theorem invalidateDecode_cfg (s : State) : (invalidateDecode s).cfg = s.cfg := rfl
@[simp] theorem invalidateDecode_busy (s : State) : (invalidateDecode s).busy = s.busy := rfl
@[simp] theorem invalidateDecode_done (s : State) : (invalidateDecode s).done = s.done := rfl
@[simp] theorem invalidateDecode_err (s : State) : (invalidateDecode s).err = s.err := rfl
@[simp] theorem invalidateDecode_verified (s : State) : (invalidateDecode s).verified = s.verified := rfl
@[simp] theorem invalidateDecode_verifiedPk (s : State) : (invalidateDecode s).verifiedPk = s.verifiedPk := rfl
@[simp] theorem invalidateDecode_mismatch (s : State) : (invalidateDecode s).mismatch = s.mismatch := rfl
@[simp] theorem invalidateDecode_empty (s : State) : (invalidateDecode s).empty = s.empty := rfl
@[simp] theorem invalidateDecode_decPartial (s : State) : (invalidateDecode s).decPartial = false := rfl
@[simp] theorem invalidateDecode_phase (s : State) : (invalidateDecode s).phase = s.phase := rfl
@[simp] theorem invalidateDecode_stepOrd (s : State) : (invalidateDecode s).stepOrd = s.stepOrd := rfl
@[simp] theorem invalidateDecode_errCode (s : State) : (invalidateDecode s).errCode = s.errCode := rfl
@[simp] theorem invalidateDecode_errInfo0 (s : State) : (invalidateDecode s).errInfo0 = s.errInfo0 := rfl
@[simp] theorem invalidateDecode_errInfo1 (s : State) : (invalidateDecode s).errInfo1 = s.errInfo1 := rfl
@[simp] theorem invalidateDecode_aSym (s : State) : (invalidateDecode s).aSym = s.aSym := rfl
@[simp] theorem invalidateDecode_aEnd (s : State) : (invalidateDecode s).aEnd = s.aEnd := rfl
@[simp] theorem invalidateDecode_bSym (s : State) : (invalidateDecode s).bSym = s.bSym := rfl
@[simp] theorem invalidateDecode_bEnd (s : State) : (invalidateDecode s).bEnd = s.bEnd := rfl
@[simp] theorem invalidateDecode_lcs (s : State) : (invalidateDecode s).lcs = s.lcs := rfl
@[simp] theorem invalidateDecode_text (s : State) : (invalidateDecode s).text = s.text := rfl
@[simp] theorem invalidateDecode_freq (s : State) : (invalidateDecode s).freq = s.freq := rfl
@[simp] theorem invalidateDecode_node (s : State) : (invalidateDecode s).node = s.node := rfl
@[simp] theorem invalidateDecode_code (s : State) : (invalidateDecode s).code = s.code := rfl
@[simp] theorem invalidateDecode_bits (s : State) : (invalidateDecode s).bits = s.bits := rfl
@[simp] theorem invalidateDecode_bytes (s : State) : (invalidateDecode s).bytes = s.bytes := rfl
@[simp] theorem invalidateDecode_dtext (s : State) : (invalidateDecode s).dtext = [] := rfl
@[simp] theorem invalidateDecode_pkBits (s : State) : (invalidateDecode s).pkBits = s.pkBits := rfl
@[simp] theorem invalidateDecode_aBytes (s : State) : (invalidateDecode s).aBytes = s.aBytes := rfl
@[simp] theorem invalidateDecode_bBytes (s : State) : (invalidateDecode s).bBytes = s.bBytes := rfl
@[simp] theorem invalidateDecode_textBytes (s : State) : (invalidateDecode s).textBytes = s.textBytes := rfl
@[simp] theorem invalidateDecode_ratioQ (s : State) : (invalidateDecode s).ratioQ = s.ratioQ := rfl
@[simp] theorem invalidateDecode_ratioR (s : State) : (invalidateDecode s).ratioR = s.ratioR := rfl
@[simp] theorem invalidateDecode_nodeW0 (s : State) : (invalidateDecode s).nodeW0 = s.nodeW0 := rfl
@[simp] theorem invalidateDecode_nodeW1 (s : State) : (invalidateDecode s).nodeW1 = s.nodeW1 := rfl
@[simp] theorem invalidateDecode_rdBuf (s : State) : (invalidateDecode s).rdBuf = s.rdBuf := rfl
@[simp] theorem invalidateDecode_rdIdx (s : State) : (invalidateDecode s).rdIdx = s.rdIdx := rfl
@[simp] theorem invalidateDecode_rdSub (s : State) : (invalidateDecode s).rdSub = s.rdSub := rfl
@[simp] theorem invalidateDecode_script (s : State) : (invalidateDecode s).script = s.script := rfl
@[simp] theorem invalidateDecode_readData (s : State) : (invalidateDecode s).readData = s.readData := rfl
@[simp] theorem invalidateDecode_draws (s : State) : (invalidateDecode s).draws = s.draws := rfl

/-! ### `writeDecode` -/

@[simp] theorem writeDecode_cfg (t : List Symbol) (p : Bool) (s : State) : (writeDecode t p s).cfg = s.cfg := rfl
@[simp] theorem writeDecode_busy (t : List Symbol) (p : Bool) (s : State) : (writeDecode t p s).busy = s.busy := rfl
@[simp] theorem writeDecode_done (t : List Symbol) (p : Bool) (s : State) : (writeDecode t p s).done = s.done := rfl
@[simp] theorem writeDecode_err (t : List Symbol) (p : Bool) (s : State) : (writeDecode t p s).err = s.err := rfl
@[simp] theorem writeDecode_verified (t : List Symbol) (p : Bool) (s : State) : (writeDecode t p s).verified = s.verified := rfl
@[simp] theorem writeDecode_verifiedPk (t : List Symbol) (p : Bool) (s : State) : (writeDecode t p s).verifiedPk = s.verifiedPk := rfl
@[simp] theorem writeDecode_mismatch (t : List Symbol) (p : Bool) (s : State) : (writeDecode t p s).mismatch = s.mismatch := rfl
@[simp] theorem writeDecode_empty (t : List Symbol) (p : Bool) (s : State) : (writeDecode t p s).empty = s.empty := rfl
@[simp] theorem writeDecode_decPartial (t : List Symbol) (p : Bool) (s : State) : (writeDecode t p s).decPartial = p := rfl
@[simp] theorem writeDecode_phase (t : List Symbol) (p : Bool) (s : State) : (writeDecode t p s).phase = s.phase := rfl
@[simp] theorem writeDecode_stepOrd (t : List Symbol) (p : Bool) (s : State) : (writeDecode t p s).stepOrd = s.stepOrd := rfl
@[simp] theorem writeDecode_errCode (t : List Symbol) (p : Bool) (s : State) : (writeDecode t p s).errCode = s.errCode := rfl
@[simp] theorem writeDecode_errInfo0 (t : List Symbol) (p : Bool) (s : State) : (writeDecode t p s).errInfo0 = s.errInfo0 := rfl
@[simp] theorem writeDecode_errInfo1 (t : List Symbol) (p : Bool) (s : State) : (writeDecode t p s).errInfo1 = s.errInfo1 := rfl
@[simp] theorem writeDecode_aSym (t : List Symbol) (p : Bool) (s : State) : (writeDecode t p s).aSym = s.aSym := rfl
@[simp] theorem writeDecode_aEnd (t : List Symbol) (p : Bool) (s : State) : (writeDecode t p s).aEnd = s.aEnd := rfl
@[simp] theorem writeDecode_bSym (t : List Symbol) (p : Bool) (s : State) : (writeDecode t p s).bSym = s.bSym := rfl
@[simp] theorem writeDecode_bEnd (t : List Symbol) (p : Bool) (s : State) : (writeDecode t p s).bEnd = s.bEnd := rfl
@[simp] theorem writeDecode_lcs (t : List Symbol) (p : Bool) (s : State) : (writeDecode t p s).lcs = s.lcs := rfl
@[simp] theorem writeDecode_text (t : List Symbol) (p : Bool) (s : State) : (writeDecode t p s).text = s.text := rfl
@[simp] theorem writeDecode_freq (t : List Symbol) (p : Bool) (s : State) : (writeDecode t p s).freq = s.freq := rfl
@[simp] theorem writeDecode_node (t : List Symbol) (p : Bool) (s : State) : (writeDecode t p s).node = s.node := rfl
@[simp] theorem writeDecode_code (t : List Symbol) (p : Bool) (s : State) : (writeDecode t p s).code = s.code := rfl
@[simp] theorem writeDecode_bits (t : List Symbol) (p : Bool) (s : State) : (writeDecode t p s).bits = s.bits := rfl
@[simp] theorem writeDecode_bytes (t : List Symbol) (p : Bool) (s : State) : (writeDecode t p s).bytes = s.bytes := rfl
@[simp] theorem writeDecode_dtext (t : List Symbol) (p : Bool) (s : State) : (writeDecode t p s).dtext = t := rfl
@[simp] theorem writeDecode_pkBits (t : List Symbol) (p : Bool) (s : State) : (writeDecode t p s).pkBits = s.pkBits := rfl
@[simp] theorem writeDecode_aBytes (t : List Symbol) (p : Bool) (s : State) : (writeDecode t p s).aBytes = s.aBytes := rfl
@[simp] theorem writeDecode_bBytes (t : List Symbol) (p : Bool) (s : State) : (writeDecode t p s).bBytes = s.bBytes := rfl
@[simp] theorem writeDecode_textBytes (t : List Symbol) (p : Bool) (s : State) : (writeDecode t p s).textBytes = s.textBytes := rfl
@[simp] theorem writeDecode_ratioQ (t : List Symbol) (p : Bool) (s : State) : (writeDecode t p s).ratioQ = s.ratioQ := rfl
@[simp] theorem writeDecode_ratioR (t : List Symbol) (p : Bool) (s : State) : (writeDecode t p s).ratioR = s.ratioR := rfl
@[simp] theorem writeDecode_nodeW0 (t : List Symbol) (p : Bool) (s : State) : (writeDecode t p s).nodeW0 = s.nodeW0 := rfl
@[simp] theorem writeDecode_nodeW1 (t : List Symbol) (p : Bool) (s : State) : (writeDecode t p s).nodeW1 = s.nodeW1 := rfl
@[simp] theorem writeDecode_rdBuf (t : List Symbol) (p : Bool) (s : State) : (writeDecode t p s).rdBuf = s.rdBuf := rfl
@[simp] theorem writeDecode_rdIdx (t : List Symbol) (p : Bool) (s : State) : (writeDecode t p s).rdIdx = s.rdIdx := rfl
@[simp] theorem writeDecode_rdSub (t : List Symbol) (p : Bool) (s : State) : (writeDecode t p s).rdSub = s.rdSub := rfl
@[simp] theorem writeDecode_script (t : List Symbol) (p : Bool) (s : State) : (writeDecode t p s).script = s.script := rfl
@[simp] theorem writeDecode_readData (t : List Symbol) (p : Bool) (s : State) : (writeDecode t p s).readData = s.readData := rfl
@[simp] theorem writeDecode_draws (t : List Symbol) (p : Bool) (s : State) : (writeDecode t p s).draws = s.draws := rfl

/-! ### `writePack` -/

@[simp] theorem writePack_cfg (s : State) : (writePack s).cfg = s.cfg := rfl
@[simp] theorem writePack_busy (s : State) : (writePack s).busy = s.busy := rfl
@[simp] theorem writePack_done (s : State) : (writePack s).done = s.done := rfl
@[simp] theorem writePack_err (s : State) : (writePack s).err = s.err := rfl
@[simp] theorem writePack_verified (s : State) : (writePack s).verified = s.verified := rfl
@[simp] theorem writePack_verifiedPk (s : State) : (writePack s).verifiedPk = s.verifiedPk := rfl
@[simp] theorem writePack_mismatch (s : State) : (writePack s).mismatch = s.mismatch := rfl
@[simp] theorem writePack_empty (s : State) : (writePack s).empty = s.empty := rfl
@[simp] theorem writePack_decPartial (s : State) : (writePack s).decPartial = s.decPartial := rfl
@[simp] theorem writePack_phase (s : State) : (writePack s).phase = s.phase := rfl
@[simp] theorem writePack_stepOrd (s : State) : (writePack s).stepOrd = s.stepOrd := rfl
@[simp] theorem writePack_errCode (s : State) : (writePack s).errCode = s.errCode := rfl
@[simp] theorem writePack_errInfo0 (s : State) : (writePack s).errInfo0 = s.errInfo0 := rfl
@[simp] theorem writePack_errInfo1 (s : State) : (writePack s).errInfo1 = s.errInfo1 := rfl
@[simp] theorem writePack_aSym (s : State) : (writePack s).aSym = s.aSym := rfl
@[simp] theorem writePack_aEnd (s : State) : (writePack s).aEnd = s.aEnd := rfl
@[simp] theorem writePack_bSym (s : State) : (writePack s).bSym = s.bSym := rfl
@[simp] theorem writePack_bEnd (s : State) : (writePack s).bEnd = s.bEnd := rfl
@[simp] theorem writePack_lcs (s : State) : (writePack s).lcs = s.lcs := rfl
@[simp] theorem writePack_text (s : State) : (writePack s).text = s.text := rfl
@[simp] theorem writePack_freq (s : State) : (writePack s).freq = s.freq := rfl
@[simp] theorem writePack_node (s : State) : (writePack s).node = s.node := rfl
@[simp] theorem writePack_code (s : State) : (writePack s).code = s.code := rfl
@[simp] theorem writePack_bits (s : State) : (writePack s).bits = s.bits := rfl
@[simp] theorem writePack_bytes (s : State) : (writePack s).bytes = packBits s.bits := rfl
@[simp] theorem writePack_dtext (s : State) : (writePack s).dtext = s.dtext := rfl
@[simp] theorem writePack_pkBits (s : State) : (writePack s).pkBits = word s.bits.length := rfl
@[simp] theorem writePack_aBytes (s : State) : (writePack s).aBytes = s.aBytes := rfl
@[simp] theorem writePack_bBytes (s : State) : (writePack s).bBytes = s.bBytes := rfl
@[simp] theorem writePack_textBytes (s : State) : (writePack s).textBytes = s.textBytes := rfl
@[simp] theorem writePack_ratioQ (s : State) : (writePack s).ratioQ = s.ratioQ := rfl
@[simp] theorem writePack_ratioR (s : State) : (writePack s).ratioR = s.ratioR := rfl
@[simp] theorem writePack_nodeW0 (s : State) : (writePack s).nodeW0 = s.nodeW0 := rfl
@[simp] theorem writePack_nodeW1 (s : State) : (writePack s).nodeW1 = s.nodeW1 := rfl
@[simp] theorem writePack_rdBuf (s : State) : (writePack s).rdBuf = s.rdBuf := rfl
@[simp] theorem writePack_rdIdx (s : State) : (writePack s).rdIdx = s.rdIdx := rfl
@[simp] theorem writePack_rdSub (s : State) : (writePack s).rdSub = s.rdSub := rfl
@[simp] theorem writePack_script (s : State) : (writePack s).script = s.script := rfl
@[simp] theorem writePack_readData (s : State) : (writePack s).readData = s.readData := rfl
@[simp] theorem writePack_draws (s : State) : (writePack s).draws = s.draws := rfl

/-! ### `writeStats` -/

@[simp] theorem writeStats_cfg (s : State) : (writeStats s).cfg = s.cfg := rfl
@[simp] theorem writeStats_busy (s : State) : (writeStats s).busy = s.busy := rfl
@[simp] theorem writeStats_done (s : State) : (writeStats s).done = s.done := rfl
@[simp] theorem writeStats_err (s : State) : (writeStats s).err = s.err := rfl
@[simp] theorem writeStats_verified (s : State) : (writeStats s).verified = s.verified := rfl
@[simp] theorem writeStats_verifiedPk (s : State) : (writeStats s).verifiedPk = s.verifiedPk := rfl
@[simp] theorem writeStats_mismatch (s : State) : (writeStats s).mismatch = s.mismatch := rfl
@[simp] theorem writeStats_empty (s : State) : (writeStats s).empty = s.empty := rfl
@[simp] theorem writeStats_decPartial (s : State) : (writeStats s).decPartial = s.decPartial := rfl
@[simp] theorem writeStats_phase (s : State) : (writeStats s).phase = s.phase := rfl
@[simp] theorem writeStats_stepOrd (s : State) : (writeStats s).stepOrd = s.stepOrd := rfl
@[simp] theorem writeStats_errCode (s : State) : (writeStats s).errCode = s.errCode := rfl
@[simp] theorem writeStats_errInfo0 (s : State) : (writeStats s).errInfo0 = s.errInfo0 := rfl
@[simp] theorem writeStats_errInfo1 (s : State) : (writeStats s).errInfo1 = s.errInfo1 := rfl
@[simp] theorem writeStats_aSym (s : State) : (writeStats s).aSym = s.aSym := rfl
@[simp] theorem writeStats_aEnd (s : State) : (writeStats s).aEnd = s.aEnd := rfl
@[simp] theorem writeStats_bSym (s : State) : (writeStats s).bSym = s.bSym := rfl
@[simp] theorem writeStats_bEnd (s : State) : (writeStats s).bEnd = s.bEnd := rfl
@[simp] theorem writeStats_lcs (s : State) : (writeStats s).lcs = s.lcs := rfl
@[simp] theorem writeStats_text (s : State) : (writeStats s).text = s.text := rfl
@[simp] theorem writeStats_freq (s : State) : (writeStats s).freq = s.freq := rfl
@[simp] theorem writeStats_node (s : State) : (writeStats s).node = s.node := rfl
@[simp] theorem writeStats_code (s : State) : (writeStats s).code = s.code := rfl
@[simp] theorem writeStats_bits (s : State) : (writeStats s).bits = s.bits := rfl
@[simp] theorem writeStats_bytes (s : State) : (writeStats s).bytes = s.bytes := rfl
@[simp] theorem writeStats_dtext (s : State) : (writeStats s).dtext = s.dtext := rfl
@[simp] theorem writeStats_pkBits (s : State) : (writeStats s).pkBits = s.pkBits := rfl
@[simp] theorem writeStats_aBytes (s : State) : (writeStats s).aBytes = word (utf8size s.aSym) := rfl
@[simp] theorem writeStats_bBytes (s : State) : (writeStats s).bBytes = word (utf8size s.bSym) := rfl
@[simp] theorem writeStats_textBytes (s : State) : (writeStats s).textBytes = word (utf8size s.text) := rfl
@[simp] theorem writeStats_ratioQ (s : State) : (writeStats s).ratioQ = word (ratio s.bytes.length (utf8size s.text)).1 := rfl
@[simp] theorem writeStats_ratioR (s : State) : (writeStats s).ratioR = word (ratio s.bytes.length (utf8size s.text)).2 := rfl
@[simp] theorem writeStats_nodeW0 (s : State) : (writeStats s).nodeW0 = s.nodeW0 := rfl
@[simp] theorem writeStats_nodeW1 (s : State) : (writeStats s).nodeW1 = s.nodeW1 := rfl
@[simp] theorem writeStats_rdBuf (s : State) : (writeStats s).rdBuf = s.rdBuf := rfl
@[simp] theorem writeStats_rdIdx (s : State) : (writeStats s).rdIdx = s.rdIdx := rfl
@[simp] theorem writeStats_rdSub (s : State) : (writeStats s).rdSub = s.rdSub := rfl
@[simp] theorem writeStats_script (s : State) : (writeStats s).script = s.script := rfl
@[simp] theorem writeStats_readData (s : State) : (writeStats s).readData = s.readData := rfl
@[simp] theorem writeStats_draws (s : State) : (writeStats s).draws = s.draws := rfl

/-! ### `clearRunOutputs` -/

@[simp] theorem clearRunOutputs_cfg (s : State) : (clearRunOutputs s).cfg = s.cfg := rfl
@[simp] theorem clearRunOutputs_busy (s : State) : (clearRunOutputs s).busy = s.busy := rfl
@[simp] theorem clearRunOutputs_done (s : State) : (clearRunOutputs s).done = s.done := rfl
@[simp] theorem clearRunOutputs_err (s : State) : (clearRunOutputs s).err = s.err := rfl
@[simp] theorem clearRunOutputs_verified (s : State) : (clearRunOutputs s).verified = false := rfl
@[simp] theorem clearRunOutputs_verifiedPk (s : State) : (clearRunOutputs s).verifiedPk = false := rfl
@[simp] theorem clearRunOutputs_mismatch (s : State) : (clearRunOutputs s).mismatch = false := rfl
@[simp] theorem clearRunOutputs_empty (s : State) : (clearRunOutputs s).empty = false := rfl
@[simp] theorem clearRunOutputs_decPartial (s : State) : (clearRunOutputs s).decPartial = false := rfl
@[simp] theorem clearRunOutputs_phase (s : State) : (clearRunOutputs s).phase = s.phase := rfl
@[simp] theorem clearRunOutputs_stepOrd (s : State) : (clearRunOutputs s).stepOrd = s.stepOrd := rfl
@[simp] theorem clearRunOutputs_errCode (s : State) : (clearRunOutputs s).errCode = s.errCode := rfl
@[simp] theorem clearRunOutputs_errInfo0 (s : State) : (clearRunOutputs s).errInfo0 = s.errInfo0 := rfl
@[simp] theorem clearRunOutputs_errInfo1 (s : State) : (clearRunOutputs s).errInfo1 = s.errInfo1 := rfl
@[simp] theorem clearRunOutputs_aSym (s : State) : (clearRunOutputs s).aSym = s.aSym := rfl
@[simp] theorem clearRunOutputs_aEnd (s : State) : (clearRunOutputs s).aEnd = s.aEnd := rfl
@[simp] theorem clearRunOutputs_bSym (s : State) : (clearRunOutputs s).bSym = s.bSym := rfl
@[simp] theorem clearRunOutputs_bEnd (s : State) : (clearRunOutputs s).bEnd = s.bEnd := rfl
@[simp] theorem clearRunOutputs_lcs (s : State) : (clearRunOutputs s).lcs = [] := rfl
@[simp] theorem clearRunOutputs_text (s : State) : (clearRunOutputs s).text = [] := rfl
@[simp] theorem clearRunOutputs_freq (s : State) : (clearRunOutputs s).freq = [] := rfl
@[simp] theorem clearRunOutputs_node (s : State) : (clearRunOutputs s).node = [] := rfl
@[simp] theorem clearRunOutputs_code (s : State) : (clearRunOutputs s).code = [] := rfl
@[simp] theorem clearRunOutputs_bits (s : State) : (clearRunOutputs s).bits = [] := rfl
@[simp] theorem clearRunOutputs_bytes (s : State) : (clearRunOutputs s).bytes = [] := rfl
@[simp] theorem clearRunOutputs_dtext (s : State) : (clearRunOutputs s).dtext = [] := rfl
@[simp] theorem clearRunOutputs_pkBits (s : State) : (clearRunOutputs s).pkBits = 0 := rfl
@[simp] theorem clearRunOutputs_aBytes (s : State) : (clearRunOutputs s).aBytes = 0 := rfl
@[simp] theorem clearRunOutputs_bBytes (s : State) : (clearRunOutputs s).bBytes = 0 := rfl
@[simp] theorem clearRunOutputs_textBytes (s : State) : (clearRunOutputs s).textBytes = 0 := rfl
@[simp] theorem clearRunOutputs_ratioQ (s : State) : (clearRunOutputs s).ratioQ = 0 := rfl
@[simp] theorem clearRunOutputs_ratioR (s : State) : (clearRunOutputs s).ratioR = 0 := rfl
@[simp] theorem clearRunOutputs_nodeW0 (s : State) : (clearRunOutputs s).nodeW0 = s.nodeW0 := rfl
@[simp] theorem clearRunOutputs_nodeW1 (s : State) : (clearRunOutputs s).nodeW1 = s.nodeW1 := rfl
@[simp] theorem clearRunOutputs_rdBuf (s : State) : (clearRunOutputs s).rdBuf = s.rdBuf := rfl
@[simp] theorem clearRunOutputs_rdIdx (s : State) : (clearRunOutputs s).rdIdx = s.rdIdx := rfl
@[simp] theorem clearRunOutputs_rdSub (s : State) : (clearRunOutputs s).rdSub = s.rdSub := rfl
@[simp] theorem clearRunOutputs_script (s : State) : (clearRunOutputs s).script = s.script := rfl
@[simp] theorem clearRunOutputs_readData (s : State) : (clearRunOutputs s).readData = s.readData := rfl
@[simp] theorem clearRunOutputs_draws (s : State) : (clearRunOutputs s).draws = s.draws := rfl

/-! ### `hostReset` -/

@[simp] theorem hostReset_cfg (s : State) : (hostReset s).cfg = s.cfg := rfl
@[simp] theorem hostReset_busy (s : State) : (hostReset s).busy = (State.resetOf s.cfg).busy := rfl
@[simp] theorem hostReset_done (s : State) : (hostReset s).done = (State.resetOf s.cfg).done := rfl
@[simp] theorem hostReset_err (s : State) : (hostReset s).err = (State.resetOf s.cfg).err := rfl
@[simp] theorem hostReset_verified (s : State) : (hostReset s).verified = (State.resetOf s.cfg).verified := rfl
@[simp] theorem hostReset_verifiedPk (s : State) : (hostReset s).verifiedPk = (State.resetOf s.cfg).verifiedPk := rfl
@[simp] theorem hostReset_mismatch (s : State) : (hostReset s).mismatch = (State.resetOf s.cfg).mismatch := rfl
@[simp] theorem hostReset_empty (s : State) : (hostReset s).empty = (State.resetOf s.cfg).empty := rfl
@[simp] theorem hostReset_decPartial (s : State) : (hostReset s).decPartial = (State.resetOf s.cfg).decPartial := rfl
@[simp] theorem hostReset_phase (s : State) : (hostReset s).phase = (State.resetOf s.cfg).phase := rfl
@[simp] theorem hostReset_stepOrd (s : State) : (hostReset s).stepOrd = (State.resetOf s.cfg).stepOrd := rfl
@[simp] theorem hostReset_errCode (s : State) : (hostReset s).errCode = (State.resetOf s.cfg).errCode := rfl
@[simp] theorem hostReset_errInfo0 (s : State) : (hostReset s).errInfo0 = (State.resetOf s.cfg).errInfo0 := rfl
@[simp] theorem hostReset_errInfo1 (s : State) : (hostReset s).errInfo1 = (State.resetOf s.cfg).errInfo1 := rfl
@[simp] theorem hostReset_aSym (s : State) : (hostReset s).aSym = (State.resetOf s.cfg).aSym := rfl
@[simp] theorem hostReset_aEnd (s : State) : (hostReset s).aEnd = (State.resetOf s.cfg).aEnd := rfl
@[simp] theorem hostReset_bSym (s : State) : (hostReset s).bSym = (State.resetOf s.cfg).bSym := rfl
@[simp] theorem hostReset_bEnd (s : State) : (hostReset s).bEnd = (State.resetOf s.cfg).bEnd := rfl
@[simp] theorem hostReset_lcs (s : State) : (hostReset s).lcs = (State.resetOf s.cfg).lcs := rfl
@[simp] theorem hostReset_text (s : State) : (hostReset s).text = (State.resetOf s.cfg).text := rfl
@[simp] theorem hostReset_freq (s : State) : (hostReset s).freq = (State.resetOf s.cfg).freq := rfl
@[simp] theorem hostReset_node (s : State) : (hostReset s).node = (State.resetOf s.cfg).node := rfl
@[simp] theorem hostReset_code (s : State) : (hostReset s).code = (State.resetOf s.cfg).code := rfl
@[simp] theorem hostReset_bits (s : State) : (hostReset s).bits = (State.resetOf s.cfg).bits := rfl
@[simp] theorem hostReset_bytes (s : State) : (hostReset s).bytes = (State.resetOf s.cfg).bytes := rfl
@[simp] theorem hostReset_dtext (s : State) : (hostReset s).dtext = (State.resetOf s.cfg).dtext := rfl
@[simp] theorem hostReset_pkBits (s : State) : (hostReset s).pkBits = (State.resetOf s.cfg).pkBits := rfl
@[simp] theorem hostReset_aBytes (s : State) : (hostReset s).aBytes = (State.resetOf s.cfg).aBytes := rfl
@[simp] theorem hostReset_bBytes (s : State) : (hostReset s).bBytes = (State.resetOf s.cfg).bBytes := rfl
@[simp] theorem hostReset_textBytes (s : State) : (hostReset s).textBytes = (State.resetOf s.cfg).textBytes := rfl
@[simp] theorem hostReset_ratioQ (s : State) : (hostReset s).ratioQ = (State.resetOf s.cfg).ratioQ := rfl
@[simp] theorem hostReset_ratioR (s : State) : (hostReset s).ratioR = (State.resetOf s.cfg).ratioR := rfl
@[simp] theorem hostReset_nodeW0 (s : State) : (hostReset s).nodeW0 = (State.resetOf s.cfg).nodeW0 := rfl
@[simp] theorem hostReset_nodeW1 (s : State) : (hostReset s).nodeW1 = (State.resetOf s.cfg).nodeW1 := rfl
@[simp] theorem hostReset_rdBuf (s : State) : (hostReset s).rdBuf = (State.resetOf s.cfg).rdBuf := rfl
@[simp] theorem hostReset_rdIdx (s : State) : (hostReset s).rdIdx = (State.resetOf s.cfg).rdIdx := rfl
@[simp] theorem hostReset_rdSub (s : State) : (hostReset s).rdSub = (State.resetOf s.cfg).rdSub := rfl
@[simp] theorem hostReset_script (s : State) : (hostReset s).script = s.script := rfl
@[simp] theorem hostReset_readData (s : State) : (hostReset s).readData = s.readData := rfl
@[simp] theorem hostReset_draws (s : State) : (hostReset s).draws = s.draws := rfl

end Sys2Proof.Machine
end

