-- ==== Sys2Proof/Laws/Ops.lean ====
section
/-! SUPPORT. What each shared operation of Machine/Ops.lean can do, said once. -/

namespace Sys2Proof.Machine

@[simp] theorem word_toNat (n : Nat) : (word n).toNat = n % 2 ^ 32 := by simp [word]

theorem word_toNat_of_lt {n : Nat} (h : n < 2 ^ 32) : (word n).toNat = n := by
  rw [word_toNat, Nat.mod_eq_of_lt h]

@[simp] theorem ceil8_zero : ceil8 0 = 0 := rfl

theorem ceil8_bounds (n : Nat) : n ≤ 8 * ceil8 n ∧ 8 * ceil8 n < n + 8 := by unfold ceil8; omega

@[simp] theorem finish_ok (s : State) : finish (.ok s) = endNormal s := rfl

@[simp] theorem finish_error (s : State) : finish (.error s) = endRaised s := rfl

theorem raise_eq (e : ErrCode) (i0 i1 : Word) (s : State) :
    raise e i0 i1 s = .error (errorEntry e i0 i1 s.phase s.stepOrd s) := rfl

/-- A command always answers a next state: the same state while ERR = 1, else the end of its body. -/
theorem command_eq (op : BitVec 4) (body : State → Ended) (s : State) :
    command op body s = .next (if s.err then s else finish (body (accept op s))) := by
  unfold command; split <;> rfl

theorem command_next {op : BitVec 4} {body : State → Ended} {s t : State} (h : command op body s = .next t) :
    (s.err = true ∧ t = s) ∨ (s.err = false ∧ t = finish (body (accept op s))) := by
  rw [command_eq] at h
  cases hs : s.err <;> simp_all

@[simp] theorem command_of_err {op : BitVec 4} {body : State → Ended} {s : State} (h : s.err = true) :
    command op body s = .next s := by simp [command, h]

theorem command_of_no_err {op : BitVec 4} {body : State → Ended} {s : State} (h : s.err = false) :
    command op body s = .next (finish (body (accept op s))) := by simp [command, h]

theorem finish_cases (r : Ended) :
    (∃ u, r = .ok u ∧ finish r = endNormal u) ∨ (∃ u, r = .error u ∧ finish r = endRaised u) := by
  cases r with
  | ok u => exact .inl ⟨u, rfl, rfl⟩
  | error u => exact .inr ⟨u, rfl, rfl⟩

theorem illegalCommand_cases (w : Word) (s : State) :
    (s.err = true ∧ illegalCommand w s = s) ∨
      (s.err = false ∧ illegalCommand w s = endRaised (errorEntry .illegalCmd w 0 0 0 (accept 0 s))) := by
  unfold illegalCommand; cases s.err <;> simp

/-- An append answers the longer sequence exactly when the buffer was not full. -/
theorem appendTo_some {α : Type} {cap : Nat} {buf buf' : List α} {v : α} (h : appendTo cap buf v = some buf') :
    buf.length ≠ cap ∧ buf' = buf ++ [v] := by
  unfold appendTo at h; split at h <;> simp_all

theorem appendTo_none {α : Type} {cap : Nat} {buf : List α} {v : α} :
    appendTo cap buf v = none ↔ buf.length = cap := by
  unfold appendTo; split <;> simp_all

theorem appendTo_of_ne {α : Type} {cap : Nat} {buf : List α} {v : α} (h : buf.length ≠ cap) :
    appendTo cap buf v = some (buf ++ [v]) := by simp [appendTo, h]

theorem appendTo_of_lt {α : Type} {cap : Nat} {buf : List α} {v : α} (h : buf.length < cap) :
    appendTo cap buf v = some (buf ++ [v]) := appendTo_of_ne (by omega)

/-- An append keeps the length within the capacity. -/
theorem appendTo_length_le {α : Type} {cap : Nat} {buf buf' : List α} {v : α} (h : appendTo cap buf v = some buf')
    (hb : buf.length ≤ cap) : buf'.length ≤ cap := by
  obtain ⟨hne, rfl⟩ := appendTo_some h
  simp; omega

end Sys2Proof.Machine

namespace Sys2Proof

open Machine

theorem completed_eq_endNormal (s : State) : completed s = endNormal s := rfl

theorem commandError_eq (e : ErrCode) (i0 i1 : Word) (ph st : BitVec 4) (s : State) :
    commandError e i0 i1 ph st s = endRaised (errorEntry e i0 i1 ph st s) := rfl

theorem portRecord_eq (e : ErrCode) (a : Nat) (d : Word) (s : State) : portRecord e a d s = portError e a d s := rfl

end Sys2Proof
end

