-- ==== Sys2Proof/Laws/Exec.lean ====
section
/-! SUPPORT. The arms of `exec`, and what a step does with each host operation, said once. -/

namespace Sys2Proof.Machine

/-! ### The arms of `exec` -/

theorem exec_diff (s : State) : exec .diff s = command 0x1 diffBody s := rfl
theorem exec_btree (s : State) : exec .btree s = command 0x2 btreeBody s := rfl
theorem exec_bcodes (s : State) : exec .bcodes s = command 0x3 bcodesBody s := rfl
theorem exec_encode (s : State) : exec .encode s = command 0x4 encodeBody s := rfl
theorem exec_decode (s : State) : exec .decode s = command 0x5 decodeBody s := rfl
theorem exec_pack (s : State) : exec .pack s = command 0x6 packBody s := rfl
theorem exec_unpack (s : State) : exec .unpack s = command 0x7 unpackBody s := rfl
theorem exec_unpackT (s : State) : exec .unpackT s = command 0x7 unpackTBody s := rfl
theorem exec_cmp (s : State) : exec .cmp s = command 0x8 cmpBody s := rfl
theorem exec_cmpP (s : State) : exec .cmpP s = command 0x8 cmpPBody s := rfl
theorem exec_stat (s : State) : exec .stat s = command 0x9 statBody s := rfl
theorem exec_run (s : State) : exec .run s = command 0xA runBody s := rfl
theorem exec_clr (s : State) : exec .clr s = .next (endNormal (clearErrors (accept 0xF s))) := rfl

/-- The start of a command, as the record update it is. -/
theorem accept_eq (op : BitVec 4) (s : State) :
    accept op s = { s with busy := true, done := false, phase := op, stepOrd := 0 } := rfl

/-! ### The step -/

theorem step_nil {s : State} (h : s.script = []) : step s = .next s := by simp [step, h]

theorem step_cons {s : State} {op : HostOp} {rest : List HostOp} (h : s.script = op :: rest) :
    step s = hostStep op { s with script := rest } := by simp [step, h]

/-- A step does nothing, is stopped by the port, takes a command, a write, a read, or resets. -/
theorem step_next {s t : State} (h : step s = .next t) :
    (s.script = [] ∧ t = s) ∨
    ∃ op rest, s.script = op :: rest ∧ stopOf op { s with script := rest } = none ∧
      ((∃ w, op = .write 0 w ∧ issue w { s with script := rest } = .next t) ∨
       (∃ a d, op = .write a d ∧ a ≠ 0 ∧ t = portWrite a d { s with script := rest }) ∨
       (∃ a, op = .read a ∧ t = portRead a { s with script := rest }) ∨
       (op = .reset ∧ t = hostReset { s with script := rest })) := by
  cases hs : s.script with
  | nil => rw [step_nil hs] at h; cases h; exact .inl ⟨rfl, rfl⟩
  | cons op rest =>
    rw [step_cons hs] at h
    refine .inr ⟨op, rest, rfl, ?_⟩
    unfold hostStep at h
    cases hst : stopOf op { s with script := rest } with
    | some stop =>
      rw [hst] at h
      have : stop = .next t := h
      subst this
      cases op <;> simp only [stopOf, stopAt] at hst <;> (repeat' split at hst) <;> simp_all
    | none =>
      rw [hst] at h
      refine ⟨rfl, ?_⟩
      cases op with
      | write a d =>
        by_cases ha : a = 0
        · subst ha; exact .inl ⟨d, rfl, by simpa using h⟩
        · refine .inr (.inl ⟨a, d, rfl, ha, ?_⟩)
          simp only [if_neg ha] at h; cases h; rfl
      | read a => refine .inr (.inr (.inl ⟨a, rfl, ?_⟩)); cases h; rfl
      | reset => refine .inr (.inr (.inr ⟨rfl, ?_⟩)); cases h; rfl

/-- A CMD write ends in the meaning of its command, or in the record of an illegal word. -/
theorem issue_cases (w : Word) (s : State) :
    (∃ i, decode w = .ok i ∧ issue w s = exec i s) ∨
      ((∀ i, decode w ≠ .ok i) ∧ issue w s = .next (illegalCommand w s)) := by
  unfold issue
  cases h : decode w with
  | ok i => exact .inl ⟨i, rfl, rfl⟩
  | error r => exact .inr ⟨by simp, rfl⟩

/-- An accepted write at an address of the block that is not reserved. -/
theorem step_write {s : State} {a : Nat} {d : Word} {rest : List HostOp} (hb : s.busy = false)
    (hs : s.script = .write a d :: rest) (ha : a < 0x80) (hr : reservedAddr a = false) :
    step s = if a = 0 then issue d { s with script := rest } else .next (portWrite a d { s with script := rest }) := by
  rw [step_cons hs]
  have : ¬ 0x80 ≤ a := by omega
  simp [hostStep, stopOf, stopAt, hb, hr, this]

/-- A read at an address of the block that is not reserved. -/
theorem step_read {s : State} {a : Nat} {rest : List HostOp} (hb : s.busy = false) (hs : s.script = .read a :: rest)
    (ha : a < 0x80) (hr : reservedAddr a = false) : step s = .next (portRead a { s with script := rest }) := by
  rw [step_cons hs]
  have : ¬ 0x80 ≤ a := by omega
  simp [hostStep, stopOf, stopAt, hb, hr, this]

theorem portWrite_of_no_err {s : State} (h : s.err = false) (a : Nat) (d : Word) :
    portWrite a d s = writeCsr a d s := by simp [portWrite, h]

theorem portWrite_ignored {s : State} {a : Nat} (h : s.err = true) (ha : isWindowSelect a = false) (d : Word) :
    portWrite a d s = s := by simp [portWrite, h, ha]

end Sys2Proof.Machine
end

