-- ==== Sys2Proof/Laws/Codec.lean ====
section
/-! SUPPORT. The shared operations of the tree builder, the encoder, the decoder and the packer, one lemma each that says
what it can do. -/

namespace Sys2Proof.Machine

/-! ### Counting -/

/-- A symbol counts up in its entry, or has none (R132). -/
theorem bump_none {x : Symbol} {f : List FreqEntry} : bump x f = none ↔ ∀ e ∈ f, e.sym ≠ x := by
  induction f with
  | nil => simp [bump]
  | cons e es ih =>
    unfold bump
    split
    · simp_all
    · simp_all

/-- The entry that counts up keeps its place, and the others are unchanged. -/
theorem bump_some {x : Symbol} {f f' : List FreqEntry} (h : bump x f = some f') :
    ∃ u e v, f = u ++ e :: v ∧ (∀ e' ∈ u, e'.sym ≠ x) ∧ e.sym = x ∧ f' = u ++ ⟨e.sym, e.cnt + 1⟩ :: v := by
  induction f generalizing f' with
  | nil => simp [bump] at h
  | cons e es ih =>
    unfold bump at h
    split at h
    · rename_i hx; cases h; exact ⟨[], e, es, rfl, by simp, hx, rfl⟩
    · rename_i hx
      cases hb : bump x es with
      | none => simp [hb] at h
      | some g =>
        simp [hb] at h
        obtain ⟨u, e', v, rfl, hu, he', rfl⟩ := ih hb
        exact ⟨e :: u, e', v, rfl, by simp; exact ⟨hx, hu⟩, he', h.symm⟩

/-! ### The queue -/

/-- The least of a queue is in it. -/
theorem leastOf_mem (before : Nat → Nat → Bool) (q : Nat) (qs : List Nat) : leastOf before q qs ∈ q :: qs := by
  unfold leastOf
  induction qs generalizing q with
  | nil => simp
  | cons r rs ih =>
    simp only [List.foldl_cons]
    have h := ih (if before r q then r else q)
    simp only [List.mem_cons] at h ⊢
    rcases h with h | h
    · split at h
      · exact .inr (.inl (by rw [← h]; simp_all))
      · exact .inl (by rw [← h]; simp_all)
    · exact .inr (.inr h)

/-- The order of R134 says which of two records comes first. -/
theorem byFreqThenIndex_iff (nodes : List NodeRec) (x y : Nat) :
    byFreqThenIndex nodes x y = true ↔ Before nodes x y := by
  simp [byFreqThenIndex, Before]

/-- The order of R134 is a strict total order: of two different indices one comes first. -/
theorem before_total (nodes : List NodeRec) {x y : Nat} (h : x ≠ y) : Before nodes x y ∨ Before nodes y x := by
  unfold Before; omega

theorem before_trans {nodes : List NodeRec} {x y z : Nat} (h : Before nodes x y) (h' : Before nodes y z) :
    Before nodes x z := by
  unfold Before at *; omega

theorem not_before_self (nodes : List NodeRec) (x : Nat) : ¬Before nodes x x := by
  unfold Before; omega

/-- The least of a queue comes before every other of it. -/
theorem leastOf_before (nodes : List NodeRec) (q : Nat) (qs : List Nat) :
    ∀ y ∈ q :: qs, y ≠ leastOf (byFreqThenIndex nodes) q qs →
      Before nodes (leastOf (byFreqThenIndex nodes) q qs) y := by
  induction qs generalizing q with
  | nil => simp [leastOf]
  | cons r rs ih =>
    intro y hy hne
    have hstep : leastOf (byFreqThenIndex nodes) q (r :: rs) =
        leastOf (byFreqThenIndex nodes) (if byFreqThenIndex nodes r q then r else q) rs := rfl
    rw [hstep] at hne ⊢
    by_cases hrq : byFreqThenIndex nodes r q = true
    · simp only [hrq, if_true] at hne ⊢
      have hb := (byFreqThenIndex_iff _ _ _).1 hrq
      simp only [List.mem_cons] at hy
      rcases hy with rfl | hy
      · by_cases hr : r = leastOf (byFreqThenIndex nodes) r rs
        · rw [← hr]; exact hb
        · exact before_trans (ih r r (by simp) hr) hb
      · exact ih r y (by simpa using hy) hne
    · simp only [hrq] at hne ⊢
      simp only [List.mem_cons] at hy
      rcases hy with rfl | rfl | hy
      · exact ih _ _ (by simp) hne
      · by_cases hqr : q = y
        · subst hqr; exact ih _ _ (by simp) hne
        · have hb : Before nodes q y := by
            rcases before_total nodes hqr with h | h
            · exact h
            · exact absurd ((byFreqThenIndex_iff _ _ _).2 h) hrq
          by_cases hr : q = leastOf (byFreqThenIndex nodes) q rs
          · simp only [Bool.false_eq_true, if_false] at hne ⊢
            rw [← hr]; exact hb
          · exact before_trans (ih q q (by simp) hr) hb
      · exact ih _ _ (by simp [hy]) hne

/-! ### Codes -/

/-- A symbol has a code exactly when an entry names it, and it is that of the first such entry (R160). -/
theorem lookupCode_none {code : List CodeEntry} {x : Symbol} : lookupCode code x = none ↔ ∀ e ∈ code, e.sym ≠ x := by
  induction code with
  | nil => simp [lookupCode]
  | cons e es ih => unfold lookupCode; split <;> simp_all

theorem lookupCode_some {code : List CodeEntry} {x : Symbol} {c : List Bool} (h : lookupCode code x = some c) :
    ∃ e ∈ code, e.sym = x ∧ e.bits = c := by
  induction code with
  | nil => simp [lookupCode] at h
  | cons e es ih =>
    unfold lookupCode at h
    split at h
    · cases h; exact ⟨e, by simp, by assumption, rfl⟩
    · obtain ⟨e', he', h'⟩ := ih h
      exact ⟨e', by simp [he'], h'⟩

theorem hasCode_iff {code : List CodeEntry} {x : Symbol} : hasCode x code = true ↔ ∃ e ∈ code, e.sym = x := by
  simp [hasCode]

/-- Bits are appended all or not at all: all when they fit (R160, R162). -/
theorem appendBits_eq {cap : Nat} {out : List Bool} (h : out.length ≤ cap) (bs : List Bool) :
    appendBits cap out bs = if out.length + bs.length ≤ cap then some (out ++ bs) else none := by
  induction bs generalizing out with
  | nil => simp [appendBits, h]
  | cons b bs ih =>
    unfold appendBits
    by_cases hl : out.length = cap
    · have : appendTo cap out b = none := appendTo_none.2 hl
      rw [this]; simp; omega
    · rw [appendTo_of_ne hl]
      simp only
      rw [ih (by simp; omega)]
      simp [Nat.add_assoc, Nat.add_comm 1]

/-! ### Paths -/

/-- The way along two bit strings is the way along the first, then along the second. -/
theorem follow_append (nodes : List NodeRec) (p : Nat) (u v : List Bool) :
    follow nodes p (u ++ v) = (follow nodes p u).bind fun q => follow nodes q v := by
  induction u generalizing p with
  | nil => rfl
  | cons b bs ih =>
    simp only [List.cons_append, follow]
    split
    · exact ih _
    · rfl

/-- One edge of a way leaves an internal record. -/
theorem follow_cons {nodes : List NodeRec} {p q : Nat} {b : Bool} {bs : List Bool}
    (h : follow nodes p (b :: bs) = some q) :
    ∃ f l r : Nat, nodes[p]? = some (.internal f l r) ∧ follow nodes (childOn nodes p b) bs = some q := by
  unfold follow at h
  split at h
  · rename_i f l r hp
    exact ⟨f, l, r, hp, by simpa [childOn, hp] using h⟩
  · cases h

theorem childOn_internal {nodes : List NodeRec} {p f l r : Nat} (h : nodes[p]? = some (.internal f l r)) (b : Bool) :
    childOn nodes p b = if b then r else l := by simp [childOn, h]

/-- One bit under a single-leaf tree (R174). -/
theorem decodeLeaf_false {x : Symbol} {cap : Nat} {out : List Symbol} (h : out.length ≠ cap) (rest : List Bool) (k : Nat) :
    decodeLeaf x cap (false :: rest) k out = decodeLeaf x cap rest (k + 1) (out ++ [x]) := by
  simp [decodeLeaf, appendTo_of_ne h]

theorem decodeLeaf_true (x : Symbol) (cap : Nat) (out : List Symbol) (rest : List Bool) (k : Nat) :
    decodeLeaf x cap (true :: rest) k out = .error (.invalidCode, word k, 1) := by simp [decodeLeaf]

/-! ### Bytes -/

theorem packBits_length (bits : List Bool) : (packBits bits).length = ceil8 bits.length := by simp [packBits]

theorem byteBits_length (b : Byte) : (byteBits b).length = 8 := by simp [byteBits]

theorem byteBits_getElem? (b : Byte) {u : Nat} (h : u < 8) : (byteBits b)[u]? = some (b.getLsbD (7 - u)) := by
  simp [byteBits, h]

theorem unpackBytes_length (bytes : List Byte) : (unpackBytes bytes).length = 8 * bytes.length := by
  induction bytes with
  | nil => rfl
  | cons b bs ih =>
    have : unpackBytes (b :: bs) = byteBits b ++ unpackBytes bs := rfl
    rw [this, List.length_append, ih, byteBits_length, List.length_cons]; omega

end Sys2Proof.Machine
end

