-- ==== Sys2Proof/Laws/Bodies.lean ====
section
/-! SUPPORT. How the rule of each command can end: with its results written, or with its outputs invalidated and the error
recorded (R97, R240, R241). -/

namespace Sys2Proof.Machine

theorem diffBody_cases (s : State) :
    (openLine s.aSym s.aEnd = true ∧
      diffBody s = .error (errorEntry .operand 0 (word s.aSym.length) s.phase s.stepOrd (invalidateDiff s))) ∨
    (openLine s.aSym s.aEnd = false ∧ openLine s.bSym s.bEnd = true ∧
      diffBody s = .error (errorEntry .operand 1 (word s.bSym.length) s.phase s.stepOrd (invalidateDiff s))) ∨
    (openLine s.aSym s.aEnd = false ∧ openLine s.bSym s.bEnd = false ∧ diffBody s = .ok (writeDiff s)) := by
  unfold diffBody
  cases h1 : openLine s.aSym s.aEnd <;> cases h2 : openLine s.bSym s.bEnd <;> simp [raise]

theorem btreeBody_cases (s : State) :
    (s.text = [] ∧ btreeBody s = .error (errorEntry .emptyInput 0 0 s.phase s.stepOrd (invalidateTree s))) ∨
    (∃ k x, s.text ≠ [] ∧ countFreq s.cfg.maxSyms s.text 0 [] = .error (k, x) ∧
      btreeBody s =
        .error (errorEntry .capacity (word k) (x.setWidth 32) s.phase s.stepOrd (invalidateTree s))) ∨
    (∃ f, s.text ≠ [] ∧ countFreq s.cfg.maxSyms s.text 0 [] = .ok f ∧ btreeBody s = .ok (writeTree f s)) := by
  unfold btreeBody
  by_cases h : s.text = []
  · simp [h, raise]
  · cases hc : countFreq s.cfg.maxSyms s.text 0 [] with
    | error e => exact .inr (.inl ⟨e.1, e.2, h, rfl, by simp [h, raise]⟩)
    | ok f => simp [h]

theorem bcodesBody_cases (s : State) :
    (∃ q, treeFault s.node = some q ∧
      bcodesBody s = .error
        (errorEntry .badTree (word q) (word s.node.length) s.phase s.stepOrd (invalidateCode s))) ∨
    (∃ p x, treeFault s.node = none ∧ codesOf s.node = .error (p, x) ∧
      bcodesBody s = .error
        (errorEntry .badTree (word p) (word (0x80000000 + x.toNat)) s.phase s.stepOrd (invalidateCode s))) ∨
    (∃ c, treeFault s.node = none ∧ codesOf s.node = .ok c ∧ bcodesBody s = .ok (writeCode c s)) := by
  unfold bcodesBody
  cases h : treeFault s.node with
  | some q => simp [raise]
  | none =>
    cases hc : codesOf s.node with
    | error e => exact .inr (.inl ⟨e.1, e.2, rfl, rfl, by simp [raise]⟩)
    | ok c => simp

theorem encodeBody_cases (s : State) :
    (∃ e k x, encodeFrom s.cfg.maxBits s.code s.text 0 [] = .error (e, k, x) ∧
      encodeBody s = .error (errorEntry e (word k) (x.setWidth 32) s.phase s.stepOrd (invalidateBits s))) ∨
    (∃ b, encodeFrom s.cfg.maxBits s.code s.text 0 [] = .ok b ∧ encodeBody s = .ok (writeBits b s)) := by
  unfold encodeBody
  cases h : encodeFrom s.cfg.maxBits s.code s.text 0 [] with
  | error e => exact .inl ⟨e.1, e.2.1, e.2.2, rfl, by simp [raise]⟩
  | ok b => simp

/-- ENCODE stops at a symbol without a code or at one whose code does not fit; no other error (R161, R162). -/
theorem encodeFrom_error {cap : Nat} {code : List CodeEntry} {t : List Symbol} {k : Nat} {out : List Bool} {e : ErrCode}
    {i : Nat} {x : Symbol} (h : encodeFrom cap code t k out = .error (e, i, x)) :
    (e = .unknownSymbol ∧ lookupCode code x = none) ∨ (e = .capacity ∧ ∃ c, lookupCode code x = some c) := by
  induction t generalizing k out with
  | nil => simp [encodeFrom] at h
  | cons y ys ih =>
    unfold encodeFrom at h
    cases hl : lookupCode code y with
    | none => simp [hl] at h; obtain ⟨rfl, -, rfl⟩ := h; exact .inl ⟨rfl, hl⟩
    | some c =>
      simp only [hl] at h
      cases ha : appendBits cap out c with
      | none => simp [ha] at h; obtain ⟨rfl, -, rfl⟩ := h; exact .inr ⟨rfl, c, hl⟩
      | some out' => simp only [ha] at h; exact ih h

theorem decodeBody_cases (s : State) :
    (s.bits = [] ∧ decodeBody s = .ok (writeDecode [] false s)) ∨
    (∃ q, s.bits ≠ [] ∧ treeFault s.node = some q ∧
      decodeBody s = .error
        (errorEntry .badTree (word q) (word s.node.length) s.phase s.stepOrd (invalidateDecode s))) ∨
    (∃ e i0 i1, s.bits ≠ [] ∧ treeFault s.node = none ∧ decodeBits s.node s.cfg.maxText s.bits = .error (e, i0, i1) ∧
      decodeBody s = .error (errorEntry e i0 i1 s.phase s.stepOrd (invalidateDecode s))) ∨
    (∃ t p, s.bits ≠ [] ∧ treeFault s.node = none ∧ decodeBits s.node s.cfg.maxText s.bits = .ok (t, p) ∧
      decodeBody s = .ok (writeDecode t p s)) := by
  unfold decodeBody
  by_cases h : s.bits = []
  · simp [h]
  · cases hf : treeFault s.node with
    | some q => simp [h, raise]
    | none =>
      cases hd : decodeBits s.node s.cfg.maxText s.bits with
      | error e => exact .inr (.inr (.inl ⟨e.1, e.2.1, e.2.2, h, rfl, rfl, by simp [h, raise]⟩))
      | ok r => exact .inr (.inr (.inr ⟨r.1, r.2, h, rfl, rfl, by simp [h]⟩))

theorem unpackTBody_cases (s : State) :
    (ceil8 s.pkBits.toNat ≠ s.bytes.length ∧
      unpackTBody s =
        .error (errorEntry .operand s.pkBits (word s.bytes.length) s.phase s.stepOrd (invalidateBits s))) ∨
    (ceil8 s.pkBits.toNat = s.bytes.length ∧
      unpackTBody s = .ok (writeBits ((unpackBytes s.bytes).take s.pkBits.toNat) s)) := by
  unfold unpackTBody
  by_cases h : ceil8 s.pkBits.toNat = s.bytes.length <;> simp [h, raise]

/-- RUN ends at the first step that raises, or after its last (R206, R208). -/
theorem runSteps_cons (st ph : BitVec 4) (body : State → Ended) (rest : List (BitVec 4 × BitVec 4 × (State → Ended)))
    (s : State) :
    (∃ e, runStep st ph body s = .error e ∧ runSteps ((st, ph, body) :: rest) s = .error e) ∨
      (∃ u, runStep st ph body s = .ok u ∧ runSteps ((st, ph, body) :: rest) s = runSteps rest u) := by
  rw [runSteps]
  cases h : runStep st ph body s with
  | error e => exact .inl ⟨e, rfl, rfl⟩
  | ok u => exact .inr ⟨u, rfl, rfl⟩

theorem runBody_cases (s : State) :
    (∃ e, runStep 1 0x1 diffBody (clearRunOutputs s) = .error e ∧ runBody s = .error e) ∨
    (∃ u e, runStep 1 0x1 diffBody (clearRunOutputs s) = .ok u ∧ codecOrBypass u = .error e ∧ runBody s = .error e) ∨
    (∃ u v, runStep 1 0x1 diffBody (clearRunOutputs s) = .ok u ∧ codecOrBypass u = .ok v ∧
      runBody s = runStep 11 0x9 statBody v) := by
  unfold runBody
  cases h : runStep 1 0x1 diffBody (clearRunOutputs s) with
  | error e => simp
  | ok u =>
    cases hc : codecOrBypass u with
    | error e => simp [hc]
    | ok v => simp [hc]

end Sys2Proof.Machine
end

