-- ==== Sys2Proof/Laws/Encoding.lean ====
section
/-! SUPPORT. Bit fields, and the fields of the words the encoder writes. -/

namespace Sys2Proof

theorem bitField_lt (w : Word) (hi lo : Nat) : bitField w hi lo < 2 ^ (hi + 1 - lo) :=
  Nat.mod_lt _ (by positivity)

/-- A field that reaches bit 31 is the word shifted down. -/
theorem bitField_top (w : Word) {lo : Nat} (h : lo ≤ 32) : bitField w 31 lo = w.toNat / 2 ^ lo := by
  unfold bitField
  rw [Nat.mod_eq_of_lt]
  rw [Nat.div_lt_iff_lt_mul (by positivity), ← pow_add]
  have : 31 + 1 - lo + lo = 32 := by omega
  rw [this]; exact w.isLt

theorem bitField_zero (w : Word) (hi : Nat) : bitField w hi 0 = w.toNat % 2 ^ (hi + 1) := by simp [bitField]

/-- The encoder's words are legal (R94). -/
theorem encode_legal (i : Instr) : (cmdFields (encode i)).legal = true := by cases i <;> decide

theorem encode_injective {i j : Instr} (h : encode i = encode j) : i = j := by
  cases i <;> cases j <;> first | rfl | (revert h; decide)

end Sys2Proof
end

