-- ==== Sys2Proof/Laws/Port.lean ====
section
/-! SUPPORT. What a push, a data word and a read of the port can be, said once each. -/

namespace Sys2Proof.Machine

/-! ### Data words -/

/-- A symbol operand, for a SYM_W of R9: the word itself, when it is below 2^SYM_W (R66). -/
theorem symbolOperand_eq {c : Config} (hc : c.symW ≤ 32) (d : Word) :
    symbolOperand c d = if d.toNat / 2 ^ c.symW = 0 then some (BitVec.ofNat 21 d.toNat) else none := by
  unfold symbolOperand
  rw [bitField_top d hc]
  congr 1

theorem bitOperand_eq (d : Word) : bitOperand d = if d.toNat / 2 = 0 then some (decide (d.toNat = 1)) else none := by
  unfold bitOperand
  rw [bitField_top d (by omega)]
  simp only [pow_one]
  split
  · rename_i h
    have : d.toNat = 0 ∨ d.toNat = 1 := by omega
    rcases this with h | h <;> simp [BitVec.getLsbD, h]
  · rfl

theorem byteOperand_eq (d : Word) :
    byteOperand d = if d.toNat / 2 ^ 8 = 0 then some (BitVec.ofNat 8 d.toNat) else none := by
  unfold byteOperand
  rw [bitField_top d (by omega)]
  congr 1

/-! ### Pushes -/

/-- A push records a bad operand, records a full buffer, or appends; one of the three (R65, R240). -/
theorem push_cases {α : Type} (addr : Nat) (d : Word) (operand : Option α) (cap : Nat) (buf : List α)
    (store : List α → State) (s : State) :
    (operand = none ∧ push addr d operand cap buf store s = portError .operand addr d s) ∨
    (∃ v, operand = some v ∧ buf.length = cap ∧ push addr d operand cap buf store s = portError .capacity addr d s) ∨
    (∃ v, operand = some v ∧ buf.length ≠ cap ∧ push addr d operand cap buf store s = store (buf ++ [v])) := by
  cases operand with
  | none => exact .inl ⟨rfl, rfl⟩
  | some v =>
    by_cases h : buf.length = cap
    · exact .inr (.inl ⟨v, rfl, h, by simp [push, appendTo, h]⟩)
    · exact .inr (.inr ⟨v, rfl, h, by simp [push, appendTo, h]⟩)

/-! ### Reads -/

/-- A read changes the model's own two fields only (R79). -/
theorem portRead_frame (a : Nat) (s : State) :
    ∃ v n, portRead a s = { s with readData := some v, draws := n } := by
  unfold portRead
  split
  · cases windowWords s with
    | some d => exact ⟨_, s.draws, rfl⟩
    | none => exact ⟨_, _, rfl⟩
  · exact ⟨_, s.draws, rfl⟩

/-- A read of a window word with a valid selection. -/
theorem portRead_window {a : Nat} {s : State} {d : Word × Word × Word} (h1 : 0x43 ≤ a) (h2 : a ≤ 0x45)
    (h : windowWords s = some d) : portRead a s = { s with readData := some (windowPart a d) } := by
  simp [portRead, h1, h2, h]

/-- A read of a window word with no valid selection (R75). -/
theorem portRead_invalid {a : Nat} {s : State} (h1 : 0x43 ≤ a) (h2 : a ≤ 0x45) (h : windowWords s = none) :
    portRead a s = { s with readData := some (Config.unspecifiedRead s.draws), draws := s.draws + 1 } := by
  simp [portRead, h1, h2, h]

theorem portRead_csr {a : Nat} {s : State} (h : ¬(0x43 ≤ a ∧ a ≤ 0x45)) :
    portRead a s = { s with readData := some (readCsr a s) } := by simp [portRead, h]

/-- The five reserved ranges (R62). -/
theorem reservedAddr_iff (a : Nat) :
    reservedAddr a = true ↔
      (0x0B ≤ a ∧ a ≤ 0x0F) ∨ (0x1D ≤ a ∧ a ≤ 0x1F) ∨ (0x25 ≤ a ∧ a ≤ 0x2F) ∨ (0x3B ≤ a ∧ a ≤ 0x3F) ∨
        (0x46 ≤ a ∧ a ≤ 0x7F) := by
  simp only [reservedAddr, Bool.or_eq_true, Bool.and_eq_true, decide_eq_true_eq, or_assoc]

/-- The window does not depend on what the host will do next. -/
@[simp] theorem windowWords_script (s : State) (rest : List HostOp) :
    windowWords { s with script := rest } = windowWords s := rfl

/-- A step that reads a window word, with ERR = 1 or 0: the word selected, or the next free value (R74, R75). -/
theorem step_read_window {s : State} {a : Nat} {rest : List HostOp} (hb : s.busy = false) (h1 : 0x43 ≤ a) (h2 : a ≤ 0x45)
    (hs : s.script = .read a :: rest) :
    (∃ d, windowWords s = some d ∧ step s = .next { s with script := rest, readData := some (windowPart a d) }) ∨
    (windowWords s = none ∧
      step s = .next
        { s with script := rest, readData := some (Config.unspecifiedRead s.draws), draws := s.draws + 1 }) := by
  have hr : reservedAddr a = false := by
    have := reservedAddr_iff a
    cases h : reservedAddr a
    · rfl
    · have := this.1 h; omega
  rw [step_read hb hs (by omega) hr]
  cases hw : windowWords s with
  | some d => exact .inl ⟨d, rfl, congrArg _ (portRead_window (s := { s with script := rest }) h1 h2 hw)⟩
  | none => exact .inr ⟨rfl, congrArg _ (portRead_invalid (s := { s with script := rest }) h1 h2 hw)⟩

/-- There is no buffer with an id above 11 (R74). -/
theorem bufferWords_none_of_id {id : Nat} (h : 11 < id) (k sub : Nat) (s : State) : bufferWords id k sub s = none := by
  unfold bufferWords
  split <;> first | omega | rfl

end Sys2Proof.Machine
end

