-- ==== Sys2Proof/Laws/Memory.lean ====
section
/-! SUPPORT. The canonical form of the buffers (`Memory.wf`): what it says, and that reset and every operation of the host
at the port keep it. -/

namespace Sys2Proof

open Machine

/-- What the form of one line sequence says (R26, R31). -/
theorem linesWf_iff (c : Config) (sym : List Symbol) (ends : List Nat) :
    linesWf c sym ends = true ↔
      sym.length ≤ c.maxInSyms ∧ ends.length ≤ c.maxLines ∧ ends.Pairwise (· ≤ ·) ∧ ∀ e ∈ ends, e ≤ sym.length := by
  simp [linesWf, and_assoc]

theorem linesWf_nil (c : Config) : linesWf c [] [] = true := by simp [linesWf]

/-- A pushed symbol keeps the form (R66). -/
theorem linesWf_push {c : Config} {sym : List Symbol} {ends : List Nat} (h : linesWf c sym ends = true)
    (hl : sym.length ≠ c.maxInSyms) (x : Symbol) : linesWf c (sym ++ [x]) ends = true := by
  rw [linesWf_iff] at *
  obtain ⟨h1, h2, h3, h4⟩ := h
  refine ⟨by simp; omega, h2, h3, fun e he => ?_⟩
  have := h4 e he
  simp; omega

/-- A closed line keeps the form (R67). -/
theorem linesWf_close {c : Config} {sym : List Symbol} {ends : List Nat} (h : linesWf c sym ends = true)
    (hl : ends.length ≠ c.maxLines) : linesWf c sym (ends ++ [sym.length]) = true := by
  rw [linesWf_iff] at *
  obtain ⟨h1, h2, h3, h4⟩ := h
  refine ⟨h1, by simp; omega, ?_, ?_⟩
  · rw [List.pairwise_append]
    exact ⟨h3, by simp, fun a ha b hb => by simp at hb; subst hb; exact h4 a ha⟩
  · intro e he
    simp at he
    rcases he with he | rfl
    · exact h4 e he
    · exact le_rfl

namespace Memory

/-- What the canonical form says of each buffer. -/
theorem wf_iff (s : State) :
    Memory.wf s = true ↔
      s.cfg.wf = true ∧ linesWf s.cfg s.aSym s.aEnd = true ∧ linesWf s.cfg s.bSym s.bEnd = true ∧
      (s.lcs.length ≤ s.cfg.maxLines ∧ s.lcs.Pairwise (· < ·)) ∧
      s.text.length ≤ s.cfg.maxText ∧ s.dtext.length ≤ s.cfg.maxText ∧
      (s.freq.length ≤ s.cfg.maxSyms ∧ (s.freq.map FreqEntry.sym).Nodup ∧ ∀ e ∈ s.freq, 1 ≤ e.cnt ∧ e.cnt < 2 ^ 32) ∧
      (s.node.length ≤ s.cfg.maxNodes ∧ ∀ n ∈ s.node, nodeFits n = true) ∧
      (s.code.length ≤ s.cfg.maxSyms ∧ (s.code.map CodeEntry.sym).Nodup ∧
        ∀ e ∈ s.code, 1 ≤ e.bits.length ∧ e.bits.length ≤ s.cfg.maxCodeLen) ∧
      s.bits.length ≤ s.cfg.maxBits ∧ s.bytes.length ≤ s.cfg.maxBytes := by
  simp only [Memory.wf, Bool.and_eq_true, decide_eq_true_eq, List.all_eq_true, and_assoc]

/-- Reset leaves the canonical form, for the parameters of any machine (R9, R261). -/
theorem wf_resetOf {c : Config} (h : c.wf = true) : Memory.wf (State.resetOf c) = true := by
  rw [wf_iff]
  simp [State.resetOf, h, linesWf_nil]

theorem wf_reset : Memory.wf State.reset = true := wf_resetOf (by decide)

/-- A record the port builds fits its fields (R69). -/
theorem nodeFits_nodeOperand {c : Config} {w0 w1 d : Word} {n : NodeRec} (h : nodeOperand c w0 w1 d = some n) :
    nodeFits n = true := by
  have hf := w1.isLt
  have hl := bitField_lt d 15 0
  have hr := bitField_lt d 31 16
  unfold nodeOperand at h
  simp only at h
  repeat' split at h
  all_goals cases h
  all_goals simp only [nodeFits, Bool.and_eq_true, decide_eq_true_eq]
  · exact ⟨⟨hf, hl⟩, hr⟩
  · exact hf

/-- The record of a port error keeps the form: it touches no buffer (R65). -/
theorem wf_portError (e : ErrCode) (a : Nat) (d : Word) (s : State) :
    Memory.wf (portError e a d s) = Memory.wf s := rfl

/-- BUF_CLR keeps the form (R72). -/
theorem wf_bufClr {s : State} (h : Memory.wf s = true) (m : Word) : Memory.wf (bufClr m s) = true := by
  unfold bufClr
  split
  · exact h
  · rw [wf_iff] at *
    obtain ⟨h1, h2, h3, h4, h5, h6, h7, h8, h9, h10, h11⟩ := h
    refine ⟨h1, ?_, ?_, h4, ?_, h6, h7, ?_, ?_, ?_, ?_⟩ <;> dsimp only
    · cases m.getLsbD 0 <;> simp [h2, linesWf_nil]
    · cases m.getLsbD 1 <;> simp [h3, linesWf_nil]
    · cases m.getLsbD 2 <;> simp [h5]
    · cases m.getLsbD 3 <;> simp [h8.1]; exact h8.2
    · cases m.getLsbD 3 <;> simp [h9.1]; exact h9.2
    · cases m.getLsbD 4 <;> simp [h10]
    · cases m.getLsbD 5 <;> simp [h11]

/-- Every write of the host but that of a command keeps the form (R64 to R73). -/
theorem wf_writeCsr {s : State} (h : Memory.wf s = true) (a : Nat) (d : Word) : Memory.wf (writeCsr a d s) = true := by
  have h0 := h
  rw [wf_iff] at h
  obtain ⟨h1, h2, h3, h4, h5, h6, h7, h8, h9, h10, h11⟩ := h
  unfold writeCsr
  split
  · exact h0
  · exact wf_bufClr h0 d
  · unfold pushA
    rcases push_cases 0x31 d (symbolOperand s.cfg d) s.cfg.maxInSyms s.aSym (fun b => { s with aSym := b }) s with
      ⟨_, h⟩ | ⟨_, _, _, h⟩ | ⟨v, _, hl, h⟩ <;> rw [h]
    · exact h0
    · exact h0
    · exact (wf_iff _).2 ⟨h1, linesWf_push h2 hl v, h3, h4, h5, h6, h7, h8, h9, h10, h11⟩
  · unfold closeA
    rcases push_cases 0x32 d (some s.aSym.length) s.cfg.maxLines s.aEnd (fun b => { s with aEnd := b }) s with
      ⟨_, h⟩ | ⟨_, _, _, h⟩ | ⟨v, hv, hl, h⟩ <;> rw [h]
    · exact h0
    · exact h0
    · cases hv; exact (wf_iff _).2 ⟨h1, linesWf_close h2 hl, h3, h4, h5, h6, h7, h8, h9, h10, h11⟩
  · unfold pushB
    rcases push_cases 0x33 d (symbolOperand s.cfg d) s.cfg.maxInSyms s.bSym (fun b => { s with bSym := b }) s with
      ⟨_, h⟩ | ⟨_, _, _, h⟩ | ⟨v, _, hl, h⟩ <;> rw [h]
    · exact h0
    · exact h0
    · exact (wf_iff _).2 ⟨h1, h2, linesWf_push h3 hl v, h4, h5, h6, h7, h8, h9, h10, h11⟩
  · unfold closeB
    rcases push_cases 0x34 d (some s.bSym.length) s.cfg.maxLines s.bEnd (fun b => { s with bEnd := b }) s with
      ⟨_, h⟩ | ⟨_, _, _, h⟩ | ⟨v, hv, hl, h⟩ <;> rw [h]
    · exact h0
    · exact h0
    · cases hv; exact (wf_iff _).2 ⟨h1, h2, linesWf_close h3 hl, h4, h5, h6, h7, h8, h9, h10, h11⟩
  · unfold pushText
    rcases push_cases 0x35 d (symbolOperand s.cfg d) s.cfg.maxText s.text (fun b => { s with text := b }) s with
      ⟨_, h⟩ | ⟨_, _, _, h⟩ | ⟨v, _, hl, h⟩ <;> rw [h]
    · exact h0
    · exact h0
    · exact (wf_iff _).2 ⟨h1, h2, h3, h4, by simp; omega, h6, h7, h8, h9, h10, h11⟩
  · exact h0
  · exact h0
  · unfold pushNode
    rcases push_cases 0x38 d (nodeOperand s.cfg s.nodeW0 s.nodeW1 d) s.cfg.maxNodes s.node
      (fun b => { s with node := b, code := [] }) s with ⟨_, h⟩ | ⟨_, _, _, h⟩ | ⟨v, hv, hl, h⟩ <;> rw [h]
    · exact h0
    · exact h0
    · have hfit := nodeFits_nodeOperand hv
      refine (wf_iff _).2 ⟨h1, h2, h3, h4, h5, h6, h7, ⟨by simp; omega, ?_⟩, by simp, h10, h11⟩
      intro n hn
      simp at hn
      rcases hn with hn | rfl
      · exact h8.2 n hn
      · exact hfit
  · unfold pushBit
    rcases push_cases 0x39 d (bitOperand d) s.cfg.maxBits s.bits (fun b => { s with bits := b }) s with
      ⟨_, h⟩ | ⟨_, _, _, h⟩ | ⟨v, _, hl, h⟩ <;> rw [h]
    · exact h0
    · exact h0
    · exact (wf_iff _).2 ⟨h1, h2, h3, h4, h5, h6, h7, h8, h9, by simp; omega, h11⟩
  · unfold pushByte
    rcases push_cases 0x3A d (byteOperand d) s.cfg.maxBytes s.bytes (fun b => { s with bytes := b }) s with
      ⟨_, h⟩ | ⟨_, _, _, h⟩ | ⟨v, _, hl, h⟩ <;> rw [h]
    · exact h0
    · exact h0
    · exact (wf_iff _).2 ⟨h1, h2, h3, h4, h5, h6, h7, h8, h9, h10, by simp; omega⟩
  · exact h0
  · exact h0
  · exact h0
  · exact h0

/-- The same while ERR = 1, when most writes are ignored (R63). -/
theorem wf_portWrite {s : State} (h : Memory.wf s = true) (a : Nat) (d : Word) : Memory.wf (portWrite a d s) = true := by
  unfold portWrite
  split
  · exact h
  · exact wf_writeCsr h a d

/-- A read keeps the form (R79). -/
theorem wf_portRead (a : Nat) (s : State) : Memory.wf (portRead a s) = Memory.wf s := by
  obtain ⟨v, n, h⟩ := portRead_frame a s
  rw [h]; rfl

/-- The reset input leaves the form (R260). -/
theorem wf_hostReset {s : State} (h : Memory.wf s = true) : Memory.wf (hostReset s) = true :=
  wf_resetOf (c := s.cfg) ((wf_iff s).1 h).1

/-- The error entry of a command, its start and its end touch no buffer. -/
theorem wf_errorEntry (e : ErrCode) (i0 i1 : Word) (ph st : BitVec 4) (s : State) :
    Memory.wf (errorEntry e i0 i1 ph st s) = Memory.wf s := rfl

theorem wf_accept (op : BitVec 4) (s : State) : Memory.wf (accept op s) = Memory.wf s := rfl

theorem wf_endNormal (s : State) : Memory.wf (endNormal s) = Memory.wf s := rfl

theorem wf_endRaised (s : State) : Memory.wf (endRaised s) = Memory.wf s := rfl

theorem wf_clearErrors (s : State) : Memory.wf (clearErrors s) = Memory.wf s := rfl

theorem wf_illegalCommand (w : Word) (s : State) : Memory.wf (illegalCommand w s) = Memory.wf s := by
  unfold illegalCommand; split <;> rfl

end Memory

end Sys2Proof
end

