-- ==== Sys2Proof/Laws/Lines.lean ====
section
/-! SUPPORT. The lines of a line sequence, read from its two buffers (R31). -/

namespace Sys2Proof.Machine

@[simp] theorem linesOf_length (sym : List Symbol) (ends : List Nat) : (linesOf sym ends).length = ends.length := by
  simp [linesOf]

theorem linesOf_getElem? {sym : List Symbol} {ends : List Nat} {i : Nat} (h : i < ends.length) :
    (linesOf sym ends)[i]? = some (lineAt sym ends i) := by simp [linesOf, h]

/-- The first line is the symbols up to its end. -/
theorem lineAt_zero (sym : List Symbol) (ends : List Nat) : lineAt sym ends 0 = sym.take (ends.getD 0 0) := by
  simp [lineAt, lineStart]

/-- A later line is the symbols between the end before it and its own. -/
theorem lineAt_succ (sym : List Symbol) (ends : List Nat) (i : Nat) :
    lineAt sym ends (i + 1) = (sym.take (ends.getD (i + 1) 0)).drop (ends.getD i 0) := by
  simp [lineAt, lineStart, List.drop_take]

theorem openLine_eq_false {sym : List Symbol} {ends : List Nat} :
    openLine sym ends = false ↔ sym.length ≤ ends.getLastD 0 := by simp [openLine]

end Sys2Proof.Machine
end

