-- ==== Sys2Proof/Laws/PerInstr.lean ====
section
/-! SUPPORT. One lemma for each command: its encoding, under which it is well formed, decodes to it. -/

namespace Sys2Proof.Laws.EncodingDecodes

/-- The word of a command decodes to the command (R98). -/
def Statement (i : Instr) : Prop := i.wf = true ∧ decode (encode i) = .ok i

theorem diff : Statement .diff := by unfold Statement; decide
theorem btree : Statement .btree := by unfold Statement; decide
theorem bcodes : Statement .bcodes := by unfold Statement; decide
theorem encode : Statement .encode := by unfold Statement; decide
theorem decode : Statement .decode := by unfold Statement; decide
theorem pack : Statement .pack := by unfold Statement; decide
theorem unpack : Statement .unpack := by unfold Statement; decide
theorem unpackT : Statement .unpackT := by unfold Statement; decide
theorem cmp : Statement .cmp := by unfold Statement; decide
theorem cmpP : Statement .cmpP := by unfold Statement; decide
theorem stat : Statement .stat := by unfold Statement; decide
theorem run : Statement .run := by unfold Statement; decide
theorem clr : Statement .clr := by unfold Statement; decide

end Sys2Proof.Laws.EncodingDecodes
end

