-- ==== Sys2Proof/Tests/Slice0.lean ====
section
/-! SUPPORT. Small tests: the well-formedness checks refuse, the words of the spec decode, one step of each command against the
vectors of spec/95_test_vectors.md, and for each obligation with hypotheses a state that meets them. -/

namespace Sys2Proof.Tests

open Sys2Proof Machine

/-! ### Helpers -/

/-- A machine with small capacities, so that a full buffer is a short list. It obeys R9. -/
def small : Config :=
  { symW := 21, maxLines := 2, maxInSyms := 4, maxText := 16, maxSyms := 3, maxBits := 16, lcsTie := .left }

/-- Its reset state. -/
def blank : State := State.resetOf small

/-- A text as the spec writes it. -/
def sym (t : String) : List Symbol := t.toList.map fun c => BitVec.ofNat 21 c.toNat

/-- A bit string as the spec writes it. -/
def bit (t : String) : List Bool := t.toList.map fun c => c == '1'

/-- A leaf. -/
def leafOf (c : Char) (f : Nat) : NodeRec := .leaf (BitVec.ofNat 21 c.toNat) f

/-- A step went on, and the state it left has the property. -/
def after (o : Host.Outcome State Fault Refusal) (p : State → Bool) : Bool :=
  match o with
  | .next t => p t
  | .fault _ => false
  | .refused _ => false

/-- What `after` says: there is a next state, and it has the property. -/
theorem next_of_after {o : Host.Outcome State Fault Refusal} {p : State → Bool} (h : after o p = true) :
    ∃ t, o = .next t ∧ p t = true := by
  cases o with
  | next t => exact ⟨t, rfl, h⟩
  | fault r => cases h
  | refused r => cases h

/-- The error record: STATUS, ERRCODE, ERRINFO0, ERRINFO1. -/
def shows (status : Word) (e : ErrCode) (i0 i1 : Word) (s : State) : Bool :=
  statusWord s == status && s.errCode == e && s.errInfo0 == i0 && s.errInfo1 == i1

/-- The blank machine about to do one host operation. -/
def host (op : HostOp) : State := { blank with script := [op] }

/-- The scenario S1: A = a, b, c and B = a, x, c, one line each, LF kept. -/
def s1 : State :=
  { State.reset with aSym := sym "a\nb\nc\n", aEnd := [2, 4, 6], bSym := sym "a\nx\nc\n", bEnd := [2, 4, 6] }

/-- The tree of V-T2, of "ab". -/
def treeAB : List NodeRec := [leafOf 'a' 1, leafOf 'b' 1, .internal 2 0 1]

/-- The tree of V-T9, of "abc". -/
def treeABC : List NodeRec := [leafOf 'a' 1, leafOf 'b' 1, leafOf 'c' 1, .internal 2 0 1, .internal 3 2 3]

/-- The code of V-T9. -/
def codeABC : List CodeEntry := [⟨0x63, [false]⟩, ⟨0x61, [true, false]⟩, ⟨0x62, [true, true]⟩]

/-- The code of V-T2. -/
def codeAB : List CodeEntry := [⟨0x61, [false]⟩, ⟨0x62, [true]⟩]

/-- A state with an error standing: ERR_OPERAND at A_PUSH. -/
def failed : State := { blank with err := true, errCode := .operand, errInfo0 := 0x31, errInfo1 := 0x200000 }

/-! ### WellFormed: an ill-formed term for each check -/

theorem test_refuses_reserved_bits : (CmdFields.mk 0x01 false false 1).reservedZero = false := by decide
theorem test_refuses_opcode_00 : (CmdFields.mk 0x00 false false 0).knownOp = false := by decide
theorem test_refuses_opcode_0B : (CmdFields.mk 0x0B false false 0).knownOp = false := by decide
theorem test_refuses_opcode_0E : (CmdFields.mk 0x0E false false 0).knownOp = false := by decide
theorem test_refuses_opcode_10 : (CmdFields.mk 0x10 false false 0).knownOp = false := by decide
theorem test_refuses_t_with_cmp : (CmdFields.mk 0x08 true false 0).tAllowed = false := by decide
theorem test_refuses_p_with_unpack : (CmdFields.mk 0x07 false true 0).pAllowed = false := by decide
theorem test_legal_fields : (CmdFields.mk 0x07 true false 0).legal = true := by decide

theorem test_config_default : Config.default.wf = true := by decide
theorem test_config_small : small.wf = true := by decide
theorem test_config_no_lines : ({ small with maxLines := 0 } : Config).wf = false := by decide
theorem test_config_no_syms_in : ({ small with maxInSyms := 0 } : Config).wf = false := by decide
theorem test_config_no_syms : ({ small with maxSyms := 0 } : Config).wf = false := by decide
theorem test_config_text_too_small : ({ small with maxText := 15 } : Config).wf = false := by decide
theorem test_config_nodes_over_16_bits : ({ small with maxSyms := 32769 } : Config).wf = false := by decide
theorem test_config_bits_no_bytes : ({ small with maxBits := 12 } : Config).wf = false := by decide
theorem test_config_text_over_word : ({ small with maxText := 2 ^ 30 } : Config).wf = false := by decide
theorem test_config_in_syms_over_word :
    ({ small with maxInSyms := 2 ^ 30, maxText := 2 ^ 32 } : Config).wf = false := by decide
theorem test_config_bytes_over_word : ({ small with maxBits := 344000000 } : Config).wf = false := by decide
theorem test_config_bits_over_word : ({ small with maxBits := 2 ^ 32 } : Config).wf = false := by decide
theorem test_config_sym_w_zero : ({ small with symW := 0 } : Config).wf = false := by decide
theorem test_config_sym_w_over : ({ small with symW := 22 } : Config).wf = false := by decide

/-! ### Decode: the words written out from R91 and R98, bits 31:10, p, t, opcode -/

theorem test_decode_diff : decode 0b0000000000000000000000_0_0_00000001#32 = .ok .diff := by decide
theorem test_decode_btree : decode 0b0000000000000000000000_0_0_00000010#32 = .ok .btree := by decide
theorem test_decode_bcodes : decode 0b0000000000000000000000_0_0_00000011#32 = .ok .bcodes := by decide
theorem test_decode_encode : decode 0b0000000000000000000000_0_0_00000100#32 = .ok .encode := by decide
theorem test_decode_decode : decode 0b0000000000000000000000_0_0_00000101#32 = .ok .decode := by decide
theorem test_decode_pack : decode 0b0000000000000000000000_0_0_00000110#32 = .ok .pack := by decide
theorem test_decode_unpack : decode 0b0000000000000000000000_0_0_00000111#32 = .ok .unpack := by decide
theorem test_decode_unpackT : decode 0b0000000000000000000000_0_1_00000111#32 = .ok .unpackT := by decide
theorem test_decode_cmp : decode 0b0000000000000000000000_0_0_00001000#32 = .ok .cmp := by decide
theorem test_decode_cmpP : decode 0b0000000000000000000000_1_0_00001000#32 = .ok .cmpP := by decide
theorem test_decode_stat : decode 0b0000000000000000000000_0_0_00001001#32 = .ok .stat := by decide
theorem test_decode_run : decode 0b0000000000000000000000_0_0_00001010#32 = .ok .run := by decide
theorem test_decode_clr : decode 0b0000000000000000000000_0_0_00001111#32 = .ok .clr := by decide

/-- The illegal words of spec/95 §2.7 do not decode. -/
theorem test_decode_illegal :
    [0x00, 0x0B, 0x0E, 0x10, 0xFF, 0x108, 0x308, 0x207, 0x407, 0x101, 0x20A, 0x10F, 0x80000001].all
      (fun w => (decode (BitVec.ofNat 32 w)).toOption.isNone) = true := by decide

theorem test_table_word : decodeTableWord 32 0x107 = some .unpackT ∧ decodeTableWord 32 0x10B = none := by decide

/-! ### One step of each command, from the vectors of spec/95 -/

/-- V-T5 by way of the port: the first step after reset runs the command written. -/
theorem test_first_step_runs :
    after (step (State.reset.withFetchWord 32 0x2)) (shows 0x206 .emptyInput 0 0) = true := by decide

/-- §2.7: an illegal word, from reset. -/
theorem test_illegal_word :
    after (step (State.reset.withFetchWord 32 0x80000001)) (shows 0x6 .illegalCmd 0x80000001 0) = true := by decide

/-- S1. -/
theorem test_diff_s1 : after (exec .diff s1) (fun t => t.lcs == [0, 2] && t.text == sym "- b\n+ x\n") = true := by
  decide

/-- V-D3: the tie. -/
theorem test_diff_tie :
    after (exec .diff { State.reset with aSym := sym "x\ny\n", aEnd := [2, 4], bSym := sym "y\nx\n", bEnd := [2, 4] })
      (fun t => t.lcs == [1] && t.text == sym "- x\n+ x\n") = true := by decide

/-- V-T8: a tie between a leaf and an older leaf. -/
theorem test_btree_tie :
    after (exec .btree { blank with text := sym "aabbc", code := codeAB }) (fun t =>
      t.node == [leafOf 'a' 2, leafOf 'b' 2, leafOf 'c' 1, .internal 3 2 0, .internal 5 1 3] && t.code == []) = true := by
  decide

/-- V-T6: the third distinct symbol does not fit. -/
theorem test_btree_full :
    after (exec .btree { State.resetOf { small with maxSyms := 2 } with text := sym "abc" })
      (shows 0x206 .capacity 2 0x63) = true := by decide

/-- V-T9. -/
theorem test_bcodes_abc :
    after (exec .bcodes { blank with node := treeABC }) (fun t =>
      t.code == [⟨0x63, bit "0"⟩, ⟨0x61, bit "10"⟩, ⟨0x62, bit "11"⟩]) = true := by decide

/-- V-K6: a repeated symbol. -/
theorem test_bcodes_repeated :
    after (exec .bcodes { blank with node := [leafOf 'a' 1, leafOf 'a' 1, .internal 2 0 1] })
      (shows 0x306 .badTree 1 0x80000061) = true := by decide

/-- V-T2. -/
theorem test_encode_ab :
    after (exec .encode { blank with text := sym "ab", code := codeAB }) (fun t => t.bits == bit "01") = true := by decide

/-- V-E2: a symbol without a code. -/
theorem test_encode_unknown :
    after (exec .encode { blank with text := sym "abc", code := codeAB }) (fun t =>
      shows 0x406 .unknownSymbol 2 0x63 t && t.bits == []) = true := by decide

/-- V-X2b in small: the bits end inside a code (R175). -/
theorem test_decode_partial :
    after (exec .decode { blank with node := treeABC, bits := bit "101" }) (fun t =>
      t.dtext == sym "a" && statusWord t == 0x82) = true := by decide

/-- V-X4: a bit 1 under a single-leaf tree. -/
theorem test_decode_invalid_code :
    after (exec .decode { blank with node := [leafOf 'a' 4], bits := bit "0010" }) (fun t =>
      shows 0x506 .invalidCode 2 1 t && t.dtext == []) = true := by decide

/-- V-P: the first bit is the most significant, the pad bits are 0. -/
theorem test_pack_nine :
    after (exec .pack { blank with bits := bit "101100111" }) (fun t =>
      t.bytes == [0xB3, 0x80] && t.pkBits == 9) = true := by decide

/-- V-P. -/
theorem test_unpack_raw :
    after (exec .unpack { blank with bytes := [0xB3, 0x80], pkBits := 9 }) (fun t =>
      t.bits == bit "1011001110000000" && t.pkBits == 9) = true := by decide

/-- V-U: the pad bits need not be 0. -/
theorem test_unpackT_nine :
    after (exec .unpackT { blank with bytes := [0xFF, 0x01], pkBits := 9 }) (fun t => t.bits == bit "111111110") = true := by
  decide

/-- V-U: eight bits need one byte. -/
theorem test_unpackT_wrong :
    after (exec .unpackT { blank with bytes := [0xFF, 0x01], pkBits := 8, bits := bit "111" }) (fun t =>
      shows 0x706 .operand 8 2 t && t.bits == []) = true := by decide

/-- V-C3. -/
theorem test_cmp_differs : after (exec .cmp { blank with text := sym "ab" }) (fun t => statusWord t == 0x22) = true := by
  decide

/-- V-C2. -/
theorem test_cmpP_empty : after (exec .cmpP blank) (fun t => statusWord t == 0x12) = true := by decide

/-- V-S3: UTF-8 lengths 2, 3, 4, 2. -/
theorem test_stat_utf8 :
    after (exec .stat { blank with text := [0xE9, 0x20AC, 0x1F600, 0xE9], bytes := [0x58] }) (fun t =>
      t.textBytes == 11 && t.ratioQ == 9 && t.ratioR == 1) = true := by decide

/-- P1: RUN on S1. -/
theorem test_run_s1 :
    after (exec .run s1) (fun t =>
      statusWord t == 0x1A && t.bits == bit "10000101011100011101" && t.bytes == [0x85, 0x71, 0xD0] &&
        t.dtext == sym "- b\n+ x\n" && t.ratioQ == 37 && t.ratioR == 4) = true := by decide

/-- V-D8r: RUN on an open line; the step is recorded. -/
theorem test_run_open_line :
    after (exec .run { blank with aSym := sym "a\nb", aEnd := [2] }) (shows 0x1106 .operand 0 3) = true := by decide

/-- V-C6. -/
theorem test_clr : after (exec .clr failed) (shows 0x2 .none 0 0) = true := by decide

/-- §2.8: a data word with a reserved bit, and the largest symbol. -/
theorem test_port_operand :
    after (step (host (.write 0x31 0x200000))) (shows 0x4 .operand 0x31 0x200000) = true ∧
      after (step (host (.write 0x31 0x1FFFFF))) (fun t => t.aSym == [0x1FFFFF]) = true := by decide

/-- P4: the number that ERRCODE reads after BTREE on the empty TEXT. -/
theorem test_errcode_reads_2 : after (exec .btree blank) (fun t => readCsr 0x02 t == 2) = true := by decide

/-- R31 on V-D7: an empty line, a line of two symbols, an empty line. -/
theorem test_lines :
    linesA { blank with aSym := sym "a\n", aEnd := [0, 2, 2] } = [[], sym "a\n", []] := by decide

/-- §2.9: two elements of the read window. -/
theorem test_read_window :
    (portRead 0x45 { blank with node := [.internal 2 4 5], rdBuf := 7 }).readData = some 0x00050004 ∧
      (portRead 0x45 { blank with code := [⟨0x62, bit "101"⟩], rdBuf := 8 }).readData = some 0xA0000000 := by decide

/-! ### Witnesses: for each obligation with hypotheses, a state and operands that meet them -/

/-- `Accepts` on the blank machine. -/
theorem accepts_host (a : Nat) (d : Word) : Accepts (host (.write a d)) a d [] := ⟨rfl, rfl, rfl⟩

/-- What the four tests below ask: the step goes on. -/
def goesOn (s : State) : Bool := after (step s) fun _ => true

theorem witness_LegalWordsAndIllegalRaise :
    (∀ i, decode 0x10F ≠ .ok i) ∧ Accepts (host (.write 0 0x10F)) 0 0x10F [] :=
  ⟨by intro i; cases i <;> decide, accepts_host _ _⟩

theorem witness_StepRunsDecodedCommand :
    (host (.write 0 0x107)).busy = false ∧ (host (.write 0 0x107)).script = .write 0 0x107 :: [] ∧
      decode 0x107 = .ok .unpackT := by decide

theorem witness_ErrorGate :
    failed.busy = false ∧ failed.err = true ∧
      (((0x30 ≤ 0x35 ∧ 0x35 ≤ 0x3A) ∧ 0x35 ≠ 0x40 ∧ 0x35 ≠ 0x41 ∧ 0x35 ≠ 0x42) ∧
        { failed with script := [.write 0x35 0x64] }.script = [.write 0x35 0x64]) ∧
      (0x00 ≤ 0x0A ∧ ¬(0x00 = 0 ∧ (0x10F : Word) = 0x0000000F#32) ∧
        ({ failed with script := [.write 0x00 0x10F] } : State).script = [.write 0x00 0x10F]) ∧
      { failed with script := [.write 0x40 7] }.script = [.write 0x40 7] ∧
      { failed with script := [.write 0x41 7] }.script = [.write 0x41 7] ∧
      { failed with script := [.write 0x42 7] }.script = [.write 0x42 7] ∧
      { failed with script := [.write 0 0xF] }.script = [.write 0 0x0000000F#32] ∧
      ((0x40 ≤ 0x45 ∧ 0x45 ≤ 0x45) ∧ { failed with script := [.read 0x45] }.script = [.read 0x45]) := by decide

theorem witness_ReservedAddressStops :
    (0x0B ≤ 0x0B ∧ 0x0B ≤ 0x0F) ∧ (0x1D ≤ 0x1F ∧ 0x1F ≤ 0x1F) ∧ (0x25 ≤ 0x2F ∧ 0x2F ≤ 0x2F) ∧ (0x3B ≤ 0x3B ∧ 0x3B ≤ 0x3F) ∧
      (0x46 ≤ 0x7F ∧ 0x7F ≤ 0x7F) ∧
    [0x0B, 0x0F, 0x1D, 0x1F, 0x25, 0x2F, 0x3B, 0x3F, 0x46, 0x7F].all reservedAddr = true ∧
      [0x0A, 0x10, 0x1C, 0x20, 0x24, 0x30, 0x3A, 0x40, 0x45].all (fun a => !reservedAddr a) = true ∧
      (host (.write 0x7F 1)).busy = false ∧ (host (.write 0x7F 1)).script = .write 0x7F 1 :: [] ∧
      (host (.read 0x0B)).script = .read 0x0B :: [] := by decide

theorem witness_AccessesTheHostHasNot :
    (0x80 ≤ 0x80 ∧ (host (.write 0x80 1)).script = .write 0x80 1 :: []) ∧
      (host (.read 0x80)).script = .read 0x80 :: [] ∧
      (0x7F < 0x80 ∧ { host (.write 0x7F 1) with busy := true }.busy = true) ∧
      ({ host (.read 0x02) with busy := true }.script = .read 0x02 :: [] ∧ 0x02 ≠ 0x01) ∧
      { host (.read 0x01) with busy := true }.script = .read 0x01 :: [] := by decide

theorem witness_ResetFromAnyState : { failed with script := [.reset] }.script = .reset :: [] := rfl

theorem witness_ReadsHaveNoSideEffect :
    (host (.read 0x43)).script = .read 0x43 :: [] ∧
      step (host (.read 0x43)) = .next { blank with readData := some (Config.unspecifiedRead 0), draws := 1 } := ⟨rfl, rfl⟩

/-- One element in each of the twelve buffers. -/
def full : State :=
  { blank with
    aSym := [0x61], aEnd := [1], bSym := [0x62], bEnd := [1], lcs := [0], text := [0x63], freq := [⟨0x61, 2⟩]
    node := [.leaf 0x61 2, .internal 2 4 5], code := [⟨0x61, bit "10"⟩], bits := [true], bytes := [0xD0], dtext := [0x64] }

theorem witness_ReadWindowShowsElement :
    { full with script := [.read 0x43] }.busy = false ∧ { full with script := [.read 0x43] }.script = .read 0x43 :: [] ∧
      { full with err := true, script := [.read 0x44] }.script = .read 0x44 :: [] ∧
      { full with script := [.read 0x45] }.script = .read 0x45 :: [] ∧ full.rdIdx.toNat = 0 ∧ full.aSym[0]? = some 0x61 ∧ full.bSym[0]? = some 0x62 ∧ full.text[0]? = some 0x63 ∧
      full.dtext[0]? = some 0x64 ∧ full.aEnd[0]? = some 1 ∧ full.bEnd[0]? = some 1 ∧ full.lcs[0]? = some 0 ∧
      full.freq[0]? = some ⟨0x61, 2⟩ ∧ full.node[0]? = some (.leaf 0x61 2) ∧
      ({ full with rdIdx := 1 }.rdIdx.toNat = 1 ∧ full.node[1]? = some (.internal 2 4 5) ∧ 4 < 2 ^ 16) ∧
      full.code[0]? = some ⟨0x61, bit "10"⟩ ∧ full.bits[0]? = some true ∧ full.bytes[0]? = some 0xD0 ∧
      [0, 1, 2, 3, 4, 5, 6, 7, 8, 9, 10, 11].all (fun id => ({ full with rdBuf := word id } : State).rdBuf.toNat == id) = true := by
  decide

theorem witness_InvalidSelectionIsFree :
    ({ full with script := [.read 0x43], rdBuf := 12 }.busy = false ∧
        { full with script := [.read 0x43], rdBuf := 12 }.script = .read 0x43 :: []) ∧
      { full with err := true, script := [.read 0x45], rdBuf := 12 }.script = .read 0x45 :: [] ∧
      0x43 ≤ 0x43 ∧ 0x45 ≤ 0x45 ∧ 11 < { full with rdBuf := 12 }.rdBuf.toNat ∧ 11 < { full with rdBuf := 0x80000000 }.rdBuf.toNat ∧
      ∃ len, [full.aSym.length, full.aEnd.length, full.bSym.length, full.bEnd.length, full.lcs.length, full.text.length,
        full.freq.length, full.node.length, full.code.length, full.bits.length, full.bytes.length,
        full.dtext.length][{ full with rdBuf := 7, rdIdx := 2 }.rdBuf.toNat]? = some len ∧
        len ≤ { full with rdBuf := 7, rdIdx := 2 }.rdIdx.toNat := by
  refine ⟨⟨rfl, rfl⟩, rfl, by decide, by decide, by decide, by decide, 2, by decide, by decide⟩

theorem witness_TextPushes :
    small.symW ≤ 21 ∧ Accepts (host (.write 0x31 0x200000)) 0x31 0x200000 [] ∧ Accepts (host (.write 0x33 0x61)) 0x33 0x61 [] ∧
      Accepts { host (.write 0x35 0x61) with text := List.replicate 16 0x61 } 0x35 0x61 [] ∧
      Accepts { host (.write 0x32 0) with aEnd := [0, 0] } 0x32 0 [] ∧ Accepts (host (.write 0x34 7)) 0x34 7 [] :=
  ⟨by decide, accepts_host _ _, accepts_host _ _, ⟨rfl, rfl, rfl⟩, ⟨rfl, rfl, rfl⟩, accepts_host _ _⟩

theorem witness_NodePush :
    1 ≤ small.symW ∧ small.symW ≤ 21 ∧ Accepts (host (.write 0x36 0x80000000)) 0x36 0x80000000 [] ∧
      Accepts (host (.write 0x37 2)) 0x37 2 [] ∧
      Accepts { host (.write 0x38 0x50004) with nodeW0 := 0x80000000, nodeW1 := 2 } 0x38 0x50004 [] :=
  ⟨by decide, by decide, accepts_host _ _, accepts_host _ _, ⟨rfl, rfl, rfl⟩⟩

theorem witness_BitAndBytePushes :
    Accepts (host (.write 0x39 1)) 0x39 1 [] ∧ Accepts (host (.write 0x39 2)) 0x39 2 [] ∧
      Accepts (host (.write 0x3A 0xFF)) 0x3A 0xFF [] ∧ Accepts (host (.write 0x3A 0x100)) 0x3A 0x100 [] :=
  ⟨accepts_host _ _, accepts_host _ _, accepts_host _ _, accepts_host _ _⟩

theorem witness_BufClrEmptiesNamedBuffers :
    Accepts { full with script := [.write 0x30 0x3F] } 0x30 0x3F [] ∧ (0x3F : Word).toNat / 2 ^ 6 = 0 ∧
      Accepts { full with script := [.write 0x30 0x40] } 0x30 0x40 [] ∧ (0x40 : Word).toNat / 2 ^ 6 ≠ 0 :=
  ⟨⟨rfl, rfl, rfl⟩, by decide, ⟨rfl, rfl, rfl⟩, by decide⟩

theorem witness_PlainRegisterWrites :
    Accepts (host (.write 0x1C 20)) 0x1C 20 [] ∧ Accepts (host (.write 0x40 16)) 0x40 16 [] ∧
      Accepts (host (.write 0x41 1)) 0x41 1 [] ∧ Accepts (host (.write 0x42 1)) 0x42 1 [] :=
  ⟨accepts_host _ _, accepts_host _ _, accepts_host _ _, accepts_host _ _⟩

theorem witness_CsrMap :
    ((1 ≤ 1 ∧ 1 ≤ 0x0A) ∧ Accepts (host (.write 1 5)) 1 5 []) ∧ Accepts (host (.write 0x1B 5)) 0x1B 5 [] ∧
      Accepts (host (.write 0x24 5)) 0x24 5 [] ∧ Accepts (host (.write 0x45 5)) 0x45 5 [] ∧ (host (.read 0)).busy = false ∧
      (host (.read 0)).script = .read 0 :: [] ∧ (host (.read 0x3A)).script = .read 0x3A :: [] ∧
      (host (.read 0x42)).script = .read 0x42 :: [] ∧
      ({ failed with script := [.read 2] }.busy = false ∧ { failed with script := [.read 2] }.script = .read 2 :: [] ∧
        { failed with script := [.read 2] }.errCode = .operand) ∧
      ({ full with script := [.read 0x45] }.script = .read 0x45 :: [] ∧
        windowWords { full with script := [.read 0x45] } = some (0x61, 0, 0)) ∧
      (host (.read 0x43)).script = .read 0x43 :: [] ∧ windowWords (host (.read 0x43)) = none :=
  ⟨⟨by decide, accepts_host _ _⟩, accepts_host _ _, accepts_host _ _, accepts_host _ _, rfl, rfl, rfl, rfl, ⟨rfl, rfl, rfl⟩,
    ⟨rfl, rfl⟩, rfl, rfl⟩

theorem witness_PortErrorsAreRecordsOnly :
    0x39 ≠ 0 ∧ Accepts (host (.write 0x39 2)) 0x39 2 [] ∧ ∃ t, step (host (.write 0x39 2)) = .next t ∧ t.err = true :=
  ⟨by decide, accepts_host _ _, _, rfl, rfl⟩

/-! #### DIFF -/

theorem witness_DiffFollowsRecurrence : s1.err = false ∧ LinesClosed s1 := by unfold LinesClosed; decide

theorem witness_DiffFindsLongestCommon : s1.err = false ∧ LinesClosed s1 := witness_DiffFollowsRecurrence

theorem witness_DiffTextReconstructs : s1.err = false ∧ LinesClosed s1 := witness_DiffFollowsRecurrence

theorem witness_DiffFitsText :
    (Memory.wf s1 = true ∧ s1.err = false) ∧ s1.aEnd[0]? = some 2 ∧ s1.aEnd[1]? = some 4 ∧ s1.bEnd[2]? = some 6 ∧
      s1.aSym.length ≤ s1.aEnd.getLastD 0 ∧ s1.bSym.length ≤ s1.bEnd.getLastD 0 := by decide

theorem witness_DiffOpenLine :
    ({ blank with aSym := sym "a\nb", aEnd := [2] }.err = false ∧
        { blank with aSym := sym "a\nb", aEnd := [2] }.aEnd.getLastD 0 <
          { blank with aSym := sym "a\nb", aEnd := [2] }.aSym.length) ∧
      blank.aSym.length ≤ blank.aEnd.getLastD 0 ∧
        { blank with bSym := sym "a" }.bEnd.getLastD 0 < { blank with bSym := sym "a" }.bSym.length := by decide

theorem witness_DiffCornerCases :
    (s1.err = false ∧ LinesClosed s1) ∧
      (linesA { s1 with bSym := s1.aSym } = linesB { s1 with bSym := s1.aSym } ∧ LinesClosed { s1 with bSym := s1.aSym }) ∧
      (linesA { s1 with aSym := [], aEnd := [] } = [] ∧ LinesClosed { s1 with aSym := [], aEnd := [] }) ∧
      (linesB { s1 with bSym := [], bEnd := [] } = [] ∧ LinesClosed { s1 with bSym := [], bEnd := [] }) ∧
      ((∀ l ∈ linesA { s1 with bSym := sym "u\nv\nw\n" }, l ∉ linesB { s1 with bSym := sym "u\nv\nw\n" }) ∧
        LinesClosed { s1 with bSym := sym "u\nv\nw\n" }) := by unfold LinesClosed; decide

/-! #### BTREE -/

theorem witness_BtreeBuildsTree :
    ({ blank with text := sym "aabbc" }.err = false ∧ { blank with text := sym "aabbc" }.text ≠ [] ∧
      (sym "aabbc").eraseDups.length ≤ blank.cfg.maxSyms) := by decide

theorem witness_BtreeMergesLeast :
    ({ blank with text := sym "aabbc" }.err = false ∧ { blank with text := sym "aabbc" }.text ≠ [] ∧
      (sym "aabbc").eraseDups.length ≤ blank.cfg.maxSyms) := witness_BtreeBuildsTree

theorem witness_BtreeErrors :
    (blank.err = false ∧ blank.text = []) ∧
      (let s := { blank with text := sym "aabcd" }
       s.text[4]? = some 0x64 ∧ (s.text.take 4).eraseDups.length = s.cfg.maxSyms ∧ 0x64 ∉ s.text.take 4) := by decide

theorem witness_AnyQueueOrderBuildsTree : [FreqEntry.mk 0x61 0, FreqEntry.mk 0x62 3] ≠ [] := by decide

/-! #### TreeOK and BCODES -/

theorem treeABC_ok : TreeOK treeABC := by
  refine ⟨by decide, fun p f l r h => ?_, by decide⟩
  have hp : p < treeABC.length := (List.getElem?_eq_some_iff.1 h).1
  have : p = 0 ∨ p = 1 ∨ p = 2 ∨ p = 3 ∨ p = 4 := by simp [treeABC] at hp; omega
  rcases this with rfl | rfl | rfl | rfl | rfl <;> simp [treeABC, leafOf] at h <;> omega

theorem treeABC_root : RootInternal treeABC := ⟨3, 2, 3, rfl⟩

theorem witness_BadTreeRaises_a : blank.err = false ∧ TreeWitness blank.node 0 := ⟨rfl, .inl ⟨rfl, rfl⟩⟩

theorem witness_BadTreeRaises_b :
    TreeWitness [leafOf 'a' 1, leafOf 'b' 1, NodeRec.internal 2 0 0] 2 ∧ bit "0" ≠ [] := by
  refine ⟨.inr (.inl ⟨by decide, ⟨2, 0, 0, rfl, by decide⟩, ?_⟩), by decide⟩
  rintro p hp ⟨f, l, r, h, -⟩
  have : p = 0 ∨ p = 1 := by omega
  rcases this with rfl | rfl <;> simp [leafOf] at h

theorem witness_BadTreeRaises_c : TreeWitness [leafOf 'a' 1, leafOf 'b' 1] 0 := by
  refine .inr (.inr ⟨by decide, ?_, by decide, by decide, by omega⟩)
  rintro p ⟨f, l, r, h, -⟩
  have hp := (List.getElem?_eq_some_iff.1 h).1
  have : p = 0 ∨ p = 1 := by simp at hp; omega
  rcases this with rfl | rfl <;> simp [leafOf] at h

theorem witness_BcodesWritesPrefixCode :
    ({ blank with node := treeABC }.err = false ∧ TreeOK { blank with node := treeABC }.node ∧
      (leafSymbols { blank with node := treeABC }.node).Nodup) ∧
      (TreeOK [leafOf 'a' 4] ∧ (leafSymbols [leafOf 'a' 4]).Nodup) := by
  refine ⟨⟨rfl, treeABC_ok, by decide⟩, ⟨by decide, ?_, by decide⟩, by decide⟩
  intro p f l r h
  rcases p with _ | p <;> simp [leafOf] at h

/-- The tree of V-K6: two leaves with one symbol. -/
def treeAA : List NodeRec := [leafOf 'a' 1, leafOf 'a' 1, .internal 2 0 1]

theorem treeAA_ok : TreeOK treeAA := by
  refine ⟨by decide, fun p f l r h => ?_, by decide⟩
  rcases p with _ | _ | _ | p <;> simp [treeAA, leafOf] at h
  omega

/-- The ways in that tree are one edge long. -/
theorem treeAA_ways {v : List Bool} {x : Symbol} (h : LeadsTo treeAA v x) : v = [false] ∨ v = [true] := by
  obtain ⟨q, f, h1, h2⟩ := h
  match v with
  | [] => simp [follow, rootOf, treeAA] at h1; subst h1; simp [treeAA] at h2
  | [false] => exact .inl rfl
  | [true] => exact .inr rfl
  | false :: c :: v => simp [follow, rootOf, treeAA, leafOf] at h1
  | true :: c :: v => simp [follow, rootOf, treeAA, leafOf] at h1

theorem witness_BcodesRepeatedSymbol :
    { blank with node := treeAA }.err = false ∧ TreeOK { blank with node := treeAA }.node ∧
      follow treeAA (rootOf treeAA) [true] = some 1 ∧ treeAA[1]? = some (NodeRec.leaf 0x61 1) ∧
      (∃ u, LeftOf u [true] ∧ LeadsTo treeAA u 0x61) ∧
      ∀ u' v' y, LeftOf u' v' → LeadsTo treeAA u' y → LeadsTo treeAA v' y → v' = [true] ∨ LeftOf [true] v' := by
  refine ⟨rfl, treeAA_ok, rfl, rfl, ⟨[false], ⟨[], [], [], rfl, rfl⟩, ⟨0, 1, rfl, rfl⟩⟩, ?_⟩
  rintro u' v' y ⟨w, a, b, -, hv⟩ - h
  rcases treeAA_ways h with rfl | rfl
  · rcases w with _ | ⟨c, w⟩ <;> simp at hv
  · exact .inl rfl

/-! #### ENCODE and DECODE -/

/-- The code of V-T2 as a function. -/
def codeOfAB (x : Symbol) : List Bool := if x = 0x61 then [false] else [true]

theorem witness_EncodeConcatenatesCodes :
    let s := { blank with text := [0x61, 0x62], code := codeAB }
    s.err = false ∧ (∀ e ∈ s.code, e.bits = codeOfAB e.sym) ∧ (∀ x ∈ s.text, ∃ e ∈ s.code, e.sym = x) ∧
      (s.text.flatMap codeOfAB).length ≤ s.cfg.maxBits := by
  refine ⟨rfl, ?_, ?_, by decide⟩ <;> simp [codeAB, codeOfAB]

theorem witness_EncodeErrors_unknown :
    let s := { blank with text := [0x61, 0x62, 0x63], code := codeAB }
    s.err = false ∧ (∀ e ∈ s.code, e.bits = codeOfAB e.sym) ∧ s.text[2]? = some 0x63 ∧
      (∀ y ∈ s.text.take 2, ∃ e ∈ s.code, e.sym = y) ∧ ((s.text.take 2).flatMap codeOfAB).length ≤ s.cfg.maxBits ∧
      ∀ e ∈ s.code, e.sym ≠ 0x63 := by
  refine ⟨rfl, ?_, rfl, ?_, by decide, ?_⟩ <;> simp [codeAB, codeOfAB]

theorem witness_EncodeErrors_capacity :
    let s := { State.resetOf { small with maxBits := 0 } with text := [0x61], code := codeAB }
    s.err = false ∧ (∀ e ∈ s.code, e.bits = codeOfAB e.sym) ∧ s.text[0]? = some 0x61 ∧
      (∀ y ∈ s.text.take 0, ∃ e ∈ s.code, e.sym = y) ∧ ((s.text.take 0).flatMap codeOfAB).length ≤ s.cfg.maxBits ∧
      (∃ e ∈ s.code, e.sym = 0x61) ∧ s.cfg.maxBits < ((s.text.take (0 + 1)).flatMap codeOfAB).length := by
  refine ⟨rfl, ?_, rfl, ?_, by decide, ?_, by decide⟩ <;> simp [codeAB, codeOfAB]

theorem witness_DecodeNoBits : blank.err = false ∧ blank.bits = [] := by decide

theorem witness_DecodeFollowsPaths :
    let s := { blank with node := treeABC, bits := bit "101" }
    s.err = false ∧ TreeOK s.node ∧ RootInternal s.node ∧ List.Forall₂ (LeadsTo s.node) [bit "10"] [0x61] ∧
      [(0x61 : Symbol)].length ≤ s.cfg.maxText ∧ s.bits = [bit "10"].flatten ++ bit "1" ∧ EndsInside s.node (bit "1") :=
  ⟨rfl, treeABC_ok, treeABC_root, .cons ⟨0, 1, rfl, rfl⟩ .nil, by decide, by decide, by decide, 3, 2, 0, 1, rfl, rfl⟩

theorem witness_DecodeFollowsPaths_full :
    let s := { State.resetOf { small with maxText := 1 } with node := treeABC, bits := bit "1001" }
    s.err = false ∧ TreeOK s.node ∧ RootInternal s.node ∧ List.Forall₂ (LeadsTo s.node) [bit "10"] [0x61] ∧
      LeadsTo s.node (bit "0") 0x63 ∧ s.bits = [bit "10"].flatten ++ bit "0" ++ bit "1" ∧
      [(0x61 : Symbol)].length = s.cfg.maxText :=
  ⟨rfl, treeABC_ok, treeABC_root, .cons ⟨0, 1, rfl, rfl⟩ .nil, ⟨2, 1, rfl, rfl⟩, by decide, by decide⟩

theorem witness_DecodeSingleLeaf :
    (let s := { blank with node := [leafOf 'a' 4], bits := List.replicate 16 false }
     s.err = false ∧ s.node = [NodeRec.leaf 0x61 4] ∧ s.bits = List.replicate 16 false ∧ 16 ≤ s.cfg.maxText) ∧
    { blank with bits := bit "0010" }.bits = List.replicate 2 false ++ true :: [false] ∧
    { blank with bits := List.replicate 17 false }.bits = List.replicate (blank.cfg.maxText + 1) false ++ [] := by decide

theorem witness_DecodeInvertsEncode :
    ∃ u r s t : State, u.err = false ∧ exec .bcodes u = .next r ∧ r.err = false ∧ s.node = r.node ∧ s.code = r.code ∧
      s.err = false ∧ s.text.length ≤ s.cfg.maxText ∧ exec .encode s = .next t ∧ t.err = false :=
  ⟨{ blank with node := treeABC }, endNormal { blank with node := treeABC, code := codeABC },
    { blank with node := treeABC, code := codeABC, text := [0x63, 0x61] }, _, rfl, rfl, rfl, rfl, rfl, rfl, by decide, rfl, rfl⟩

/-! #### PACK to CLR -/

theorem witness_PackByteLaw :
    let s := { blank with bits := List.replicate 16 true }
    s.err = false ∧ s.bits.length ≤ s.cfg.maxBits ∧ s.cfg.maxBits % 8 = 0 ∧ 15 < 8 * ((s.bits.length + 7) / 8) := by decide

theorem witness_UnpackExpands :
    let s := { blank with bytes := [0xB3, 0x80] }
    s.err = false ∧ s.bytes.length ≤ s.cfg.maxBits / 8 ∧ 15 < 8 * s.bytes.length := by decide

theorem witness_UnpackTruncates :
    let s := { blank with bytes := [0xFF, 0x01] }
    s.err = false ∧ ({ s with pkBits := 9 }.pkBits.toNat + 7) / 8 = s.bytes.length ∧
      ({ s with pkBits := 16 }.pkBits.toNat + 7) / 8 = s.bytes.length ∧
      ({ s with pkBits := 8 }.pkBits.toNat + 7) / 8 ≠ s.bytes.length ∧
      ({ s with pkBits := 17 }.pkBits.toNat + 7) / 8 ≠ s.bytes.length := by decide

theorem witness_PackUnpackRoundTrip :
    { blank with bits := bit "101100111" }.err = false ∧ { blank with bits := bit "101100111" }.bits.length < 2 ^ 32 := by
  decide

theorem witness_ClrAcknowledges : failed.err = true ∧ Instr.run ≠ .clr := by decide

theorem witness_CmpReportsByFlag :
    blank.err = false ∧ blank.dtext = blank.text ∧ { blank with text := sym "ab" }.dtext ≠ { blank with text := sym "ab" }.text := by
  decide

theorem witness_StatMeasures :
    blank.err = false ∧ Memory.wf blank = true ∧ Memory.wf { blank with text := sym "a", bytes := [1, 2] } = true := by decide

/-! #### RUN -/

theorem witness_RunEqualsSequence :
    errorRecordOk s1 = true ∧ s1.err = false ∧ ∃ t, exec .run s1 = .next t ∧ t.err = false ∧ t.text ≠ [] := by
  obtain ⟨t, h, hp⟩ := next_of_after (o := exec .run s1) (p := fun t => decide (t.err = false ∧ t.text ≠ [])) (by decide)
  exact ⟨by decide, rfl, t, h, of_decide_eq_true hp⟩

theorem witness_RunEqualsSequence_empty :
    errorRecordOk blank = true ∧ blank.err = false ∧ ∃ t, exec .run blank = .next t ∧ t.err = false ∧ t.text = [] := by
  obtain ⟨t, h, hp⟩ := next_of_after (o := exec .run blank) (p := fun t => decide (t.err = false ∧ t.text = [])) (by decide)
  exact ⟨by decide, rfl, t, h, of_decide_eq_true hp⟩

theorem witness_RunBypass :
    { s1 with bSym := s1.aSym }.err = false ∧ LinesClosed { s1 with bSym := s1.aSym } ∧
      linesA { s1 with bSym := s1.aSym } = linesB { s1 with bSym := s1.aSym } := by unfold LinesClosed; decide

theorem witness_RunVerifies :
    (Memory.wf s1 = true ∧ s1.err = false ∧ ∃ t, exec .run s1 = .next t ∧ t.err = false) ∧ LinesClosed s1 ∧
      (diffText s1.cfg.lcsTie (linesA s1) (linesB s1)).eraseDups.length ≤ s1.cfg.maxSyms ∧
      (diffText s1.cfg.lcsTie (linesA s1) (linesB s1)).length * s1.cfg.maxCodeLen ≤ s1.cfg.maxBits := by
  obtain ⟨t, h, hp⟩ := next_of_after (o := exec .run s1) (p := fun t => decide (t.err = false)) (by decide)
  exact ⟨⟨by decide, rfl, t, h, of_decide_eq_true hp⟩, by unfold LinesClosed; decide, by decide, by decide⟩

/-- The three ways RUN can fail: an open line, too many symbols, too many bits. -/
theorem witness_RunErrorsAreThree :
    (let s := { blank with aSym := sym "a" }
     Memory.wf s = true ∧ s.err = false ∧ after (exec .run s) (fun t => t.err && t.stepOrd == 1) = true) ∧
    (let s := { blank with aSym := sym "ab", aEnd := [2] }
     Memory.wf s = true ∧ s.err = false ∧ after (exec .run s) (fun t => t.err && t.stepOrd == 2) = true) ∧
    (let s := { State.resetOf { small with maxSyms := 4, maxBits := 0 } with aSym := sym "ab", aEnd := [2] }
     Memory.wf s = true ∧ s.err = false ∧ after (exec .run s) (fun t => t.err && t.stepOrd == 4) = true) := by decide

theorem witness_RunDependsOnInputsOnly :
    let s' := { s1 with text := sym "ab", verified := true, pkBits := 5, draws := 3 }
    errorRecordOk s1 = true ∧ errorRecordOk s' = true ∧ s1.err = false ∧ s'.err = false ∧ s1.cfg = s'.cfg ∧
      s1.aSym = s'.aSym ∧ s1.aEnd = s'.aEnd ∧ s1.bSym = s'.bSym ∧ s1.bEnd = s'.bEnd ∧
      after (exec .run s1) (fun _ => true) = true ∧ after (exec .run s') (fun _ => true) = true := by decide

/-! #### The whole machine -/

theorem witness_CommandsKeepInputs : ∃ t, exec .run s1 = .next t := ⟨_, rfl⟩

theorem witness_FlagsAreOutputs :
    forgetFlags blank = forgetFlags { blank with verified := true, mismatch := true } ∧ (∃ t, exec .cmp blank = .next t) ∧
      ∃ t', exec .cmp { blank with verified := true, mismatch := true } = .next t' := ⟨rfl, ⟨_, rfl⟩, ⟨_, rfl⟩⟩

theorem witness_ErrorsArePrecise :
    Instr.btree ≠ .run ∧ blank.err = false ∧ ∃ t, exec .btree blank = .next t ∧ t.err = true :=
  ⟨by decide, rfl, _, rfl, by decide⟩

theorem witness_StepKeepsErrorRecord :
    errorRecordOk (host (.write 0 2)) = true ∧ goesOn (host (.write 0 2)) = true ∧ errorRecordOk failed = true ∧
      goesOn { failed with script := [.write 0 0xF] } = true := by decide

theorem witness_StepKeepsMemory :
    Memory.wf full = true ∧ goesOn { full with script := [.write 0x31 0x62] } = true := by decide

theorem witness_StepKeepsCodeCoherent :
    CodeCoherent { blank with node := treeAB, code := codeAB, script := [.write 0x35 0x63] } ∧
      goesOn { blank with node := treeAB, code := codeAB, script := [.write 0x35 0x63] } = true := by
  unfold CodeCoherent; decide

theorem witness_ResetMeetsInvariants : small.wf = true ∧ Config.default.wf = true := by decide

end Sys2Proof.Tests
end

section
/-! PROOF. O53: `exec` answers a next state for every command in every state. -/

namespace Sys2Proof

open Machine

/-- Settles O53: every arm but CLR's is a `command`, which always answers a next state; CLR's answers one itself. -/
theorem commandsAlwaysEnd : Obligations.CommandsAlwaysEnd := by
  intro i s
  cases i with
  | clr => exact ⟨_, exec_clr s⟩
  | _ => exact ⟨_, command_eq _ _ s⟩

end Sys2Proof
end

section
/-! PROOF. The results of DIFF fit their buffers: LCS holds rising indices of lines of A, TEXT at most every line of A and of
B with its mark (R114, R118). -/

namespace Sys2Proof.Machine

/-! ### The lines and their symbols -/

theorem lineStart_succ (ends : List Nat) (n : Nat) : lineStart ends (n + 1) = ends.getD n 0 := rfl

/-- Line ends rise, so a line begins no later than it ends (R31). -/
theorem lineStart_le_end {ends : List Nat} (h : ends.Pairwise (· ≤ ·)) {n : Nat} (hn : n < ends.length) :
    lineStart ends n ≤ ends.getD n 0 := by
  cases n with
  | zero => exact Nat.zero_le _
  | succ k =>
    rw [lineStart_succ, List.getD_eq_getElem _ _ (by omega), List.getD_eq_getElem _ _ hn]
    exact List.pairwise_iff_getElem.1 h k (k + 1) (by omega) hn (by omega)

/-- The first n lines, joined, are the symbols up to where line n begins (R31). -/
theorem flatten_lineAt_range (sym : List Symbol) {ends : List Nat} (h : ends.Pairwise (· ≤ ·)) :
    ∀ n ≤ ends.length, ((List.range n).map (lineAt sym ends)).flatten = sym.take (lineStart ends n)
  | 0, _ => by simp [lineStart]
  | n + 1, hn => by
    have hle := lineStart_le_end h (n := n) (by omega)
    rw [List.range_succ, List.map_append, List.flatten_append, flatten_lineAt_range sym h n (by omega), lineStart_succ,
      ← Nat.add_sub_cancel' hle, List.take_add]
    simp [lineAt]

theorem linesOf_flatten_length_le (sym : List Symbol) {ends : List Nat} (h : ends.Pairwise (· ≤ ·)) :
    (linesOf sym ends).flatten.length ≤ sym.length := by
  unfold linesOf
  rw [flatten_lineAt_range sym h _ le_rfl]
  simp

/-! ### The length of the text -/

/-- What the lines need in TEXT when each is emitted: its symbols, its mark and the symbol after the mark (R116). -/
def markedLength (ls : List Line) : Nat := ls.flatten.length + 2 * ls.length

theorem markedLength_append (us vs : List Line) : markedLength (us ++ vs) = markedLength us + markedLength vs := by
  simp [markedLength]; omega

theorem flatMap_emit_length (mark : Symbol) (ls : List Line) : (ls.flatMap (emit mark)).length = markedLength ls := by
  induction ls with
  | nil => rfl
  | cons l ls ih =>
    rw [List.flatMap_cons, List.length_append, ih]
    simp [emit, markedLength]; omega

theorem markedLength_drop_le (n : Nat) (ls : List Line) : markedLength (ls.drop n) ≤ markedLength ls := by
  conv_rhs => rw [← List.take_append_drop n ls, markedLength_append]
  exact Nat.le_add_left _ _

/-- The lines before the first one that fails a test, and those after it, need no more than all of them. -/
theorem markedLength_split_le (p : Line → Bool) (ls : List Line) :
    markedLength (ls.takeWhile p) + markedLength ((ls.dropWhile p).drop 1) ≤ markedLength ls := by
  conv_rhs => rw [← List.takeWhile_append_dropWhile (p := p) (l := ls), markedLength_append]
  exact Nat.add_le_add_left (markedLength_drop_le 1 _) _

/-- The walk of R115 emits each line of A and of B at most once. -/
theorem walkText_length_le (cs as bs : List Line) : (walkText cs as bs).length ≤ markedLength as + markedLength bs := by
  induction cs generalizing as bs with
  | nil => rw [walkText, List.length_append, flatMap_emit_length, flatMap_emit_length]
  | cons c cs ih =>
    have ha := markedLength_split_le (fun x => decide (x ≠ c)) as
    have hb := markedLength_split_le (fun x => decide (x ≠ c)) bs
    have hrest := ih ((as.dropWhile fun x => decide (x ≠ c)).drop 1) ((bs.dropWhile fun x => decide (x ≠ c)).drop 1)
    rw [walkText, List.length_append, List.length_append, flatMap_emit_length, flatMap_emit_length]
    omega

/-- The lines of one sequence need at most 2·MAX_LINES more than its symbols. -/
theorem markedLength_linesOf_le {c : Config} {sym : List Symbol} {ends : List Nat} (h : linesWf c sym ends = true) :
    markedLength (linesOf sym ends) ≤ c.maxInSyms + 2 * c.maxLines := by
  obtain ⟨hsym, hends, hrise, -⟩ := (linesWf_iff c sym ends).1 h
  have hflat := linesOf_flatten_length_le sym hrise
  rw [markedLength, linesOf_length]
  omega

/-- The diff text fits TEXT when the parameters obey R9 (R118). -/
theorem diffText_length_le {c : Config} (hc : 2 * c.maxInSyms + 4 * c.maxLines ≤ c.maxText) {aSym bSym : List Symbol}
    {aEnd bEnd : List Nat} (ha : linesWf c aSym aEnd = true) (hb : linesWf c bSym bEnd = true) (tie : LcsTie) :
    (diffText tie (linesOf aSym aEnd) (linesOf bSym bEnd)).length ≤ c.maxText := by
  have hwalk := walkText_length_le
    (commonLines (linesOf aSym aEnd) (lcsIndices tie (linesOf aSym aEnd) (linesOf bSym bEnd)))
    (linesOf aSym aEnd) (linesOf bSym bEnd)
  have hA := markedLength_linesOf_le ha
  have hB := markedLength_linesOf_le hb
  rw [diffText]
  omega

/-! ### The indices of LCS -/

/-- Indices that rise strictly, from `lo` on and below `hi`. -/
def RisingWithin (lo hi : Nat) (l : List Nat) : Prop := l.Pairwise (· < ·) ∧ ∀ x ∈ l, lo ≤ x ∧ x < hi

theorem RisingWithin.nil (lo hi : Nat) : RisingWithin lo hi [] := ⟨.nil, by simp⟩

theorem RisingWithin.mono {lo lo' hi : Nat} {l : List Nat} (h : RisingWithin lo hi l) (hle : lo' ≤ lo) :
    RisingWithin lo' hi l :=
  ⟨h.1, fun x hx => ⟨hle.trans (h.2 x hx).1, (h.2 x hx).2⟩⟩

theorem RisingWithin.cons {lo hi : Nat} {l : List Nat} (h : RisingWithin (lo + 1) hi l) (hlo : lo < hi) :
    RisingWithin lo hi (lo :: l) := by
  refine ⟨List.pairwise_cons.2 ⟨fun x hx => (h.2 x hx).1, h.1⟩, fun x hx => ?_⟩
  rcases List.mem_cons.1 hx with rfl | hx
  · exact ⟨le_rfl, hlo⟩
  · exact ⟨Nat.le_of_succ_le (h.2 x hx).1, (h.2 x hx).2⟩

theorem RisingWithin.length_le {lo hi : Nat} {l : List Nat} (h : RisingWithin lo hi l) : l.length ≤ hi := by
  have hnodup : l.Nodup := h.1.imp fun hlt => Nat.ne_of_lt hlt
  have hsub : l ⊆ List.range hi := fun x hx => List.mem_range.2 (h.2 x hx).2
  simpa using (hnodup.subperm hsub).length_le

/-- The walk back from line i puts in front of what it has found only rising indices below i (R114). -/
theorem walkBack_rising (tie : LcsTie) (as bs : List Line) (table : List (List Nat)) {hi : Nat} (fuel i j : Nat)
    (acc : List Nat) (hacc : RisingWithin i hi acc) (hle : i ≤ hi) :
    RisingWithin 0 hi (walkBack tie as bs table fuel i j acc) := by
  induction fuel generalizing i j acc with
  | zero => exact hacc.mono (Nat.zero_le i)
  | succ fuel ih =>
    unfold walkBack
    split
    · exact hacc.mono (Nat.zero_le i)
    · next hij =>
      have hi0 : i - 1 + 1 = i := by omega
      split
      · exact ih (i - 1) (j - 1) _ (RisingWithin.cons (by rwa [hi0]) (by omega)) (by omega)
      · split
        · exact ih i (j - 1) acc hacc hle
        · exact ih (i - 1) j acc (hacc.mono (by omega)) (by omega)

theorem lcsIndices_rising (tie : LcsTie) (as bs : List Line) : RisingWithin 0 as.length (lcsIndices tie as bs) :=
  walkBack_rising tie as bs _ _ _ _ _ (RisingWithin.nil _ _) le_rfl

end Sys2Proof.Machine
end

section
/-! PROOF. The results of BTREE fit their buffers: FREQ counts every symbol of TEXT once, and the merging makes at most
2·FREQ_CNT − 1 records whose frequencies are at most TEXT_LEN (R132, R133, R10). -/

namespace Sys2Proof.Machine

/-! ### FREQ -/

/-- A frequency table of `n` symbols (R35, R132): within the capacity, each symbol once, each counted at least once, and the
counts add up to `n`. -/
structure FreqTable (cap n : Nat) (f : List FreqEntry) : Prop where
  length_le : f.length ≤ cap
  nodup : (f.map FreqEntry.sym).Nodup
  pos : ∀ e ∈ f, 1 ≤ e.cnt
  sum_eq : (f.map FreqEntry.cnt).sum = n

namespace FreqTable

theorem nil (cap : Nat) : FreqTable cap 0 [] := ⟨Nat.zero_le _, by simp, by simp, rfl⟩

/-- Counting a symbol that has an entry counts one more. -/
theorem bump {cap n : Nat} {x : Symbol} {f f' : List FreqEntry} (h : FreqTable cap n f)
    (hb : Machine.bump x f = some f') : FreqTable cap (n + 1) f' := by
  obtain ⟨u, e, v, rfl, -, -, rfl⟩ := bump_some hb
  refine ⟨by simpa using h.length_le, by simpa using h.nodup, fun e' he' => ?_, ?_⟩
  · have hpos := h.pos
    simp only [List.mem_append, List.mem_cons] at he' hpos
    rcases he' with hu | rfl | hv
    · exact hpos e' (.inl hu)
    · exact Nat.le_add_left _ _
    · exact hpos e' (.inr (.inr hv))
  · have hsum := h.sum_eq
    simp only [List.map_append, List.map_cons, List.sum_append, List.sum_cons] at hsum ⊢
    omega

/-- Counting a symbol that has none adds its entry. -/
theorem append {cap n : Nat} {x : Symbol} {f f' : List FreqEntry} (h : FreqTable cap n f)
    (hb : Machine.bump x f = none) (ha : appendTo cap f ⟨x, 1⟩ = some f') : FreqTable cap (n + 1) f' := by
  have hlen := appendTo_length_le ha h.length_le
  obtain ⟨-, rfl⟩ := appendTo_some ha
  have hnew := bump_none.1 hb
  refine ⟨hlen, ?_, fun e he => ?_, ?_⟩
  · rw [List.map_append, List.map_singleton, ← List.concat_eq_append]
    exact h.nodup.concat (by simpa using hnew)
  · rcases List.mem_append.1 he with he | he
    · exact h.pos e he
    · rw [List.mem_singleton.1 he]
  · simp [h.sum_eq]

theorem cnt_le {cap n : Nat} {f : List FreqEntry} (h : FreqTable cap n f) {e : FreqEntry} (he : e ∈ f) : e.cnt ≤ n := by
  rw [← h.sum_eq]
  exact List.single_le_sum (fun _ _ => Nat.zero_le _) _ (List.mem_map_of_mem he)

theorem ne_nil {cap n : Nat} {f : List FreqEntry} (h : FreqTable cap n f) (hn : n ≠ 0) : f ≠ [] := by
  rintro rfl
  exact hn h.sum_eq.symm

end FreqTable

/-- The count of R132 makes a frequency table of what it had and the symbols to come. -/
theorem countFreq_freqTable {cap : Nat} {t : List Symbol} {k n : Nat} {f f' : List FreqEntry} (hf : FreqTable cap n f)
    (h : countFreq cap t k f = .ok f') : FreqTable cap (n + t.length) f' := by
  induction t generalizing k n f with
  | nil => cases h; exact hf
  | cons x rest ih =>
    rw [List.length_cons, Nat.add_comm rest.length, ← Nat.add_assoc]
    unfold countFreq at h
    cases hb : bump x f with
    | some g => rw [hb] at h; exact ih (hf.bump hb) h
    | none =>
      rw [hb] at h
      cases ha : appendTo cap f ⟨x, 1⟩ with
      | some g => simp only [ha] at h; exact ih (hf.append hb ha) h
      | none => simp [ha] at h

/-! ### The merging -/

theorem freqAt_append_left {nodes : List NodeRec} {q : Nat} (h : q < nodes.length) (more : List NodeRec) :
    freqAt (nodes ++ more) q = freqAt nodes q := by
  simp [freqAt, List.getElem?_append_left h]

theorem freqAt_append_last (nodes : List NodeRec) (n : NodeRec) : freqAt (nodes ++ [n]) nodes.length = n.freq := by
  simp [freqAt]

/-- One pass of the merging (R133) takes two indices from a queue and puts the index of the new record at its end; what
every such pass keeps, the whole loop keeps. -/
theorem mergeLoop_induction {P : List NodeRec → List Nat → Prop} (order : List NodeRec → Nat → Nat → Bool)
    (pass : ∀ (nodes : List NodeRec) (queue : List Nat) (x y : Nat) (rest : List Nat), queue.Perm (x :: y :: rest) →
      P nodes queue →
      P (nodes ++ [.internal (freqAt nodes x + freqAt nodes y) x y]) (rest ++ [nodes.length]))
    (fuel : Nat) (nodes : List NodeRec) (queue : List Nat) (h : P nodes queue) :
    ∃ queue', P (mergeLoop order fuel nodes queue) queue' := by
  induction fuel generalizing nodes queue with
  | zero => exact ⟨queue, by simpa [mergeLoop] using h⟩
  | succ fuel ih =>
    match queue with
    | [] => exact ⟨[], h⟩
    | [q] => exact ⟨[q], h⟩
    | q0 :: q1 :: qs =>
      have hx := List.perm_cons_erase (leastOf_mem (order nodes) q0 (q1 :: qs))
      simp only [mergeLoop]
      split
      · exact ⟨_, h⟩
      · next r rs hr =>
        have hy := List.perm_cons_erase (leastOf_mem (order nodes) r rs)
        rw [hr] at hx
        exact ih _ _ (pass nodes _ _ _ _ (hx.trans (hy.cons _)) h)

/-- What holds of the records and the queue while `records` are being made of leaves whose frequencies add up to `total`:
the fields fit, the queue names records and is not empty, each pass turns one place of the queue into a record, and the
frequencies in the queue add up to `total`. -/
structure Merging (records total : Nat) (nodes : List NodeRec) (queue : List Nat) : Prop where
  fits : ∀ n ∈ nodes, nodeFits n = true
  inRange : ∀ q ∈ queue, q < nodes.length
  ne_nil : queue ≠ []
  size : nodes.length + queue.length = records
  mass : (queue.map (freqAt nodes)).sum = total

theorem Merging.pass {records total : Nat} (hrecords : records ≤ 2 ^ 16 + 1) (htotal : total < 2 ^ 32)
    {nodes : List NodeRec} {queue : List Nat} {x y : Nat} {rest : List Nat} (hperm : queue.Perm (x :: y :: rest))
    (h : Merging records total nodes queue) :
    Merging records total (nodes ++ [.internal (freqAt nodes x + freqAt nodes y) x y]) (rest ++ [nodes.length]) := by
  have hin : ∀ q ∈ x :: y :: rest, q < nodes.length := fun q hq => h.inRange q (hperm.mem_iff.2 hq)
  have hx := hin x (by simp)
  have hy := hin y (by simp)
  have hmass : freqAt nodes x + (freqAt nodes y + (rest.map (freqAt nodes)).sum) = total := by
    rw [← h.mass, (hperm.map (freqAt nodes)).sum_eq]
    rfl
  have hsize : nodes.length + (rest.length + 2) = records := by
    rw [← h.size, hperm.length_eq]
    rfl
  refine ⟨fun n hn => ?_, fun q hq => ?_, by simp, by simp; omega, ?_⟩
  · rcases List.mem_append.1 hn with hn | hn
    · exact h.fits n hn
    · rw [List.mem_singleton.1 hn]
      simp only [nodeFits, Bool.and_eq_true, decide_eq_true_eq]
      omega
  · rw [List.length_append, List.length_singleton]
    rcases List.mem_append.1 hq with hq | hq
    · exact Nat.lt_succ_of_lt (hin q (by simp [hq]))
    · rw [List.mem_singleton.1 hq]
      exact Nat.lt_succ_self _
  · have hrest : rest.map (freqAt (nodes ++ [.internal (freqAt nodes x + freqAt nodes y) x y])) =
        rest.map (freqAt nodes) :=
      List.map_congr_left fun q hq => freqAt_append_left (hin q (by simp [hq])) _
    rw [List.map_append, List.sum_append, hrest, List.map_singleton, freqAt_append_last, List.sum_singleton]
    simp only [NodeRec.freq]
    omega

@[simp] theorem leavesOf_length (f : List FreqEntry) : (leavesOf f).length = f.length := by simp [leavesOf]

theorem map_freqAt_leavesOf (f : List FreqEntry) :
    (List.range f.length).map (freqAt (leavesOf f)) = f.map FreqEntry.cnt := by
  refine List.ext_getElem (by simp) fun i hi _ => ?_
  have hi' : i < f.length := by simpa using hi
  simp [freqAt, leavesOf, hi', NodeRec.freq]

/-- The merging starts from the leaves, all of them in the queue (R133). -/
theorem FreqTable.merging {cap n : Nat} {f : List FreqEntry} (h : FreqTable cap n f) (hf : f ≠ []) (hn : n < 2 ^ 32) :
    Merging (2 * f.length) n (leavesOf f) (List.range f.length) := by
  refine ⟨fun r hr => ?_, by simp, by simpa using hf, by simp; omega, ?_⟩
  · obtain ⟨e, he, rfl⟩ := List.mem_map.1 hr
    have hcnt := h.cnt_le he
    simp only [nodeFits, decide_eq_true_eq]
    omega
  · rw [map_freqAt_leavesOf, h.sum_eq]

/-- The records of BTREE fit NODE, and their fields their widths (R133, R10), under any queue order. -/
theorem buildNodes_fits {cap n : Nat} {f : List FreqEntry} (order : List NodeRec → Nat → Nat → Bool)
    (h : FreqTable cap n f) (hf : f ≠ []) (hn : n < 2 ^ 32) (hcap : 2 * cap - 1 ≤ 2 ^ 16) :
    (buildNodes order f).length ≤ 2 * cap - 1 ∧ ∀ r ∈ buildNodes order f, nodeFits r = true := by
  have hlen := h.length_le
  obtain ⟨queue, hm⟩ := mergeLoop_induction order
    (fun _ _ _ _ _ hperm hm => hm.pass (records := 2 * f.length) (total := n) (by omega) hn hperm)
    f.length _ _ (h.merging hf hn)
  have hqueue := List.length_pos_iff.2 hm.ne_nil
  have hsize := hm.size
  exact ⟨by rw [buildNodes]; omega, hm.fits⟩

end Sys2Proof.Machine
end

section
/-! PROOF. The result of BCODES fits CODE: a tree has one leaf more than it has internal records, and the way to a leaf goes
through internal records of falling index (R140, R142, R38). -/

namespace Sys2Proof.Machine

/-! ### The records of a tree -/

/-- A tree without a fault is TreeOK (R140). -/
theorem treeOK_of_treeFault_none {nodes : List NodeRec} (h : treeFault nodes = none) : TreeOK nodes := by
  unfold treeFault at h
  split at h
  · cases h
  · next hne =>
    split at h
    · cases h
    · next hb =>
      refine ⟨Nat.pos_of_ne_zero hne, fun p f l r hp => ?_, fun q hq => ?_⟩
      · have hlt : p < nodes.length := (List.getElem?_eq_some_iff.1 hp).1
        have hok := List.find?_eq_none.1 hb p (List.mem_range.2 hlt)
        simpa [recordOk, hp, childrenBelow, and_assoc] using hok
      · simpa using List.find?_eq_none.1 h q (List.mem_range.2 hq)

/-- How many records are internal. -/
def internalCount (nodes : List NodeRec) : Nat := nodes.countP fun n => !n.isLeaf

theorem children_length (nodes : List NodeRec) : (nodes.flatMap NodeRec.children).length = 2 * internalCount nodes := by
  induction nodes with
  | nil => rfl
  | cons n ns ih =>
    rw [List.flatMap_cons, List.length_append, ih]
    cases n with
    | leaf => simp [NodeRec.children, internalCount, NodeRec.isLeaf]
    | internal => simp [NodeRec.children, internalCount, NodeRec.isLeaf]; omega

theorem leafSymbols_length (nodes : List NodeRec) : (leafSymbols nodes).length + internalCount nodes = nodes.length := by
  induction nodes with
  | nil => rfl
  | cons n ns ih =>
    cases n with
    | leaf => simp [leafSymbols, internalCount, NodeRec.isLeaf] at ih ⊢; omega
    | internal => simp [leafSymbols, internalCount, NodeRec.isLeaf] at ih ⊢; omega

theorem mem_leafSymbols {nodes : List NodeRec} {p : Nat} {x : Symbol} {f : Nat} (h : nodes[p]? = some (.leaf x f)) :
    x ∈ leafSymbols nodes :=
  List.mem_filterMap.2 ⟨_, List.mem_of_getElem? h, rfl⟩

/-- The children of a tree are its records but the root, each once (R140 (b), (c)). -/
theorem children_perm_of_treeOK {nodes : List NodeRec} (h : TreeOK nodes) :
    (nodes.flatMap NodeRec.children).Perm (List.range (nodes.length - 1)) := by
  obtain ⟨-, hbelow, hcount⟩ := h
  have hmem : ∀ q ∈ nodes.flatMap NodeRec.children, q < nodes.length - 1 := by
    intro q hq
    obtain ⟨n, hn, hqn⟩ := List.mem_flatMap.1 hq
    obtain ⟨p, hp⟩ := List.mem_iff_getElem?.1 hn
    have hlt : p < nodes.length := (List.getElem?_eq_some_iff.1 hp).1
    cases n with
    | leaf => simp [NodeRec.children] at hqn
    | internal f l r =>
      obtain ⟨hl, hr, -⟩ := hbelow p f l r hp
      simp only [NodeRec.children, List.mem_cons, List.not_mem_nil, or_false] at hqn
      omega
  refine List.perm_iff_count.2 fun q => ?_
  by_cases hq : q < nodes.length - 1
  · rw [List.count_eq_one_of_mem List.nodup_range (List.mem_range.2 hq)]
    exact hcount q hq
  · rw [List.count_eq_zero_of_not_mem fun hm => hq (hmem q hm),
      List.count_eq_zero_of_not_mem fun hm => hq (List.mem_range.1 hm)]

/-- A tree has an odd number of records, two for each internal one and one more. -/
theorem length_of_treeOK {nodes : List NodeRec} (h : TreeOK nodes) : nodes.length = 2 * internalCount nodes + 1 := by
  have hlen := (children_perm_of_treeOK h).length_eq
  have hne := h.1
  rw [children_length, List.length_range] at hlen
  omega

/-- A tree has one leaf more than it has internal records. -/
theorem leafSymbols_length_of_treeOK {nodes : List NodeRec} (h : TreeOK nodes) :
    (leafSymbols nodes).length = internalCount nodes + 1 := by
  have hlen := leafSymbols_length nodes
  have htree := length_of_treeOK h
  omega

/-! ### The traversal -/

/-- How many records above index p are internal. -/
def internalAbove (nodes : List NodeRec) (p : Nat) : Nat := internalCount (nodes.drop (p + 1))

theorem internalCount_drop_le (nodes : List NodeRec) (n : Nat) : internalCount (nodes.drop n) ≤ internalCount nodes :=
  (List.drop_sublist n nodes).countP_le

/-- Below an internal record there is one internal record more above. -/
theorem internalAbove_lt {nodes : List NodeRec} {p q f l r : Nat} (hp : nodes[p]? = some (.internal f l r)) (hq : q < p) :
    internalAbove nodes p < internalAbove nodes q := by
  obtain ⟨hlt, hget⟩ := List.getElem?_eq_some_iff.1 hp
  have hcons : internalCount (nodes.drop p) = internalAbove nodes p + 1 := by
    rw [List.drop_eq_getElem_cons hlt, hget]
    simp [internalAbove, internalCount, NodeRec.isLeaf]
  have hdrop : (nodes.drop (q + 1)).drop (p - (q + 1)) = nodes.drop p := by
    rw [List.drop_drop]
    congr 1
    omega
  have hle := internalCount_drop_le (nodes.drop (q + 1)) (p - (q + 1))
  rw [hdrop, hcons] at hle
  exact hle

/-- The stack of R142: the way to each index is no longer than there are internal records above it, and no leaf is reached by
the empty way. -/
def WaysWithin (nodes : List NodeRec) (stack : List (Nat × List Bool)) : Prop :=
  ∀ e ∈ stack, e.2.length ≤ internalAbove nodes e.1 ∧ (e.2 = [] → ∀ x f, nodes[e.1]? ≠ some (.leaf x f))

/-- The two children of an internal record take its place on the stack. -/
theorem WaysWithin.children {nodes : List NodeRec} (hT : TreeOK nodes) {p f l r : Nat} {pre : List Bool}
    {stack : List (Nat × List Bool)} (hp : nodes[p]? = some (.internal f l r)) (h : WaysWithin nodes ((p, pre) :: stack)) :
    WaysWithin nodes ((l, pre ++ [false]) :: (r, pre ++ [true]) :: stack) := by
  obtain ⟨hl, hr, -⟩ := hT.2.1 p f l r hp
  obtain ⟨⟨hpre, -⟩, hstack⟩ := List.forall_mem_cons.1 h
  refine List.forall_mem_cons.2 ⟨⟨?_, by simp⟩, List.forall_mem_cons.2 ⟨⟨?_, by simp⟩, hstack⟩⟩
  · have := internalAbove_lt hp hl
    simp at hpre ⊢; omega
  · have := internalAbove_lt hp hr
    simp at hpre ⊢; omega

/-- A code map made of leaves of the records (R38): each symbol once, and codes of one bit to `len` bits. -/
structure CodeMap (nodes : List NodeRec) (len : Nat) (code : List CodeEntry) : Prop where
  nodup : (code.map CodeEntry.sym).Nodup
  leaf : ∀ e ∈ code, e.sym ∈ leafSymbols nodes
  bounds : ∀ e ∈ code, 1 ≤ e.bits.length ∧ e.bits.length ≤ len

theorem CodeMap.nil (nodes : List NodeRec) (len : Nat) : CodeMap nodes len [] := ⟨by simp, by simp, by simp⟩

theorem CodeMap.append {nodes : List NodeRec} {len : Nat} {code : List CodeEntry} (h : CodeMap nodes len code) {x : Symbol}
    {bits : List Bool} (hnew : hasCode x code = false) (hx : x ∈ leafSymbols nodes) (hpos : 1 ≤ bits.length)
    (hle : bits.length ≤ len) : CodeMap nodes len (code ++ [⟨x, bits⟩]) := by
  have hnot : x ∉ code.map CodeEntry.sym := by
    intro hm
    obtain ⟨e, he, hex⟩ := List.mem_map.1 hm
    rw [hasCode_iff.2 ⟨e, he, hex⟩] at hnew
    cases hnew
  refine ⟨?_, fun e he => ?_, fun e he => ?_⟩
  · rw [List.map_append, List.map_singleton, ← List.concat_eq_append]
    exact h.nodup.concat hnot
  · rcases List.mem_append.1 he with he | he
    · exact h.leaf e he
    · rw [List.mem_singleton.1 he]; exact hx
  · rcases List.mem_append.1 he with he | he
    · exact h.bounds e he
    · rw [List.mem_singleton.1 he]; exact ⟨hpos, hle⟩

theorem CodeMap.length_le {nodes : List NodeRec} {len : Nat} {code : List CodeEntry} (h : CodeMap nodes len code) :
    code.length ≤ (leafSymbols nodes).length := by
  have hsub : code.map CodeEntry.sym ⊆ leafSymbols nodes := by
    intro x hx
    obtain ⟨e, he, rfl⟩ := List.mem_map.1 hx
    exact h.leaf e he
  simpa using (h.nodup.subperm hsub).length_le

/-- The traversal of a tree adds to a code map leaves with codes no longer than there are internal records (R142, R144). -/
theorem traverse_codeMap {nodes : List NodeRec} (hT : TreeOK nodes) (fuel : Nat) (stack : List (Nat × List Bool))
    (code : List CodeEntry) {c : List CodeEntry} (hs : WaysWithin nodes stack)
    (hc : CodeMap nodes (internalCount nodes) code) (h : traverse nodes fuel stack code = .ok c) :
    CodeMap nodes (internalCount nodes) c := by
  induction fuel generalizing stack code with
  | zero => cases stack <;> (cases h; exact hc)
  | succ fuel ih =>
    match stack with
    | [] => cases h; exact hc
    | (p, pre) :: stack =>
      obtain ⟨⟨hlen, hne⟩, hrest⟩ := List.forall_mem_cons.1 hs
      unfold traverse at h
      split at h
      · next x f hp =>
        split at h
        · cases h
        · next hnew =>
          have hpos : 1 ≤ pre.length := List.length_pos_iff.2 fun he => hne he x f hp
          exact ih stack _ hrest (hc.append (Bool.eq_false_iff.2 hnew) (mem_leafSymbols hp) hpos
            (hlen.trans (internalCount_drop_le nodes (p + 1)))) h
      · next f l r hp => exact ih _ code (WaysWithin.children hT hp hs) hc h
      · exact ih stack code hrest hc h

/-- The code map of a tree (R142, R143). -/
theorem codesOf_codeMap {nodes : List NodeRec} (hT : TreeOK nodes) {c : List CodeEntry} (h : codesOf nodes = .ok c) :
    CodeMap nodes (max 1 (internalCount nodes)) c := by
  unfold codesOf at h
  split at h
  · next x f hroot =>
    cases h
    exact (CodeMap.nil nodes _).append rfl (mem_leafSymbols hroot) le_rfl (le_max_left _ _)
  · next hroot =>
    have hstart : WaysWithin nodes [(nodes.length - 1, [])] :=
      List.forall_mem_cons.2 ⟨⟨Nat.zero_le _, fun _ => hroot⟩, by simp⟩
    have hc := traverse_codeMap hT _ _ _ hstart (CodeMap.nil _ _) h
    exact ⟨hc.nodup, hc.leaf, fun e he => ⟨(hc.bounds e he).1, (hc.bounds e he).2.trans (le_max_right _ _)⟩⟩

end Sys2Proof.Machine
end

section
/-! PROOF. The results of ENCODE, DECODE, PACK and UNPACK fit their buffers (R160, R173, R174, R186, R190). -/

namespace Sys2Proof.Machine

/-- ENCODE keeps what it has written within the capacity (R160, R162). -/
theorem encodeFrom_length_le {cap : Nat} {code : List CodeEntry} {t : List Symbol} {k : Nat} {out b : List Bool}
    (hout : out.length ≤ cap) (h : encodeFrom cap code t k out = .ok b) : b.length ≤ cap := by
  induction t generalizing k out with
  | nil => cases h; exact hout
  | cons x rest ih =>
    unfold encodeFrom at h
    split at h
    · cases h
    · next c _ =>
      rw [appendBits_eq hout] at h
      split at h
      · cases h
      · next out' happ =>
        split at happ
        · next hfit => cases happ; exact ih (by simpa using hfit) h
        · cases happ

/-- DECODE under a single-leaf tree keeps its text within the capacity (R174). -/
theorem decodeLeaf_length_le {x : Symbol} {cap : Nat} {bits : List Bool} {k : Nat} {out t : List Symbol}
    (hout : out.length ≤ cap) (h : decodeLeaf x cap bits k out = .ok t) : t.length ≤ cap := by
  induction bits generalizing k out with
  | nil => cases h; exact hout
  | cons b rest ih =>
    unfold decodeLeaf at h
    split at h
    · cases h
    · split at h
      · next happ => exact ih (appendTo_length_le happ hout) h
      · cases h

/-- DECODE under a root that is internal keeps its text within the capacity (R173). -/
theorem decodeFrom_length_le {nodes : List NodeRec} {cap root : Nat} {bits : List Bool} {k cur : Nat}
    {out : List Symbol} {r : List Symbol × Nat} (hout : out.length ≤ cap)
    (h : decodeFrom nodes cap root bits k cur out = .ok r) : r.1.length ≤ cap := by
  induction bits generalizing k cur out with
  | nil => cases h; exact hout
  | cons b rest ih =>
    unfold decodeFrom at h
    split at h
    · split at h
      · next happ => exact ih (appendTo_length_le happ hout) h
      · cases h
    · exact ih hout h

theorem decodeBits_length_le {nodes : List NodeRec} {cap : Nat} {bits : List Bool} {t : List Symbol} {p : Bool}
    (h : decodeBits nodes cap bits = .ok (t, p)) : t.length ≤ cap := by
  unfold decodeBits at h
  simp only at h
  split at h
  · split at h
    · next hd => cases h; exact decodeLeaf_length_le (out := []) (Nat.zero_le cap) hd
    · cases h
  · split at h
    · next hd => cases h; exact decodeFrom_length_le (out := []) (Nat.zero_le cap) hd
    · cases h

/-- The packed bits fit BYTES when the bits fit BITS, as MAX_BITS is a multiple of 8 (R9, R186). -/
theorem packBits_length_le {c : Config} (hc : c.maxBits % 8 = 0) {bits : List Bool} (h : bits.length ≤ c.maxBits) :
    (packBits bits).length ≤ c.maxBytes := by
  rw [packBits_length, ceil8, Config.maxBytes]
  omega

/-- The unpacked bits fit BITS when the bytes fit BYTES (R190). -/
theorem unpackBytes_length_le {c : Config} {bytes : List Byte} (h : bytes.length ≤ c.maxBytes) :
    (unpackBytes bytes).length ≤ c.maxBits := by
  rw [unpackBytes_length]
  rw [Config.maxBytes] at h
  omega

end Sys2Proof.Machine
end

section
/-! PROOF. O58: every step keeps the canonical form of the buffers. First what may be written to the buffers of each unit, then
the rule of each command, then the step. -/

namespace Sys2Proof

open Machine

/-- What the invariant needs of the constraints of R9. -/
theorem Config.bounds_of_wf {c : Config} (h : c.wf = true) :
    2 * c.maxInSyms + 4 * c.maxLines ≤ c.maxText ∧ c.maxNodes ≤ 65536 ∧ c.maxBits % 8 = 0 ∧ 4 * c.maxText < 2 ^ 32 := by
  simp only [Config.wf, Bool.and_eq_true, decide_eq_true_eq] at h
  omega

namespace Memory

theorem cfg_wf {s : State} (h : Memory.wf s = true) : s.cfg.wf = true := ((wf_iff s).1 h).1

/-! ### What may be written to the buffers of each unit -/

theorem wf_withDiff {s : State} (h : Memory.wf s = true) {l : List Nat} {t : List Symbol} (hl : l.length ≤ s.cfg.maxLines)
    (hrise : l.Pairwise (· < ·)) (ht : t.length ≤ s.cfg.maxText) :
    Memory.wf { s with lcs := l, text := t } = true := by
  rw [wf_iff] at h ⊢
  obtain ⟨hcfg, ha, hb, -, -, hdtext, hfreq, hnode, hcode, hbits, hbytes⟩ := h
  exact ⟨hcfg, ha, hb, ⟨hl, hrise⟩, ht, hdtext, hfreq, hnode, hcode, hbits, hbytes⟩

/-- BTREE empties CODE whether or not it raises (R137, R241). -/
theorem wf_withTree {s : State} (h : Memory.wf s = true) {f : List FreqEntry} {ns : List NodeRec}
    (hfreq : f.length ≤ s.cfg.maxSyms ∧ (f.map FreqEntry.sym).Nodup ∧ ∀ e ∈ f, 1 ≤ e.cnt ∧ e.cnt < 2 ^ 32)
    (hnode : ns.length ≤ s.cfg.maxNodes ∧ ∀ n ∈ ns, nodeFits n = true) :
    Memory.wf { s with freq := f, node := ns, code := [] } = true := by
  rw [wf_iff] at h ⊢
  obtain ⟨hcfg, ha, hb, hlcs, htext, hdtext, -, -, -, hbits, hbytes⟩ := h
  exact ⟨hcfg, ha, hb, hlcs, htext, hdtext, hfreq, hnode, by simp, hbits, hbytes⟩

theorem wf_withCode {s : State} (h : Memory.wf s = true) {c : List CodeEntry} (hlen : c.length ≤ s.cfg.maxSyms)
    (hnodup : (c.map CodeEntry.sym).Nodup) (hbounds : ∀ e ∈ c, 1 ≤ e.bits.length ∧ e.bits.length ≤ s.cfg.maxCodeLen) :
    Memory.wf { s with code := c } = true := by
  rw [wf_iff] at h ⊢
  obtain ⟨hcfg, ha, hb, hlcs, htext, hdtext, hfreq, hnode, -, hbits, hbytes⟩ := h
  exact ⟨hcfg, ha, hb, hlcs, htext, hdtext, hfreq, hnode, ⟨hlen, hnodup, hbounds⟩, hbits, hbytes⟩

theorem wf_writeBits {s : State} (h : Memory.wf s = true) {b : List Bool} (hb : b.length ≤ s.cfg.maxBits) :
    Memory.wf (writeBits b s) = true := by
  rw [wf_iff] at h ⊢
  obtain ⟨hcfg, ha, hb', hlcs, htext, hdtext, hfreq, hnode, hcode, -, hbytes⟩ := h
  exact ⟨hcfg, ha, hb', hlcs, htext, hdtext, hfreq, hnode, hcode, hb, hbytes⟩

theorem wf_writeDecode {s : State} (h : Memory.wf s = true) {t : List Symbol} (ht : t.length ≤ s.cfg.maxText) (p : Bool) :
    Memory.wf (writeDecode t p s) = true := by
  rw [wf_iff] at h ⊢
  obtain ⟨hcfg, ha, hb, hlcs, htext, -, hfreq, hnode, hcode, hbits, hbytes⟩ := h
  exact ⟨hcfg, ha, hb, hlcs, htext, ht, hfreq, hnode, hcode, hbits, hbytes⟩

theorem wf_writePack {s : State} (h : Memory.wf s = true) : Memory.wf (writePack s) = true := by
  obtain ⟨-, -, hmod, -⟩ := Config.bounds_of_wf (cfg_wf h)
  rw [wf_iff] at h ⊢
  obtain ⟨hcfg, ha, hb, hlcs, htext, hdtext, hfreq, hnode, hcode, hbits, -⟩ := h
  exact ⟨hcfg, ha, hb, hlcs, htext, hdtext, hfreq, hnode, hcode, hbits, packBits_length_le hmod hbits⟩

/-- What RUN clears first leaves the buffers it does not clear (R206). -/
theorem wf_clearRunOutputs {s : State} (h : Memory.wf s = true) : Memory.wf (clearRunOutputs s) = true := by
  rw [wf_iff] at h ⊢
  obtain ⟨hcfg, ha, hb, -⟩ := h
  exact ⟨hcfg, ha, hb, by simp [clearRunOutputs, clearResultFlags]⟩

/-! ### The results of the commands -/

theorem wf_writeDiff {s : State} (h : Memory.wf s = true) : Memory.wf (writeDiff s) = true := by
  obtain ⟨htext, -⟩ := Config.bounds_of_wf (cfg_wf h)
  obtain ⟨-, ha, hb, -⟩ := (wf_iff s).1 h
  obtain ⟨-, hlines, -⟩ := (linesWf_iff _ _ _).1 ha
  have hlcs := lcsIndices_rising s.cfg.lcsTie (linesA s) (linesB s)
  have hlen : (linesA s).length ≤ s.cfg.maxLines := by rwa [linesA, linesOf_length]
  exact wf_withDiff h (hlcs.length_le.trans hlen) hlcs.1 (diffText_length_le htext ha hb _)

theorem wf_writeTree {s : State} (h : Memory.wf s = true) {f : List FreqEntry} (htext : s.text ≠ [])
    (hf : countFreq s.cfg.maxSyms s.text 0 [] = .ok f) : Memory.wf (writeTree f s) = true := by
  obtain ⟨-, hnodes, -, hword⟩ := Config.bounds_of_wf (cfg_wf h)
  obtain ⟨-, -, -, -, hlen, -⟩ := (wf_iff s).1 h
  have htable := countFreq_freqTable (FreqTable.nil s.cfg.maxSyms) hf
  rw [Nat.zero_add] at htable
  have hsmall : s.text.length < 2 ^ 32 := by omega
  have hne : f ≠ [] := htable.ne_nil (by simpa using htext)
  exact wf_withTree h
    ⟨htable.length_le, htable.nodup, fun e he => ⟨htable.pos e he, (htable.cnt_le he).trans_lt hsmall⟩⟩
    (buildNodes_fits byFreqThenIndex htable hne hsmall hnodes)

theorem wf_writeCode {s : State} (h : Memory.wf s = true) {c : List CodeEntry} (hT : TreeOK s.node)
    (hc : codesOf s.node = .ok c) : Memory.wf (writeCode c s) = true := by
  obtain ⟨-, -, -, -, -, -, -, ⟨hnode, -⟩, -⟩ := (wf_iff s).1 h
  have hmap := codesOf_codeMap hT hc
  have hlen := hmap.length_le
  have hleaves := leafSymbols_length_of_treeOK hT
  have hrecords := length_of_treeOK hT
  rw [Config.maxNodes] at hnode
  have hinternal : max 1 (internalCount s.node) ≤ s.cfg.maxCodeLen := max_le_max le_rfl (by omega)
  exact wf_withCode h (by omega) hmap.nodup fun e he =>
    ⟨(hmap.bounds e he).1, (hmap.bounds e he).2.trans hinternal⟩

theorem wf_invalidateDiff {s : State} (h : Memory.wf s = true) : Memory.wf (invalidateDiff s) = true :=
  wf_withDiff h (Nat.zero_le _) .nil (Nat.zero_le _)

theorem wf_invalidateTree {s : State} (h : Memory.wf s = true) : Memory.wf (invalidateTree s) = true :=
  wf_withTree h (by simp) (by simp)

theorem wf_invalidateCode {s : State} (h : Memory.wf s = true) : Memory.wf (invalidateCode s) = true :=
  wf_withCode h (Nat.zero_le _) .nil (by simp)

theorem wf_invalidateBits {s : State} (h : Memory.wf s = true) : Memory.wf (invalidateBits s) = true :=
  wf_writeBits h (Nat.zero_le _)

theorem wf_invalidateDecode {s : State} (h : Memory.wf s = true) : Memory.wf (invalidateDecode s) = true :=
  wf_writeDecode h (Nat.zero_le _) false

/-! ### The rules of the commands -/

/-- The state a rule leaves, whether or not it raised, has the canonical form. -/
def EndsWf : Ended → Prop
  | .ok s => Memory.wf s = true
  | .error s => Memory.wf s = true

/-- The error entry touches no buffer: after it the form is that of the invalidated outputs (R240). -/
theorem endsWf_raised {s : State} (h : Memory.wf s = true) (e : ErrCode) (i0 i1 : Word) (ph st : BitVec 4) :
    EndsWf (.error (errorEntry e i0 i1 ph st s)) := h

/-- A rule keeps the canonical form. -/
def KeepsWf (body : State → Ended) : Prop := ∀ s, Memory.wf s = true → EndsWf (body s)

theorem keepsWf_diffBody : KeepsWf diffBody := by
  intro s h
  rcases diffBody_cases s with ⟨-, he⟩ | ⟨-, -, he⟩ | ⟨-, -, he⟩ <;> rw [he]
  · exact endsWf_raised (wf_invalidateDiff h) _ _ _ _ _
  · exact endsWf_raised (wf_invalidateDiff h) _ _ _ _ _
  · exact wf_writeDiff h

theorem keepsWf_btreeBody : KeepsWf btreeBody := by
  intro s h
  rcases btreeBody_cases s with ⟨-, he⟩ | ⟨_, _, -, -, he⟩ | ⟨f, htext, hf, he⟩ <;> rw [he]
  · exact endsWf_raised (wf_invalidateTree h) _ _ _ _ _
  · exact endsWf_raised (wf_invalidateTree h) _ _ _ _ _
  · exact wf_writeTree h htext hf

theorem keepsWf_bcodesBody : KeepsWf bcodesBody := by
  intro s h
  rcases bcodesBody_cases s with ⟨_, -, he⟩ | ⟨_, _, -, -, he⟩ | ⟨c, htree, hc, he⟩ <;> rw [he]
  · exact endsWf_raised (wf_invalidateCode h) _ _ _ _ _
  · exact endsWf_raised (wf_invalidateCode h) _ _ _ _ _
  · exact wf_writeCode h (treeOK_of_treeFault_none htree) hc

theorem keepsWf_encodeBody : KeepsWf encodeBody := by
  intro s h
  rcases encodeBody_cases s with ⟨_, _, _, -, he⟩ | ⟨b, hb, he⟩ <;> rw [he]
  · exact endsWf_raised (wf_invalidateBits h) _ _ _ _ _
  · exact wf_writeBits h (encodeFrom_length_le (Nat.zero_le _) hb)

theorem keepsWf_decodeBody : KeepsWf decodeBody := by
  intro s h
  rcases decodeBody_cases s with ⟨-, he⟩ | ⟨_, -, -, he⟩ | ⟨_, _, _, -, -, -, he⟩ | ⟨t, p, -, -, hd, he⟩ <;> rw [he]
  · exact wf_writeDecode h (Nat.zero_le _) false
  · exact endsWf_raised (wf_invalidateDecode h) _ _ _ _ _
  · exact endsWf_raised (wf_invalidateDecode h) _ _ _ _ _
  · exact wf_writeDecode h (decodeBits_length_le hd) p

theorem keepsWf_packBody : KeepsWf packBody := fun _ h => wf_writePack h

theorem unpackBytes_length_le_maxBits {s : State} (h : Memory.wf s = true) :
    (unpackBytes s.bytes).length ≤ s.cfg.maxBits := by
  obtain ⟨-, -, -, -, -, -, -, -, -, -, hbytes⟩ := (wf_iff s).1 h
  exact unpackBytes_length_le hbytes

theorem keepsWf_unpackBody : KeepsWf unpackBody := fun _ h => wf_writeBits h (unpackBytes_length_le_maxBits h)

theorem keepsWf_unpackTBody : KeepsWf unpackTBody := by
  intro s h
  rcases unpackTBody_cases s with ⟨-, he⟩ | ⟨-, he⟩ <;> rw [he]
  · exact endsWf_raised (wf_invalidateBits h) _ _ _ _ _
  · exact wf_writeBits h ((List.length_take_le' _ _).trans (unpackBytes_length_le_maxBits h))

/-- CMP, CMP.p and STAT write no buffer (R200, R202). -/
theorem keepsWf_cmpBody : KeepsWf cmpBody := fun _ h => h

theorem keepsWf_cmpPBody : KeepsWf cmpPBody := fun _ h => h

theorem keepsWf_statBody : KeepsWf statBody := fun _ h => h

/-! ### RUN -/

/-- A step of RUN keeps the form if its command does: step and phase are no buffers. -/
theorem KeepsWf.runStep {body : State → Ended} (hbody : KeepsWf body) (st ph : BitVec 4) :
    KeepsWf (runStep st ph body) := fun s h => hbody { s with stepOrd := st, phase := ph } h

theorem keepsWf_runSteps {steps : List (BitVec 4 × BitVec 4 × (State → Ended))} (hsteps : ∀ e ∈ steps, KeepsWf e.2.2) :
    KeepsWf (runSteps steps) := by
  induction steps with
  | nil => exact fun _ h => h
  | cons e rest ih =>
    obtain ⟨st, ph, body⟩ := e
    obtain ⟨hbody, hrest⟩ := List.forall_mem_cons.1 hsteps
    intro s h
    have hstep := hbody.runStep st ph s h
    rcases runSteps_cons st ph body rest s with ⟨u, hu, hrun⟩ | ⟨u, hu, hrun⟩ <;> rw [hrun] <;> rw [hu] at hstep
    · exact hstep
    · exact ih hrest u hstep

theorem keepsWf_codecOrBypass : KeepsWf codecOrBypass := by
  intro s h
  unfold codecOrBypass
  split
  · exact h
  · refine keepsWf_runSteps ?_ s h
    simp [codecSteps, keepsWf_btreeBody, keepsWf_bcodesBody, keepsWf_encodeBody, keepsWf_packBody, keepsWf_decodeBody,
      keepsWf_cmpBody, keepsWf_unpackTBody, keepsWf_cmpPBody]

theorem keepsWf_runBody : KeepsWf runBody := by
  intro s h
  have hdiff := keepsWf_diffBody.runStep 1 0x1 _ (wf_clearRunOutputs h)
  rcases runBody_cases s with ⟨u, hu, hrun⟩ | ⟨u, v, hu, hv, hrun⟩ | ⟨u, v, hu, hv, hrun⟩ <;>
    rw [hrun] <;> rw [hu] at hdiff
  · exact hdiff
  · have hcodec := keepsWf_codecOrBypass u hdiff
    rwa [hv] at hcodec
  · have hcodec := keepsWf_codecOrBypass u hdiff
    rw [hv] at hcodec
    exact keepsWf_statBody.runStep 11 0x9 v hcodec

/-! ### The commands and the step -/

/-- A command keeps the form if its rule does: its acceptance and its end touch no buffer (R97). -/
theorem wf_command {op : BitVec 4} {body : State → Ended} (hbody : KeepsWf body) {s t : State} (h : Memory.wf s = true)
    (ht : command op body s = .next t) : Memory.wf t = true := by
  rcases command_next ht with ⟨-, rfl⟩ | ⟨-, rfl⟩
  · exact h
  · have hend := hbody (accept op s) h
    rcases finish_cases (body (accept op s)) with ⟨u, hu, hfin⟩ | ⟨u, hu, hfin⟩ <;> rw [hfin] <;> rw [hu] at hend
    · exact hend
    · exact hend

theorem wf_exec {i : Instr} {s t : State} (h : Memory.wf s = true) (ht : exec i s = .next t) : Memory.wf t = true := by
  cases i with
  | diff => exact wf_command keepsWf_diffBody h ht
  | btree => exact wf_command keepsWf_btreeBody h ht
  | bcodes => exact wf_command keepsWf_bcodesBody h ht
  | encode => exact wf_command keepsWf_encodeBody h ht
  | decode => exact wf_command keepsWf_decodeBody h ht
  | pack => exact wf_command keepsWf_packBody h ht
  | unpack => exact wf_command keepsWf_unpackBody h ht
  | unpackT => exact wf_command keepsWf_unpackTBody h ht
  | cmp => exact wf_command keepsWf_cmpBody h ht
  | cmpP => exact wf_command keepsWf_cmpPBody h ht
  | stat => exact wf_command keepsWf_statBody h ht
  | run => exact wf_command keepsWf_runBody h ht
  | clr => cases ht; exact h

theorem wf_issue {w : Word} {s t : State} (h : Memory.wf s = true) (ht : issue w s = .next t) : Memory.wf t = true := by
  rcases issue_cases w s with ⟨i, -, he⟩ | ⟨-, he⟩ <;> rw [he] at ht
  · exact wf_exec h ht
  · cases ht
    rwa [wf_illegalCommand]

/-- Taking the host's next operation from the script touches no buffer. -/
theorem wf_withScript (s : State) (rest : List HostOp) : Memory.wf { s with script := rest } = Memory.wf s := rfl

theorem wf_step {s t : State} (h : Memory.wf s = true) (ht : step s = .next t) : Memory.wf t = true := by
  rcases step_next ht with ⟨-, rfl⟩ | ⟨op, rest, -, -, hop⟩
  · exact h
  · rw [← wf_withScript s rest] at h
    rcases hop with ⟨w, -, hw⟩ | ⟨a, d, -, -, rfl⟩ | ⟨a, -, rfl⟩ | ⟨-, rfl⟩
    · exact wf_issue h hw
    · exact wf_portWrite h a d
    · rwa [wf_portRead]
    · exact wf_hostReset h

end Memory

/-- Settles O58, by cases over what a step can do: the rule of a command, a port write, a read, a reset. -/
theorem stepKeepsMemory : Obligations.StepKeepsMemory := fun _ _ => Memory.wf_step

end Sys2Proof
end

section
/-! PROOF. O22: the length table of DIFF holds the lengths of the recurrence S(i, j) of R112, the walk back over it reads S(m, n),
and S(m, n) is a common subsequence of A and B that none exceeds. -/

namespace Sys2Proof

open Machine

/-! ### The recurrence, one equation per case of R112 -/

@[simp] theorem lcsSeq_zero_left (tie : LcsTie) (as bs : List Line) (j : Nat) : lcsSeq tie as bs 0 j = [] := rfl

@[simp] theorem lcsSeq_zero_right (tie : LcsTie) (as bs : List Line) (i : Nat) : lcsSeq tie as bs i 0 = [] := by
  cases i <;> rfl

theorem lcsSeq_of_eq {tie : LcsTie} {as bs : List Line} {i j : Nat} (h : as.getD i [] = bs.getD j []) :
    lcsSeq tie as bs (i + 1) (j + 1) = lcsSeq tie as bs i j ++ [as.getD i []] := by
  simp only [lcsSeq, lcsCells, if_pos h]

theorem takesLeft_left (l u : Nat) : takesLeft .left l u = true ↔ u ≤ l := decide_eq_true_iff

theorem takesLeft_up (l u : Nat) : takesLeft .up l u = true ↔ u < l := decide_eq_true_iff

theorem lcsSeq_of_ne {tie : LcsTie} {as bs : List Line} {i j : Nat} (h : as.getD i [] ≠ bs.getD j []) :
    lcsSeq tie as bs (i + 1) (j + 1) =
      if takesLeft tie (lcsSeq tie as bs (i + 1) j).length (lcsSeq tie as bs i (j + 1)).length then
        lcsSeq tie as bs (i + 1) j
      else lcsSeq tie as bs i (j + 1) := by
  cases tie <;> simp only [lcsSeq, lcsCells, if_neg h, takesLeft_left, takesLeft_up, ge_iff_le, gt_iff_lt]

/-- On a mismatch the recurrence keeps the longer neighbour, whichever it takes at equal lengths (R113). -/
theorem lcsSeq_length_of_ne {tie : LcsTie} {as bs : List Line} {i j : Nat} (h : as.getD i [] ≠ bs.getD j []) :
    (lcsSeq tie as bs (i + 1) (j + 1)).length =
      max (lcsSeq tie as bs (i + 1) j).length (lcsSeq tie as bs i (j + 1)).length := by
  rw [lcsSeq_of_ne h]
  cases tie <;> simp only [takesLeft_left, takesLeft_up] <;> split <;> omega

/-! ### S(i, j) is a common subsequence of the first i lines of A and the first j of B -/

theorem take_succ_eq_concat_getD {ls : List Line} {n : Nat} (h : n < ls.length) :
    ls.take (n + 1) = ls.take n ++ [ls.getD n []] := by
  rw [List.getD_eq_getElem _ _ h, List.take_append_getElem]

theorem take_sublist_take_succ (ls : List Line) (n : Nat) : (ls.take n).Sublist (ls.take (n + 1)) :=
  List.take_sublist_take_left (Nat.le_succ n)

theorem lcsSeq_sublist (tie : LcsTie) (as bs : List Line) :
    ∀ i j, i ≤ as.length → j ≤ bs.length →
      (lcsSeq tie as bs i j).Sublist (as.take i) ∧ (lcsSeq tie as bs i j).Sublist (bs.take j)
  | 0, j, _, _ => by simp
  | i + 1, 0, _, _ => by simp
  | i + 1, j + 1, hi, hj => by
    by_cases heq : as.getD i [] = bs.getD j []
    · obtain ⟨ha, hb⟩ := lcsSeq_sublist tie as bs i j (by omega) (by omega)
      rw [lcsSeq_of_eq heq, take_succ_eq_concat_getD hi, take_succ_eq_concat_getD hj, ← heq]
      exact ⟨ha.append_right _, hb.append_right _⟩
    · rw [lcsSeq_of_ne heq]
      split
      · obtain ⟨ha, hb⟩ := lcsSeq_sublist tie as bs (i + 1) j hi (by omega)
        exact ⟨ha, hb.trans (take_sublist_take_succ bs j)⟩
      · obtain ⟨ha, hb⟩ := lcsSeq_sublist tie as bs i (j + 1) (by omega) hj
        exact ⟨ha.trans (take_sublist_take_succ as i), hb⟩

/-! ### No common subsequence is longer -/

/-- A subsequence of a sequence and one more line ends in that line, or does without it. -/
theorem sublist_concat_cases {zs xs : List Line} {a : Line} (h : zs.Sublist (xs ++ [a])) :
    zs.Sublist xs ∨ ∃ ws, zs = ws ++ [a] ∧ ws.Sublist xs := by
  obtain ⟨ws, last, rfl, hws, hlast⟩ := List.sublist_append_iff.1 h
  rcases List.sublist_singleton.1 hlast with rfl | rfl
  · exact .inl (by simpa using hws)
  · exact .inr ⟨ws, rfl, hws⟩

theorem dropLast_sublist_of_sublist_concat {zs xs : List Line} {a : Line} (h : zs.Sublist (xs ++ [a])) :
    zs.dropLast.Sublist xs := by
  rcases sublist_concat_cases h with hzs | ⟨ws, rfl, hws⟩
  · exact (List.dropLast_sublist zs).trans hzs
  · simpa using hws

/-- A common subsequence of two sequences with different last lines does without one of the two. -/
theorem sublist_left_or_right_of_ne {zs xs ys : List Line} {a b : Line} (hab : a ≠ b) (ha : zs.Sublist (xs ++ [a]))
    (hb : zs.Sublist (ys ++ [b])) : zs.Sublist xs ∨ zs.Sublist ys := by
  rcases sublist_concat_cases ha with hxs | ⟨us, rfl, -⟩
  · exact .inl hxs
  · rcases sublist_concat_cases hb with hys | ⟨vs, hvs, -⟩
    · exact .inr hys
    · exact absurd (List.append_inj' hvs rfl).2 (by simpa using hab)

theorem length_le_lcsSeq_length (tie : LcsTie) (as bs : List Line) :
    ∀ (i j : Nat) (zs : List Line), i ≤ as.length → j ≤ bs.length →
      zs.Sublist (as.take i) → zs.Sublist (bs.take j) → zs.length ≤ (lcsSeq tie as bs i j).length
  | 0, _, _, _, _, ha, _ => by simpa using ha
  | _ + 1, 0, _, _, _, _, hb => by simpa using hb
  | i + 1, j + 1, zs, hi, hj, ha, hb => by
    rw [take_succ_eq_concat_getD hi] at ha
    rw [take_succ_eq_concat_getD hj] at hb
    by_cases heq : as.getD i [] = bs.getD j []
    · have hinit := length_le_lcsSeq_length tie as bs i j zs.dropLast (by omega) (by omega)
        (dropLast_sublist_of_sublist_concat ha) (dropLast_sublist_of_sublist_concat hb)
      rw [lcsSeq_of_eq heq, List.length_append, List.length_singleton]
      rw [List.length_dropLast] at hinit
      omega
    · rw [lcsSeq_length_of_ne heq]
      rcases sublist_left_or_right_of_ne heq ha hb with hxs | hys
      · rw [← take_succ_eq_concat_getD hj] at hb
        exact (length_le_lcsSeq_length tie as bs i (j + 1) zs (by omega) hj hxs hb).trans (le_max_right _ _)
      · rw [← take_succ_eq_concat_getD hi] at ha
        exact (length_le_lcsSeq_length tie as bs (i + 1) j zs hi (by omega) ha hys).trans (le_max_left _ _)

/-! ### The length table holds the lengths of the recurrence (R114) -/

/-- The cells of a row are `new 1`, `new 2`, …, when `new` follows the recurrence of R114 from the row `old`. -/
theorem rowCells_eq (a : Line) (bs : List Line) (old new : Nat → Nat)
    (hnew : ∀ j < bs.length, new (j + 1) =
      if a = bs.getD j [] then old j + 1 else if new j ≥ old (j + 1) then new j else old (j + 1)) :
    rowCells a bs ((List.range (bs.length + 1)).map old) (new 0) =
      (List.range bs.length).map fun j => new (j + 1) := by
  induction bs generalizing old new with
  | nil => simp [rowCells]
  | cons b bs ih =>
    have hfirst := hnew 0 (by simp)
    have hrest := ih (fun j => old (j + 1)) (fun j => new (j + 1)) fun j hj => hnew (j + 1) (by simpa using hj)
    simp only [List.getD_cons_zero, Nat.zero_add] at hfirst hrest
    simp only [List.length_cons, List.range_succ_eq_map (n := bs.length + 1), List.range_succ_eq_map (n := bs.length),
      List.map_cons, List.map_map, rowCells, ← hfirst] at hrest ⊢
    exact congrArg (new 1 :: ·) hrest

/-- The rows of the table are `row 0`, `row 1`, …, when each is the next one of that before it (R114). -/
theorem lcsRows_eq (bs as : List Line) (row : Nat → List Nat)
    (hrow : ∀ i < as.length, row (i + 1) = nextRow bs (row i) (as.getD i [])) :
    lcsRows bs as (row 0) = (List.range (as.length + 1)).map row := by
  induction as generalizing row with
  | nil => rfl
  | cons a as ih =>
    have hfirst : row 1 = nextRow bs (row 0) a := hrow 0 (by simp)
    have hrest := ih (fun i => row (i + 1)) fun i hi => hrow (i + 1) (by simpa using hi)
    rw [lcsRows, ← hfirst, hrest, List.length_cons, List.range_succ_eq_map (n := as.length + 1), List.map_cons,
      List.map_map]
    rfl

/-- Row i of the lengths of the recurrence. -/
def lengthRow (tie : LcsTie) (as bs : List Line) (i : Nat) : List Nat :=
  (List.range (bs.length + 1)).map fun j => (lcsSeq tie as bs i j).length

theorem lengthRow_succ (tie : LcsTie) (as bs : List Line) (i : Nat) :
    lengthRow tie as bs (i + 1) = nextRow bs (lengthRow tie as bs i) (as.getD i []) := by
  have hcells := rowCells_eq (as.getD i []) bs (fun j => (lcsSeq tie as bs i j).length)
    (fun j => (lcsSeq tie as bs (i + 1) j).length) fun j _ => by
      split
      · next heq => rw [lcsSeq_of_eq heq, List.length_append, List.length_singleton]
      · next hne => rw [lcsSeq_length_of_ne hne]; split <;> omega
  rw [lcsSeq_zero_right, List.length_nil] at hcells
  rw [nextRow, lengthRow, lengthRow, hcells, List.range_succ_eq_map, List.map_cons, List.map_map]
  simp [Function.comp_def]

theorem lcsTable_eq (tie : LcsTie) (as bs : List Line) :
    lcsTable as bs = (List.range (as.length + 1)).map (lengthRow tie as bs) := by
  have hzero : lengthRow tie as bs 0 = List.replicate (bs.length + 1) 0 := by simp [lengthRow]
  rw [lcsTable, ← hzero]
  exact lcsRows_eq bs as _ fun i _ => lengthRow_succ tie as bs i

theorem getD_map_range {α : Type} (f : Nat → α) (d : α) {i n : Nat} (h : i < n) :
    ((List.range n).map f).getD i d = f i := by simp [h]

theorem cell_lcsTable (tie : LcsTie) {as bs : List Line} {i j : Nat} (hi : i ≤ as.length) (hj : j ≤ bs.length) :
    cell (lcsTable as bs) i j = (lcsSeq tie as bs i j).length := by
  rw [cell, lcsTable_eq tie, getD_map_range _ _ (Nat.lt_succ_of_le hi), lengthRow,
    getD_map_range _ _ (Nat.lt_succ_of_le hj)]

/-! ### The walk back reads S(m, n) (R114) -/

theorem commonLines_cons (as : List Line) (i : Nat) (idx : List Nat) :
    commonLines as (i :: idx) = as.getD i [] :: commonLines as idx := rfl

@[simp] theorem commonLines_length (as : List Line) (idx : List Nat) : (commonLines as idx).length = idx.length := by
  simp [commonLines]

/-- From (i, j) on, the walk puts the lines of S(i, j) in front of those it has found. -/
theorem commonLines_walkBack (tie : LcsTie) (as bs : List Line) (fuel i j : Nat) (acc : List Nat) (hi : i ≤ as.length)
    (hj : j ≤ bs.length) (hfuel : i + j ≤ fuel) :
    commonLines as (walkBack tie as bs (lcsTable as bs) fuel i j acc) =
      lcsSeq tie as bs i j ++ commonLines as acc := by
  induction fuel generalizing i j acc with
  | zero =>
    obtain rfl : i = 0 := by omega
    simp [walkBack]
  | succ fuel ih =>
    match i, j with
    | 0, j => simp [walkBack]
    | i + 1, 0 => simp [walkBack]
    | i + 1, j + 1 =>
      unfold walkBack
      rw [if_neg (by omega), Nat.add_sub_cancel, Nat.add_sub_cancel, cell_lcsTable tie hi (by omega),
        cell_lcsTable tie (by omega) hj]
      split
      · next heq =>
        rw [ih i j _ (by omega) (by omega) (by omega), commonLines_cons, lcsSeq_of_eq heq, List.append_assoc,
          List.singleton_append]
      · next hne =>
        rw [lcsSeq_of_ne hne]
        split
        · exact ih (i + 1) j acc hi (by omega) (by omega)
        · exact ih i (j + 1) acc (by omega) hj (by omega)

/-- The lines LCS names are the sequence S(m, n) of the recurrence. -/
theorem commonLines_lcsIndices (tie : LcsTie) (as bs : List Line) :
    commonLines as (lcsIndices tie as bs) = lcsSeq tie as bs as.length bs.length := by
  rw [lcsIndices, commonLines_walkBack tie as bs _ _ _ [] le_rfl le_rfl le_rfl]
  exact List.append_nil _

theorem lcsIndices_length (tie : LcsTie) (as bs : List Line) :
    (lcsIndices tie as bs).length = (lcsSeq tie as bs as.length bs.length).length := by
  rw [← commonLines_lcsIndices, commonLines_length]

/-- On closed lines DIFF writes its results and completes (R110, R111). -/
theorem exec_diff_of_closed {s : State} (herr : s.err = false) (h : LinesClosed s) :
    exec .diff s = .next (endNormal (writeDiff (accept 0x1 s))) := by
  obtain ⟨ha, hb⟩ := h
  rw [exec_diff, command_of_no_err herr]
  rcases diffBody_cases (accept 0x1 s) with ⟨hopen, -⟩ | ⟨-, hopen, -⟩ | ⟨-, -, hok⟩
  · exact absurd hopen (by simp [openLine_eq_false.2 ha])
  · exact absurd hopen (by simp [openLine_eq_false.2 hb])
  · rw [hok, finish_ok]

/-- Settles O22: LCS names S(m, n), which is a common subsequence, and no common subsequence is longer than it. -/
theorem diffFindsLongestCommon : Obligations.DiffFindsLongestCommon := by
  intro s herr hclosed
  have hsub := lcsSeq_sublist s.cfg.lcsTie (linesA s) (linesB s) _ _ le_rfl le_rfl
  rw [List.take_length, List.take_length, ← commonLines_lcsIndices] at hsub
  refine ⟨_, exec_diff_of_closed herr hclosed, herr, hsub.1, hsub.2, fun zs ha hb => ?_⟩
  have hmax := length_le_lcsSeq_length s.cfg.lcsTie (linesA s) (linesB s) _ _ zs le_rfl le_rfl
    (by rwa [List.take_length]) (by rwa [List.take_length])
  rwa [← lcsIndices_length] at hmax

end Sys2Proof
end

section
/-! PROOF. O24: the lines of A and B are those of R31, and the results of DIFF on them fit TEXT and LCS (R114, R118). -/

namespace Sys2Proof

open Machine

/-! ### The lines (R31) -/

theorem lineStart_length (ends : List Nat) : lineStart ends ends.length = ends.getLastD 0 := by
  rcases List.eq_nil_or_concat ends with rfl | ⟨init, e, rfl⟩
  · rfl
  · simp [lineStart]

theorem linesOf_flatten {sym : List Symbol} {ends : List Nat} (h : ends.Pairwise (· ≤ ·))
    (hclosed : sym.length ≤ ends.getLastD 0) : (linesOf sym ends).flatten = sym := by
  rw [linesOf, flatten_lineAt_range sym h _ le_rfl, lineStart_length, List.take_of_length_le hclosed]

theorem linesOf_getElem?_zero {sym : List Symbol} {ends : List Nat} {e : Nat} (h : ends[0]? = some e) :
    (linesOf sym ends)[0]? = some (sym.take e) := by
  obtain ⟨hlt, -⟩ := List.getElem?_eq_some_iff.1 h
  rw [linesOf_getElem? hlt, lineAt_zero, List.getD_eq_getElem?_getD, h, Option.getD_some]

theorem linesOf_getElem?_succ {sym : List Symbol} {ends : List Nat} {i b e : Nat} (hb : ends[i]? = some b)
    (he : ends[i + 1]? = some e) : (linesOf sym ends)[i + 1]? = some ((sym.take e).drop b) := by
  obtain ⟨hlt, -⟩ := List.getElem?_eq_some_iff.1 he
  rw [linesOf_getElem? hlt, lineAt_succ, List.getD_eq_getElem?_getD, List.getD_eq_getElem?_getD, hb, he,
    Option.getD_some, Option.getD_some]

/-! ### The bounds of the results -/

theorem markedLength_linesOf_le_length {c : Config} {sym : List Symbol} {ends : List Nat} (h : linesWf c sym ends = true) :
    markedLength (linesOf sym ends) ≤ sym.length + 2 * ends.length := by
  obtain ⟨-, -, hrise, -⟩ := (linesWf_iff c sym ends).1 h
  rw [markedLength, linesOf_length]
  exact Nat.add_le_add_right (linesOf_flatten_length_le sym hrise) _

/-- A common subsequence is no longer than B. -/
theorem lcsIndices_length_le_right (tie : LcsTie) (as bs : List Line) : (lcsIndices tie as bs).length ≤ bs.length := by
  have hsub := (lcsSeq_sublist tie as bs _ _ le_rfl le_rfl).2
  rw [List.take_length] at hsub
  exact (lcsIndices_length tie as bs).le.trans hsub.length_le

/-- What O24 says of the outputs of DIFF in the state it leaves. -/
def DiffFits (s t : State) : Prop :=
  t.text.length ≤ s.aSym.length + s.bSym.length + 2 * (s.aEnd.length + s.bEnd.length) ∧
  t.text.length ≤ s.cfg.maxText ∧ t.lcs.length ≤ s.aEnd.length ∧ t.lcs.length ≤ s.bEnd.length ∧
  t.lcs.length ≤ s.cfg.maxLines

/-- Emptied outputs fit (R241). -/
theorem diffFits_of_nil {s t : State} (htext : t.text = []) (hlcs : t.lcs = []) : DiffFits s t := by
  simp [DiffFits, htext, hlcs]

theorem diffFits_writeDiff {s : State} (h : Memory.wf s = true) : DiffFits s (writeDiff s) := by
  obtain ⟨hcap, -⟩ := Config.bounds_of_wf (Memory.cfg_wf h)
  obtain ⟨-, ha, hb, -⟩ := (Memory.wf_iff s).1 h
  obtain ⟨-, hlines, -⟩ := (linesWf_iff _ _ _).1 ha
  have hwalk := walkText_length_le (commonLines (linesA s) (lcsIndices s.cfg.lcsTie (linesA s) (linesB s)))
    (linesA s) (linesB s)
  have hA : markedLength (linesA s) ≤ _ := markedLength_linesOf_le_length ha
  have hB : markedLength (linesB s) ≤ _ := markedLength_linesOf_le_length hb
  have hleft := (lcsIndices_rising s.cfg.lcsTie (linesA s) (linesB s)).length_le
  have hright := lcsIndices_length_le_right s.cfg.lcsTie (linesA s) (linesB s)
  rw [linesA, linesOf_length] at hleft
  rw [linesB, linesOf_length] at hright
  refine ⟨?_, diffText_length_le hcap ha hb _, hleft, hright, hleft.trans hlines⟩
  rw [writeDiff_text, diffText]
  omega

/-- Settles O24: the laws of the lines, and the three ways DIFF can end. -/
theorem diffFitsText : Obligations.DiffFitsText := by
  refine ⟨fun s h => ?_, fun s h herr => ?_⟩
  · obtain ⟨-, ha, hb, -⟩ := (Memory.wf_iff s).1 h
    obtain ⟨-, -, hriseA, -⟩ := (linesWf_iff _ _ _).1 ha
    obtain ⟨-, -, hriseB, -⟩ := (linesWf_iff _ _ _).1 hb
    exact ⟨⟨linesOf_length _ _, fun _ => linesOf_getElem?_zero, fun _ _ _ => linesOf_getElem?_succ,
        linesOf_flatten hriseA⟩,
      ⟨linesOf_length _ _, fun _ => linesOf_getElem?_zero, fun _ _ _ => linesOf_getElem?_succ, linesOf_flatten hriseB⟩⟩
  · rw [exec_diff, command_of_no_err herr]
    refine ⟨_, rfl, ?_⟩
    rcases diffBody_cases (accept 0x1 s) with ⟨-, hend⟩ | ⟨-, -, hend⟩ | ⟨-, -, hend⟩ <;> rw [hend]
    · exact ⟨fun _ => rfl, diffFits_of_nil rfl rfl⟩
    · exact ⟨fun _ => rfl, diffFits_of_nil rfl rfl⟩
    · refine ⟨fun hraised => ?_, diffFits_writeDiff (s := accept 0x1 s) h⟩
      exact absurd (herr.symm.trans hraised) Bool.false_ne_true

end Sys2Proof
end

section
/-! PROOF. What the rule of a command can do, said once: it keeps the inputs and the error record, it keeps CODE coherent with
NODE, and it ends with its results or in the error entry (R38, R97, R240, R241). -/

namespace Sys2Proof

open Machine

/-! ### What one computation does -/

/-- What no rule writes: the parameters, BUSY, DONE and the error record, A, B, the staging and window registers, and the
model's own fields. Every other field has its reset value. -/
def keptOf (s : State) : State :=
  { State.resetOf s.cfg with
    busy := s.busy, done := s.done, err := s.err, errCode := s.errCode, errInfo0 := s.errInfo0, errInfo1 := s.errInfo1
    aSym := s.aSym, aEnd := s.aEnd, bSym := s.bSym, bEnd := s.bEnd
    nodeW0 := s.nodeW0, nodeW1 := s.nodeW1, rdBuf := s.rdBuf, rdIdx := s.rdIdx, rdSub := s.rdSub
    script := s.script, readData := s.readData, draws := s.draws }

/-- `t` is `s` after a computation: outputs and the position at most have changed, and CODE belongs to NODE if it did
before. -/
structure Computes (s t : State) : Prop where
  kept : keptOf t = keptOf s
  code : CodeCoherent s → CodeCoherent t

theorem Computes.refl (s : State) : Computes s s := ⟨rfl, id⟩

theorem Computes.trans {s t u : State} (h : Computes s t) (h' : Computes t u) : Computes s u :=
  ⟨h'.kept.trans h.kept, h'.code ∘ h.code⟩

/-- NODE and CODE are not touched. -/
theorem Computes.of_same {s t : State} (hkept : keptOf t = keptOf s) (hnode : t.node = s.node) (hcode : t.code = s.code) :
    Computes s t :=
  ⟨hkept, fun h => by rwa [CodeCoherent, hnode, hcode]⟩

/-- CODE is emptied (R38). -/
theorem Computes.of_nil {s t : State} (hkept : keptOf t = keptOf s) (hcode : t.code = []) : Computes s t :=
  ⟨hkept, fun _ => .inl hcode⟩

/-- How a rule ends from `s`: after a computation, or after one whose error it then records. -/
inductive RuleEnds (s : State) : Ended → Prop
  | ok {t : State} (h : Computes s t) : RuleEnds s (.ok t)
  | error {t : State} {e : ErrCode} (i0 i1 : Word) (ph st : BitVec 4) (he : e ≠ .none) (h : Computes s t) :
      RuleEnds s (.error (errorEntry e i0 i1 ph st t))

/-- What a rule does after a computation, it does after that computation's start. -/
theorem RuleEnds.after {s t : State} {r : Ended} (h : RuleEnds t r) (hst : Computes s t) : RuleEnds s r := by
  cases h with
  | ok h => exact .ok (hst.trans h)
  | error i0 i1 ph st he h => exact .error i0 i1 ph st he (hst.trans h)

/-- A rule that ends without an error leaves its computation. -/
theorem RuleEnds.computes {s t : State} (h : RuleEnds s (.ok t)) : Computes s t := by
  cases h with
  | ok h => exact h

/-! ### The rules of the commands -/

theorem diffBody_ends (s : State) : RuleEnds s (diffBody s) := by
  rcases diffBody_cases s with ⟨-, h⟩ | ⟨-, -, h⟩ | ⟨-, -, h⟩ <;> rw [h]
  · exact .error _ _ _ _ (by decide) (.of_same rfl rfl rfl)
  · exact .error _ _ _ _ (by decide) (.of_same rfl rfl rfl)
  · exact .ok (.of_same rfl rfl rfl)

/-- BTREE empties CODE, as NODE changes (R137). -/
theorem btreeBody_ends (s : State) : RuleEnds s (btreeBody s) := by
  rcases btreeBody_cases s with ⟨-, h⟩ | ⟨_, _, -, -, h⟩ | ⟨_, -, -, h⟩ <;> rw [h]
  · exact .error _ _ _ _ (by decide) (.of_nil rfl rfl)
  · exact .error _ _ _ _ (by decide) (.of_nil rfl rfl)
  · exact .ok (.of_nil rfl rfl)

/-- BCODES writes the code map of a tree, or empties CODE (R141, R241). -/
theorem bcodesBody_ends (s : State) : RuleEnds s (bcodesBody s) := by
  rcases bcodesBody_cases s with ⟨_, -, h⟩ | ⟨_, _, -, -, h⟩ | ⟨_, htree, hcodes, h⟩ <;> rw [h]
  · exact .error _ _ _ _ (by decide) (.of_nil rfl rfl)
  · exact .error _ _ _ _ (by decide) (.of_nil rfl rfl)
  · exact .ok ⟨rfl, fun _ => .inr ⟨htree, hcodes⟩⟩

theorem encodeBody_ends (s : State) : RuleEnds s (encodeBody s) := by
  rcases encodeBody_cases s with ⟨e, _, _, hfail, h⟩ | ⟨_, -, h⟩ <;> rw [h]
  · refine .error _ _ _ _ ?_ (.of_same rfl rfl rfl)
    rcases encodeFrom_error hfail with ⟨rfl, -⟩ | ⟨rfl, -⟩ <;> decide
  · exact .ok (.of_same rfl rfl rfl)

theorem decodeLeaf_error_ne_none {x : Symbol} {cap : Nat} {bits : List Bool} {k : Nat} {out : List Symbol}
    {e : ErrCode × Word × Word} (h : decodeLeaf x cap bits k out = .error e) : e.1 ≠ .none := by
  induction bits generalizing k out with
  | nil => cases h
  | cons b rest ih =>
    unfold decodeLeaf at h
    split at h
    · cases h; exact nofun
    · split at h
      · exact ih h
      · cases h; exact nofun

theorem decodeFrom_error_ne_none {nodes : List NodeRec} {cap root : Nat} {bits : List Bool} {k cur : Nat}
    {out : List Symbol} {e : ErrCode × Word × Word} (h : decodeFrom nodes cap root bits k cur out = .error e) :
    e.1 ≠ .none := by
  induction bits generalizing k cur out with
  | nil => cases h
  | cons b rest ih =>
    unfold decodeFrom at h
    split at h
    · split at h
      · exact ih h
      · cases h; exact nofun
    · exact ih h

/-- The decoder stops at an error of R176, never at none. -/
theorem decodeBits_error_ne_none {nodes : List NodeRec} {cap : Nat} {bits : List Bool} {e : ErrCode × Word × Word}
    (h : decodeBits nodes cap bits = .error e) : e.1 ≠ .none := by
  unfold decodeBits at h
  simp only at h
  split at h
  · split at h
    · cases h
    · next hfail => cases h; exact decodeLeaf_error_ne_none hfail
  · split at h
    · cases h
    · next hfail => cases h; exact decodeFrom_error_ne_none hfail

theorem decodeBody_ends (s : State) : RuleEnds s (decodeBody s) := by
  rcases decodeBody_cases s with ⟨-, h⟩ | ⟨_, -, -, h⟩ | ⟨_, _, _, -, -, hfail, h⟩ | ⟨_, _, -, -, -, h⟩ <;> rw [h]
  · exact .ok (.of_same rfl rfl rfl)
  · exact .error _ _ _ _ (by decide) (.of_same rfl rfl rfl)
  · exact .error _ _ _ _ (decodeBits_error_ne_none hfail) (.of_same rfl rfl rfl)
  · exact .ok (.of_same rfl rfl rfl)

theorem packBody_ends (s : State) : RuleEnds s (packBody s) := .ok (.of_same rfl rfl rfl)

theorem unpackBody_ends (s : State) : RuleEnds s (unpackBody s) := .ok (.of_same rfl rfl rfl)

theorem unpackTBody_ends (s : State) : RuleEnds s (unpackTBody s) := by
  rcases unpackTBody_cases s with ⟨-, h⟩ | ⟨-, h⟩ <;> rw [h]
  · exact .error _ _ _ _ (by decide) (.of_same rfl rfl rfl)
  · exact .ok (.of_same rfl rfl rfl)

theorem cmpBody_ends (s : State) : RuleEnds s (cmpBody s) := .ok (.of_same rfl rfl rfl)

theorem cmpPBody_ends (s : State) : RuleEnds s (cmpPBody s) := .ok (.of_same rfl rfl rfl)

theorem statBody_ends (s : State) : RuleEnds s (statBody s) := .ok (.of_same rfl rfl rfl)

/-! ### RUN (R206) -/

/-- Setting step and phase is a computation, so a step of RUN ends as its command does. -/
theorem runStep_ends {body : State → Ended} (hbody : ∀ s, RuleEnds s (body s)) (st ph : BitVec 4) (s : State) :
    RuleEnds s (runStep st ph body s) :=
  (hbody { s with stepOrd := st, phase := ph }).after (.of_same rfl rfl rfl)

theorem runSteps_ends {steps : List (BitVec 4 × BitVec 4 × (State → Ended))}
    (hsteps : ∀ e ∈ steps, ∀ s, RuleEnds s (e.2.2 s)) (s : State) : RuleEnds s (runSteps steps s) := by
  induction steps generalizing s with
  | nil => exact .ok (.refl s)
  | cons e rest ih =>
    obtain ⟨st, ph, body⟩ := e
    obtain ⟨hbody, hrest⟩ := List.forall_mem_cons.1 hsteps
    have hstep := runStep_ends hbody st ph s
    rcases runSteps_cons st ph body rest s with ⟨_, hu, h⟩ | ⟨u, hu, h⟩ <;> rw [h] <;> rw [hu] at hstep
    · exact hstep
    · exact (ih hrest u).after hstep.computes

theorem codecOrBypass_ends (s : State) : RuleEnds s (codecOrBypass s) := by
  unfold codecOrBypass
  split
  · exact .ok (.of_same rfl rfl rfl)
  · refine runSteps_ends ?_ s
    simp [codecSteps, btreeBody_ends, bcodesBody_ends, encodeBody_ends, packBody_ends, decodeBody_ends, cmpBody_ends,
      unpackTBody_ends, cmpPBody_ends]

/-- RUN empties CODE first, then does what its steps do. -/
theorem runBody_ends (s : State) : RuleEnds s (runBody s) := by
  have hdiff := (runStep_ends diffBody_ends 1 0x1 _).after (.of_nil rfl rfl : Computes s (clearRunOutputs s))
  rcases runBody_cases s with ⟨_, hu, h⟩ | ⟨u, _, hu, hv, h⟩ | ⟨u, v, hu, hv, h⟩ <;> rw [h] <;> rw [hu] at hdiff
  · exact hdiff
  · have hcodec := codecOrBypass_ends u
    rw [hv] at hcodec
    exact hcodec.after hdiff.computes
  · have hcodec := codecOrBypass_ends u
    rw [hv] at hcodec
    exact (runStep_ends statBody_ends 11 0x9 v).after (hdiff.computes.trans hcodec.computes)

/-! ### The commands -/

/-- What a command can do: nothing while ERR = 1, else complete or record an error, or acknowledge one (CLR). -/
inductive CommandEnds (s : State) : State → Prop
  | ignored (herr : s.err = true) : CommandEnds s s
  | completed {op : BitVec 4} {t : State} (herr : s.err = false) (h : Computes (accept op s) t) :
      CommandEnds s (endNormal t)
  | raised {op : BitVec 4} {t : State} {e : ErrCode} (i0 i1 : Word) (ph st : BitVec 4) (herr : s.err = false)
      (he : e ≠ .none) (h : Computes (accept op s) t) : CommandEnds s (endRaised (errorEntry e i0 i1 ph st t))
  | cleared : CommandEnds s (endNormal (clearErrors (accept 0xF s)))

theorem command_ends {op : BitVec 4} {body : State → Ended} (hbody : ∀ s, RuleEnds s (body s)) {s t : State}
    (h : command op body s = .next t) : CommandEnds s t := by
  rcases command_next h with ⟨herr, rfl⟩ | ⟨herr, rfl⟩
  · exact .ignored herr
  · cases hr : body (accept op s) <;> have hend := hbody (accept op s) <;> rw [hr] at hend
    case ok => exact .completed herr hend.computes
    case error =>
      cases hend with
      | error i0 i1 ph st he hu => exact .raised i0 i1 ph st herr he hu

theorem exec_ends {i : Instr} {s t : State} (h : exec i s = .next t) : CommandEnds s t := by
  cases i with
  | diff => exact command_ends diffBody_ends h
  | btree => exact command_ends btreeBody_ends h
  | bcodes => exact command_ends bcodesBody_ends h
  | encode => exact command_ends encodeBody_ends h
  | decode => exact command_ends decodeBody_ends h
  | pack => exact command_ends packBody_ends h
  | unpack => exact command_ends unpackBody_ends h
  | unpackT => exact command_ends unpackTBody_ends h
  | cmp => exact command_ends cmpBody_ends h
  | cmpP => exact command_ends cmpPBody_ends h
  | stat => exact command_ends statBody_ends h
  | run => exact command_ends runBody_ends h
  | clr => cases h; exact .cleared

/-- An illegal word is a command that raises at once (R94, R231). -/
theorem issue_ends {w : Word} {s t : State} (h : issue w s = .next t) : CommandEnds s t := by
  rcases issue_cases w s with ⟨i, -, hi⟩ | ⟨-, hi⟩ <;> rw [hi] at h
  · exact exec_ends h
  · cases h
    rcases illegalCommand_cases w s with ⟨herr, ht⟩ | ⟨herr, ht⟩ <;> rw [ht]
    · exact .ignored herr
    · exact .raised w 0 0 0 herr (by decide) (.refl _)

end Sys2Proof
end

section
/-! PROOF. O54: no command writes its inputs. -/

namespace Sys2Proof

open Machine

/-- What the host alone writes, and the model's own fields. Every other field has its reset value. -/
def inputsOf (s : State) : State :=
  { State.resetOf s.cfg with
    aSym := s.aSym, aEnd := s.aEnd, bSym := s.bSym, bEnd := s.bEnd
    nodeW0 := s.nodeW0, nodeW1 := s.nodeW1, rdBuf := s.rdBuf, rdIdx := s.rdIdx, rdSub := s.rdSub
    script := s.script, readData := s.readData, draws := s.draws }

theorem Computes.inputsOf_eq {s t : State} (h : Computes s t) : inputsOf t = inputsOf s := by
  have hin : inputsOf (keptOf t) = inputsOf (keptOf s) := congrArg inputsOf h.kept
  exact hin

theorem CommandEnds.inputsOf_eq {s t : State} (h : CommandEnds s t) : inputsOf t = inputsOf s := by
  cases h with
  | ignored => rfl
  | completed _ h => exact h.inputsOf_eq
  | raised _ _ _ _ _ _ h => exact h.inputsOf_eq
  | cleared => rfl

/-- Settles O54: each field of the statement is one of `inputsOf`, which a command keeps. -/
theorem commandsKeepInputs : Obligations.CommandsKeepInputs := by
  intro i s t h
  have hin := (exec_ends h).inputsOf_eq
  have keeps {α : Type} (field : State → α) : field (inputsOf t) = field (inputsOf s) := congrArg field hin
  exact ⟨keeps State.cfg, keeps State.aSym, keeps State.aEnd, keeps State.bSym, keeps State.bEnd, keeps State.nodeW0,
    keeps State.nodeW1, keeps State.rdBuf, keeps State.rdIdx, keeps State.rdSub, keeps State.script,
    keeps State.readData, keeps State.draws⟩

end Sys2Proof
end

section
/-! PROOF. O57, O59 and O60: every step keeps the error record and the coherence of CODE with NODE, and reset has them. -/

namespace Sys2Proof

open Machine

/-! ### The port writes -/

/-- `s` with the fields that a port write may store taken from `t`. -/
def withStored (s t : State) : State :=
  { s with
    aSym := t.aSym, aEnd := t.aEnd, bSym := t.bSym, bEnd := t.bEnd, text := t.text, node := t.node, code := t.code
    bits := t.bits, bytes := t.bytes, pkBits := t.pkBits, nodeW0 := t.nodeW0, nodeW1 := t.nodeW1
    rdBuf := t.rdBuf, rdIdx := t.rdIdx, rdSub := t.rdSub }

/-- What a port write can do: record an error, or store, and then CODE is emptied if NODE changes (R38, R65). -/
inductive WriteEnds (s : State) : State → Prop
  | raised {e : ErrCode} (a : Nat) (d : Word) (he : e ≠ .none) : WriteEnds s (portError e a d s)
  | stored {t : State} (h : t = withStored s t) (hcode : t.node = s.node ∧ t.code = s.code ∨ t.code = []) : WriteEnds s t

/-- A port write that leaves NODE and CODE. -/
theorem WriteEnds.of_same {s t : State} (h : t = withStored s t) (hnode : t.node = s.node) (hcode : t.code = s.code) :
    WriteEnds s t := .stored h (.inl ⟨hnode, hcode⟩)

theorem push_ends {α : Type} {addr : Nat} {d : Word} {operand : Option α} {cap : Nat} {buf : List α}
    {store : List α → State} {s : State} (hstore : ∀ b, WriteEnds s (store b)) :
    WriteEnds s (push addr d operand cap buf store s) := by
  rcases push_cases addr d operand cap buf store s with ⟨-, h⟩ | ⟨_, -, -, h⟩ | ⟨_, -, -, h⟩ <;> rw [h]
  · exact .raised addr d (by decide)
  · exact .raised addr d (by decide)
  · exact hstore _

theorem bufClr_ends (m : Word) (s : State) : WriteEnds s (bufClr m s) := by
  unfold bufClr
  split
  · exact .raised _ _ (by decide)
  · refine .stored rfl ?_
    cases h : m.getLsbD 3
    · exact .inl ⟨rfl, rfl⟩
    · exact .inr rfl

theorem writeCsr_ends (a : Nat) (d : Word) (s : State) : WriteEnds s (writeCsr a d s) := by
  unfold writeCsr
  split
  -- BUF_CLR, then NODE_W2, which empties CODE, then the other pushes, then the plain registers
  case h_2 => exact bufClr_ends d s
  case h_10 => exact push_ends fun _ => .stored rfl (.inr rfl)
  case h_3 | h_4 | h_5 | h_6 | h_7 | h_11 | h_12 => exact push_ends fun _ => .of_same rfl rfl rfl
  all_goals exact .of_same rfl rfl rfl

/-- An ignored write stores nothing (R63). -/
theorem portWrite_ends (a : Nat) (d : Word) (s : State) : WriteEnds s (portWrite a d s) := by
  unfold portWrite
  split
  · exact .of_same rfl rfl rfl
  · exact writeCsr_ends a d s

/-! ### The error record -/

theorem errorRecordOk_iff (s : State) :
    errorRecordOk s = true ↔
      s.busy = false ∧ (s.err = true → s.errCode ≠ .none) ∧
      (s.err = false → s.errCode = .none ∧ s.errInfo0 = 0 ∧ s.errInfo1 = 0 ∧ s.phase = 0 ∧ s.stepOrd = 0) := by
  cases herr : s.err <;> simp [errorRecordOk, herr, and_assoc]

/-- The error entry writes a whole record, whatever stood there (R240). -/
theorem errorRecordOk_errorEntry {e : ErrCode} (he : e ≠ .none) (i0 i1 : Word) (ph st : BitVec 4) {s : State}
    (hbusy : s.busy = false) : errorRecordOk (errorEntry e i0 i1 ph st s) = true :=
  (errorRecordOk_iff _).2 ⟨hbusy, fun _ => he, nofun⟩

theorem errorRecordOk_endRaised {e : ErrCode} (he : e ≠ .none) (i0 i1 : Word) (ph st : BitVec 4) (s : State) :
    errorRecordOk (endRaised (errorEntry e i0 i1 ph st s)) = true :=
  (errorRecordOk_iff _).2 ⟨rfl, fun _ => he, nofun⟩

/-- A computation keeps the record that was there at its start; the end clears the position (R97 (5)). -/
theorem Computes.errorRecordOk_endNormal {op : BitVec 4} {s t : State} (h : Computes (accept op s) t)
    (herr : s.err = false) (hs : errorRecordOk s = true) : errorRecordOk (endNormal t) = true := by
  obtain ⟨-, -, hclear⟩ := (errorRecordOk_iff s).1 hs
  obtain ⟨hcode, hinfo0, hinfo1, -, -⟩ := hclear herr
  have keeps {α : Type} (field : State → α) : field (keptOf t) = field (keptOf (accept op s)) := congrArg field h.kept
  have hterr : t.err = false := (keeps State.err).trans herr
  refine (errorRecordOk_iff _).2 ⟨rfl, fun hraised => absurd (hterr.symm.trans hraised) Bool.false_ne_true, fun _ => ?_⟩
  exact ⟨(keeps State.errCode).trans hcode, (keeps State.errInfo0).trans hinfo0, (keeps State.errInfo1).trans hinfo1,
    rfl, rfl⟩

theorem CommandEnds.errorRecordOk {s t : State} (h : CommandEnds s t) (hs : errorRecordOk s = true) :
    errorRecordOk t = true := by
  cases h with
  | ignored => exact hs
  | completed herr h => exact h.errorRecordOk_endNormal herr hs
  | raised i0 i1 ph st _ he _ => exact errorRecordOk_endRaised he i0 i1 ph st _
  | cleared => rfl

theorem errorRecordOk_withStored (s t : State) : errorRecordOk (withStored s t) = errorRecordOk s := rfl

theorem WriteEnds.errorRecordOk {s t : State} (h : WriteEnds s t) (hs : errorRecordOk s = true) :
    errorRecordOk t = true := by
  cases h with
  | raised a d he => exact errorRecordOk_errorEntry he _ _ _ _ ((errorRecordOk_iff s).1 hs).1
  | stored h => rwa [h, errorRecordOk_withStored]

theorem errorRecordOk_portRead (a : Nat) (s : State) : errorRecordOk (portRead a s) = errorRecordOk s := by
  obtain ⟨v, n, h⟩ := portRead_frame a s
  rw [h]
  rfl

theorem errorRecordOk_resetOf (c : Config) : errorRecordOk (State.resetOf c) = true := rfl

/-! ### CODE and NODE -/

theorem CommandEnds.codeCoherent {s t : State} (h : CommandEnds s t) (hs : CodeCoherent s) : CodeCoherent t := by
  cases h with
  | ignored => exact hs
  | completed _ h => exact h.code hs
  | raised _ _ _ _ _ _ h => exact h.code hs
  | cleared => exact hs

theorem WriteEnds.codeCoherent {s t : State} (h : WriteEnds s t) (hs : CodeCoherent s) : CodeCoherent t := by
  cases h with
  | raised => exact hs
  | stored _ hcode =>
    rcases hcode with ⟨hnode, hcode⟩ | hcode
    · rwa [CodeCoherent, hnode, hcode]
    · exact .inl hcode

theorem codeCoherent_portRead (a : Nat) {s : State} (hs : CodeCoherent s) : CodeCoherent (portRead a s) := by
  obtain ⟨v, n, h⟩ := portRead_frame a s
  rw [h]
  exact hs

theorem codeCoherent_resetOf (c : Config) : CodeCoherent (State.resetOf c) := .inl rfl

/-! ### The step -/

/-- Taking the next host operation from the script, a command, a port write, a read and a reset are all a step can do; what
each of them keeps, every step keeps. -/
theorem step_keeps {I : State → Prop} (hscript : ∀ s rest, I s → I { s with script := rest })
    (hcommand : ∀ s t, CommandEnds s t → I s → I t) (hwrite : ∀ s t, WriteEnds s t → I s → I t)
    (hread : ∀ a s, I s → I (portRead a s)) (hreset : ∀ s, I (hostReset s)) {s t : State} (hs : I s)
    (h : step s = .next t) : I t := by
  rcases step_next h with ⟨-, rfl⟩ | ⟨op, rest, -, -, hop⟩
  · exact hs
  · have hrest := hscript s rest hs
    rcases hop with ⟨w, -, hw⟩ | ⟨a, d, -, -, rfl⟩ | ⟨a, -, rfl⟩ | ⟨-, rfl⟩
    · exact hcommand _ _ (issue_ends hw) hrest
    · exact hwrite _ _ (portWrite_ends a d _) hrest
    · exact hread a _ hrest
    · exact hreset _

/-- Settles O57, by what commands, writes and reads do to the record. -/
theorem stepKeepsErrorRecord : Obligations.StepKeepsErrorRecord := fun _ _ =>
  step_keeps (I := fun s => errorRecordOk s = true) (fun _ _ => id) (fun _ _ => CommandEnds.errorRecordOk)
    (fun _ _ => WriteEnds.errorRecordOk) (fun a s => (errorRecordOk_portRead a s).trans) fun s =>
    errorRecordOk_resetOf s.cfg

/-- Settles O59, by what commands, writes and reads do to NODE and CODE. -/
theorem stepKeepsCodeCoherent : Obligations.StepKeepsCodeCoherent := fun _ _ =>
  step_keeps (fun _ _ => id) (fun _ _ => CommandEnds.codeCoherent) (fun _ _ => WriteEnds.codeCoherent)
    (fun a _ => codeCoherent_portRead a) fun s => codeCoherent_resetOf s.cfg

/-- Settles O60: the reset state has no record, canonical buffers, and no CODE. -/
theorem resetMeetsInvariants : Obligations.ResetMeetsInvariants := fun c hc =>
  ⟨errorRecordOk_resetOf c, Memory.wf_resetOf hc, codeCoherent_resetOf c⟩

end Sys2Proof
end

section
/-! PROOF. O55: the rule of every command answers the same, but for the flags, whatever the flags were (R42). -/

namespace Sys2Proof

open Machine

/-! ### Rules that do not read the flags -/

@[simp] theorem forgetFlags_cfg (s : State) : (forgetFlags s).cfg = s.cfg := rfl
@[simp] theorem forgetFlags_err (s : State) : (forgetFlags s).err = s.err := rfl
@[simp] theorem forgetFlags_text (s : State) : (forgetFlags s).text = s.text := rfl
@[simp] theorem forgetFlags_node (s : State) : (forgetFlags s).node = s.node := rfl
@[simp] theorem forgetFlags_code (s : State) : (forgetFlags s).code = s.code := rfl
@[simp] theorem forgetFlags_bits (s : State) : (forgetFlags s).bits = s.bits := rfl

/-- What a rule answers, with the flags forgotten. -/
def forgetEnded : Ended → Ended
  | .ok s => .ok (forgetFlags s)
  | .error s => .error (forgetFlags s)

/-- A rule answers the same, but for the flags, when the flags are forgotten first. -/
def IgnoresFlags (body : State → Ended) : Prop := ∀ s, forgetEnded (body s) = forgetEnded (body (forgetFlags s))

theorem IgnoresFlags.congr {body : State → Ended} (h : IgnoresFlags body) {s s' : State}
    (hs : forgetFlags s = forgetFlags s') : forgetEnded (body s) = forgetEnded (body s') := by
  rw [h s, hs, ← h s']

/-- One rule or another, on a condition that is not about the flags. -/
theorem ignoresFlags_ite {c : State → Prop} [DecidablePred c] {body body' : State → Ended}
    (hc : ∀ s, c (forgetFlags s) ↔ c s) (h : IgnoresFlags body) (h' : IgnoresFlags body') :
    IgnoresFlags fun s => if c s then body s else body' s := by
  intro s
  by_cases hs : c s
  · simpa [hc, hs] using h s
  · simpa [hc, hs] using h' s

/-- One rule after another, the second from what the first leaves. -/
theorem IgnoresFlags.bind {body body' : State → Ended} (h : IgnoresFlags body) (h' : IgnoresFlags body') :
    IgnoresFlags fun s => (body s).bind body' := by
  intro s
  have hbody := h s
  dsimp only
  cases hu : body s with
  | error u =>
    cases hu' : body (forgetFlags s) with
    | error u' => rwa [hu, hu'] at hbody
    | ok u' => rw [hu, hu'] at hbody; cases hbody
  | ok u =>
    cases hu' : body (forgetFlags s) with
    | error u' => rw [hu, hu'] at hbody; cases hbody
    | ok u' =>
      rw [hu, hu'] at hbody
      exact h'.congr (Except.ok.inj hbody)

/-! ### The rules of the commands

What a rule decides on is in the buffers, PK_BITS and the parameters; in each case of the decision it writes the same. -/

theorem ignoresFlags_diffBody : IgnoresFlags diffBody :=
  ignoresFlags_ite (fun _ => Iff.rfl) (fun _ => rfl) (ignoresFlags_ite (fun _ => Iff.rfl) (fun _ => rfl) fun _ => rfl)

theorem ignoresFlags_btreeBody : IgnoresFlags btreeBody := by
  refine ignoresFlags_ite (fun _ => Iff.rfl) (fun _ => rfl) fun s => ?_
  simp only [forgetFlags_text, forgetFlags_cfg]
  cases countFreq s.cfg.maxSyms s.text 0 [] <;> rfl

theorem ignoresFlags_bcodesBody : IgnoresFlags bcodesBody := by
  intro s
  simp only [bcodesBody, forgetFlags_node]
  cases treeFault s.node with
  | some q => rfl
  | none => cases codesOf s.node <;> rfl

theorem ignoresFlags_encodeBody : IgnoresFlags encodeBody := by
  intro s
  simp only [encodeBody, forgetFlags_cfg, forgetFlags_code, forgetFlags_text]
  cases encodeFrom s.cfg.maxBits s.code s.text 0 [] <;> rfl

theorem ignoresFlags_decodeBody : IgnoresFlags decodeBody := by
  refine ignoresFlags_ite (fun _ => Iff.rfl) (fun _ => rfl) fun s => ?_
  simp only [forgetFlags_bits, forgetFlags_node, forgetFlags_cfg]
  cases treeFault s.node with
  | some q => rfl
  | none => cases decodeBits s.node s.cfg.maxText s.bits <;> rfl

theorem ignoresFlags_packBody : IgnoresFlags packBody := fun _ => rfl

theorem ignoresFlags_unpackBody : IgnoresFlags unpackBody := fun _ => rfl

theorem ignoresFlags_unpackTBody : IgnoresFlags unpackTBody :=
  ignoresFlags_ite (fun _ => Iff.rfl) (fun _ => rfl) fun _ => rfl

theorem ignoresFlags_cmpBody : IgnoresFlags cmpBody := fun _ => rfl

theorem ignoresFlags_cmpPBody : IgnoresFlags cmpPBody := fun _ => rfl

theorem ignoresFlags_statBody : IgnoresFlags statBody := fun _ => rfl

/-! ### RUN (R206) -/

theorem IgnoresFlags.runStep {body : State → Ended} (h : IgnoresFlags body) (st ph : BitVec 4) :
    IgnoresFlags (runStep st ph body) := fun _ => h.congr rfl

theorem runSteps_cons_eq_bind (st ph : BitVec 4) (body : State → Ended)
    (rest : List (BitVec 4 × BitVec 4 × (State → Ended))) :
    runSteps ((st, ph, body) :: rest) = fun s => (runStep st ph body s).bind (runSteps rest) := by
  funext s
  rw [runSteps]
  cases runStep st ph body s <;> rfl

theorem ignoresFlags_runSteps {steps : List (BitVec 4 × BitVec 4 × (State → Ended))}
    (hsteps : ∀ e ∈ steps, IgnoresFlags e.2.2) : IgnoresFlags (runSteps steps) := by
  induction steps with
  | nil => exact fun _ => rfl
  | cons e rest ih =>
    obtain ⟨st, ph, body⟩ := e
    obtain ⟨hbody, hrest⟩ := List.forall_mem_cons.1 hsteps
    rw [runSteps_cons_eq_bind]
    exact (hbody.runStep st ph).bind (ih hrest)

theorem ignoresFlags_codecOrBypass : IgnoresFlags codecOrBypass := by
  refine ignoresFlags_ite (fun _ => Iff.rfl) (fun _ => rfl) (ignoresFlags_runSteps ?_)
  simp [codecSteps, ignoresFlags_btreeBody, ignoresFlags_bcodesBody, ignoresFlags_encodeBody, ignoresFlags_packBody,
    ignoresFlags_decodeBody, ignoresFlags_cmpBody, ignoresFlags_unpackTBody, ignoresFlags_cmpPBody]

theorem runBody_eq_bind :
    runBody = fun s =>
      ((runStep 1 0x1 diffBody (clearRunOutputs s)).bind codecOrBypass).bind (runStep 11 0x9 statBody) := by
  funext s
  rw [runBody]
  cases runStep 1 0x1 diffBody (clearRunOutputs s) with
  | error e => rfl
  | ok u => cases h : codecOrBypass u <;> simp [Except.bind, h]

theorem ignoresFlags_runBody : IgnoresFlags runBody := by
  have hfirst : IgnoresFlags fun s => runStep 1 0x1 diffBody (clearRunOutputs s) := fun _ =>
    (ignoresFlags_diffBody.runStep 1 0x1).congr rfl
  rw [runBody_eq_bind]
  exact (hfirst.bind ignoresFlags_codecOrBypass).bind (ignoresFlags_statBody.runStep 11 0x9)

/-! ### The commands -/

theorem forgetFlags_finish (r : Ended) : forgetFlags (finish r) = forgetFlags (finish (forgetEnded r)) := by
  cases r <;> rfl

/-- Acceptance tests ERR, which is no flag of R42, and the end of a command writes DONE only among the flags. -/
theorem forgetFlags_command {op : BitVec 4} {body : State → Ended} (hbody : IgnoresFlags body) {s s' t t' : State}
    (hs : forgetFlags s = forgetFlags s') (ht : command op body s = .next t) (ht' : command op body s' = .next t') :
    forgetFlags t = forgetFlags t' := by
  have herr : s.err = s'.err := by rw [← forgetFlags_err, hs, forgetFlags_err]
  rcases command_next ht with ⟨h, rfl⟩ | ⟨h, rfl⟩ <;> rcases command_next ht' with ⟨h', rfl⟩ | ⟨h', rfl⟩
  · exact hs
  · simp [h, h'] at herr
  · simp [h, h'] at herr
  · have haccept : forgetFlags (accept op s) = forgetFlags (accept op s') := congrArg (accept op) hs
    rw [forgetFlags_finish, hbody.congr haccept, ← forgetFlags_finish]

/-- Settles O55: every arm but CLR's is a command with a rule that ignores the flags, and CLR clears them. -/
theorem flagsAreOutputs : Obligations.FlagsAreOutputs := by
  intro i s s' t t' hs ht ht'
  cases i with
  | diff => exact forgetFlags_command ignoresFlags_diffBody hs ht ht'
  | btree => exact forgetFlags_command ignoresFlags_btreeBody hs ht ht'
  | bcodes => exact forgetFlags_command ignoresFlags_bcodesBody hs ht ht'
  | encode => exact forgetFlags_command ignoresFlags_encodeBody hs ht ht'
  | decode => exact forgetFlags_command ignoresFlags_decodeBody hs ht ht'
  | pack => exact forgetFlags_command ignoresFlags_packBody hs ht ht'
  | unpack => exact forgetFlags_command ignoresFlags_unpackBody hs ht ht'
  | unpackT => exact forgetFlags_command ignoresFlags_unpackTBody hs ht ht'
  | cmp => exact forgetFlags_command ignoresFlags_cmpBody hs ht ht'
  | cmpP => exact forgetFlags_command ignoresFlags_cmpPBody hs ht ht'
  | stat => exact forgetFlags_command ignoresFlags_statBody hs ht ht'
  | run => exact forgetFlags_command ignoresFlags_runBody hs ht ht'
  | clr =>
    cases ht
    cases ht'
    have hclr : ∀ u, forgetFlags (endNormal (clearErrors (accept 0xF u))) =
        forgetFlags (endNormal (clearErrors (accept 0xF (forgetFlags u)))) := fun _ => rfl
    exact (hclr s).trans (hs ▸ (hclr s').symm)

end Sys2Proof
end

section
/-! PROOF. O11 and O19: the bits of STATUS and the register map. -/

namespace Sys2Proof

open Machine

/-! ### STATUS (R23) -/

theorem flagBit_eq (b : Bool) (pos : Nat) : flagBit b pos = 2 ^ pos * b.toNat := by
  cases b <;> simp [flagBit]

/-- STATUS as a binary number, its lowest bit first: the eight flags, then PHASE and STEP. -/
theorem statusWord_eq_bit (s : State) :
    statusWord s = BitVec.ofNat 32
      (Nat.bit s.busy (Nat.bit s.done (Nat.bit s.err (Nat.bit s.verified (Nat.bit s.verifiedPk (Nat.bit s.mismatch
        (Nat.bit s.empty (Nat.bit s.decPartial (2 ^ 4 * s.stepOrd.toNat + s.phase.toNat))))))))) := by
  simp only [statusWord, flagBit_eq, Nat.bit_val]
  congr 1
  omega

/-- The positions above the flags. -/
theorem statusWord_getLsbD_add (s : State) (k : Nat) :
    (statusWord s).getLsbD (8 + k) =
      (decide (8 + k < 32) && if k < 4 then s.phase.getLsbD k else s.stepOrd.getLsbD (k - 4)) := by
  rw [statusWord_eq_bit, BitVec.getLsbD_ofNat, Nat.add_comm 8 k]
  simp only [Nat.testBit_bit_succ]
  rw [Nat.testBit_two_pow_mul_add _ s.phase.isLt]
  rfl

/-- Settles O11: the flags one after another, then the two fields of four bits. -/
theorem statusLayout : Obligations.StatusLayout := by
  intro s
  refine ⟨?_, ?_, ?_, ?_, ?_, ?_, ?_, ?_, fun k hk => ?_, fun k hk => ?_, fun k hk => ?_⟩
  case refine_9 =>
    rw [statusWord_getLsbD_add, if_pos hk, decide_eq_true (by omega), Bool.true_and]
  case refine_10 =>
    have hpos : 12 + k = 8 + (4 + k) := by omega
    rw [hpos, statusWord_getLsbD_add, if_neg (by omega), decide_eq_true (by omega), Bool.true_and, Nat.add_sub_cancel_left]
  case refine_11 =>
    have hpos : k = 8 + (k - 8) := by omega
    rw [hpos, statusWord_getLsbD_add, if_neg (by omega), BitVec.getLsbD_of_ge _ _ (by omega), Bool.and_false]
  all_goals
    rw [statusWord_eq_bit, BitVec.getLsbD_ofNat]
    simp only [Nat.testBit_bit_succ, Nat.testBit_bit_zero]
    rfl

/-! ### The register map (R22) -/

/-- The RO addresses (R64). -/
def IsReadOnly (a : Nat) : Prop :=
  (1 ≤ a ∧ a ≤ 0x0A) ∨ (0x10 ≤ a ∧ a ≤ 0x1B) ∨ (0x20 ≤ a ∧ a ≤ 0x24) ∨ (0x43 ≤ a ∧ a ≤ 0x45)

theorem writeCsr_of_readOnly {a : Nat} (h : IsReadOnly a) (d : Word) (s : State) : writeCsr a d s = s := by
  unfold IsReadOnly at h
  unfold writeCsr
  split
  case h_16 => rfl
  all_goals omega

theorem portWrite_of_readOnly {a : Nat} (h : IsReadOnly a) (d : Word) (s : State) : portWrite a d s = s := by
  unfold portWrite
  split
  · rfl
  · exact writeCsr_of_readOnly h d s

/-- A read at a register of the block outside the window. -/
theorem step_read_csr {s : State} {a : Nat} {rest : List HostOp} (hb : s.busy = false) (hs : s.script = .read a :: rest)
    (hr : reservedAddr a = false) (ha : a ≤ 0x42) :
    step s = .next { s with script := rest, readData := some (readCsr a { s with script := rest }) } := by
  rw [step_read hb hs (by omega) hr, portRead_csr (by omega)]

/-- The registers but ERRCODE and the window words, with what they hold. -/
def registers (s : State) : List (Nat × Word) :=
  [(0x01, statusWord s), (0x03, s.errInfo0), (0x04, s.errInfo1),
    (0x05, 0x4C435344#32), (0x06, word s.cfg.maxLines), (0x07, word s.cfg.maxInSyms), (0x08, word s.cfg.maxText),
    (0x09, word s.cfg.maxSyms), (0x0A, word s.cfg.maxBits), (0x10, word s.aEnd.length), (0x11, word s.aSym.length),
    (0x12, word s.bEnd.length), (0x13, word s.bSym.length), (0x14, word s.lcs.length), (0x15, word s.text.length),
    (0x16, word s.freq.length), (0x17, word s.node.length), (0x18, word s.code.length), (0x19, word s.bits.length),
    (0x1A, word s.bytes.length), (0x1B, word s.dtext.length), (0x1C, s.pkBits), (0x20, s.aBytes), (0x21, s.bBytes),
    (0x22, s.textBytes), (0x23, s.ratioQ), (0x24, s.ratioR), (0x40, s.rdBuf), (0x41, s.rdIdx), (0x42, s.rdSub)]

theorem readCsr_registers (s : State) : (registers s).map (fun r => readCsr r.1 s) = (registers s).map Prod.snd := rfl

theorem registers_address (s : State) : ∀ a ∈ (registers s).map Prod.fst, reservedAddr a = false ∧ a ≤ 0x42 := by
  have haddr : (registers s).map Prod.fst =
      [0x01, 0x03, 0x04, 0x05, 0x06, 0x07, 0x08, 0x09, 0x0A, 0x10, 0x11, 0x12, 0x13, 0x14, 0x15, 0x16, 0x17, 0x18, 0x19,
        0x1A, 0x1B, 0x1C, 0x20, 0x21, 0x22, 0x23, 0x24, 0x40, 0x41, 0x42] := rfl
  rw [haddr]
  decide

/-- A read of a register returns what it holds. -/
theorem step_read_register {s : State} {a : Nat} {v : Word} {rest : List HostOp} (hb : s.busy = false)
    (hs : s.script = .read a :: rest) (h : (a, v) ∈ registers s) :
    step s = .next { s with script := rest, readData := some v } := by
  obtain ⟨hr, ha⟩ := registers_address s a (List.mem_map_of_mem h)
  have hv : readCsr a { s with script := rest } = v :=
    List.map_inj_left.1 (readCsr_registers { s with script := rest }) (a, v) h
  rw [step_read_csr hb hs hr ha, hv]

/-- The numbers of the error codes (R230). -/
def errorNumbers : List (ErrCode × Word) :=
  [(.none, 0), (.illegalCmd, 1), (.emptyInput, 2), (.unknownSymbol, 3), (.capacity, 4), (.badTree, 5), (.invalidCode, 6),
    (.operand, 7)]

theorem word_number_of_mem {e : ErrCode} {n : Word} (h : (e, n) ∈ errorNumbers) : word e.number = n := by
  have hall : ∀ r ∈ errorNumbers, word r.1.number = r.2 := by decide
  exact hall _ h

/-- ERRCODE reads as the number of the error (R230). -/
theorem step_read_errCode {s : State} {rest : List HostOp} (hb : s.busy = false) (hs : s.script = .read 0x02 :: rest) :
    step s = .next { s with script := rest, readData := some (word s.errCode.number) } :=
  step_read_csr hb hs rfl (by decide)

/-- A WO address reads 0 (R64). -/
theorem readCsr_of_writeOnly {a : Nat} (h : a = 0 ∨ (0x30 ≤ a ∧ a ≤ 0x3A)) (s : State) : readCsr a s = 0 := by
  unfold readCsr
  split
  case h_32 => rfl
  all_goals omega

/-- A write at a RO address changes nothing (R64). -/
theorem step_write_readOnly {s : State} {a : Nat} {d : Word} {rest : List HostOp} (ha : IsReadOnly a)
    (h : Accepts s a d rest) : step s = .next { s with script := rest } := by
  obtain ⟨hb, -, hs⟩ := h
  have hr : reservedAddr a = false := by
    rw [← Bool.not_eq_true, reservedAddr_iff]
    unfold IsReadOnly at ha
    omega
  unfold IsReadOnly at ha
  rw [step_write hb hs (by omega) hr, if_neg (by omega), portWrite_of_readOnly ha]

/-- A read of a window word of a selected element (R74). -/
theorem step_read_selected {s : State} {a : Nat} {d : Word × Word × Word} {rest : List HostOp} (hb : s.busy = false)
    (hs : s.script = .read a :: rest) (h1 : 0x43 ≤ a) (h2 : a ≤ 0x45) (hd : windowWords s = some d) :
    step s = .next { s with script := rest, readData := some (windowPart a d) } := by
  rcases step_read_window hb h1 h2 hs with ⟨d', hd', h⟩ | ⟨hnone, -⟩
  · rw [h, Option.some.inj (hd.symm.trans hd')]
  · cases hd.symm.trans hnone

/-- Settles O19, by the kinds of registers: RO writes, WO reads, ERRCODE, the window with and without a selection, the
others. -/
theorem csrMap : Obligations.CsrMap := by
  refine ⟨fun s a d rest ha h => step_write_readOnly ha h, fun s a rest hb hs => ⟨fun ha => ?_, ?_, ?_, ?_, ?_⟩⟩
  · have hr : reservedAddr a = false := by
      rw [← Bool.not_eq_true, reservedAddr_iff]
      omega
    rw [step_read_csr hb hs hr (by omega), readCsr_of_writeOnly ha]
  · rintro e n he rfl rfl
    rw [step_read_errCode hb hs, word_number_of_mem he]
  · intro d0 d1 d2 v hd hv
    simp only [List.mem_cons, Prod.mk.injEq, List.not_mem_nil, or_false] at hv
    rcases hv with ⟨rfl, rfl⟩ | ⟨rfl, rfl⟩ | ⟨rfl, rfl⟩ <;>
      exact step_read_selected hb hs (by decide) (by decide) hd
  · intro hd h1 h2
    rcases step_read_window hb h1 h2 hs with ⟨d, hd', -⟩ | ⟨-, h⟩
    · cases hd.symm.trans hd'
    · exact h
  · exact fun v hv => step_read_register hb hs hv

end Sys2Proof
end

section
/-! PROOF. O4, O6, O7 and O10: the step at CMD, the accesses the model stops, and the reads. -/

namespace Sys2Proof

open Machine

/-! ### The accesses the model stops (R60 to R62) -/

/-- A stopped operation ends the step with its stop. -/
theorem step_stopped {s : State} {op : HostOp} {rest : List HostOp} {stop : Host.Outcome State Fault Refusal}
    (hs : s.script = op :: rest) (h : stopOf op { s with script := rest } = some stop) : step s = stop := by
  rw [step_cons hs]
  unfold hostStep
  rw [h]

theorem stopAt_outside {a : Nat} (ha : 0x80 ≤ a) (allowed : Bool) (s : State) :
    stopAt a allowed s = some (.fault (.noSuchAddress a)) := by simp [stopAt, ha]

theorem stopAt_busy {a : Nat} {s : State} (ha : a < 0x80) (hb : s.busy = true) :
    stopAt a false s = some (.refused (.busyAccess a)) := by simp [stopAt, ha, hb]

theorem stopAt_reserved {a : Nat} {s : State} (hb : s.busy = false) (ha : a < 0x80) (hr : reservedAddr a = true)
    (allowed : Bool) : stopAt a allowed s = some (.refused (.reservedAddress a)) := by simp [stopAt, ha, hb, hr]

/-- STATUS can be read at any time (R61). -/
theorem stopAt_status (s : State) : stopAt 0x01 true s = none := by simp [stopAt, reservedAddr]

/-! ### The reserved addresses on the hardware (R62) -/

theorem lt_of_reserved {a : Nat} (h : reservedAddr a = true) : a < 0x80 := by
  rw [reservedAddr_iff] at h
  omega

theorem portWrite_reserved {a : Nat} (h : reservedAddr a = true) (d : Word) (s : State) : portWrite a d s = s := by
  rw [reservedAddr_iff] at h
  unfold portWrite writeCsr
  split
  · rfl
  · split
    case h_16 => rfl
    all_goals omega

theorem readCsr_reserved {a : Nat} (h : reservedAddr a = true) (s : State) : readCsr a s = 0 := by
  rw [reservedAddr_iff] at h
  unfold readCsr
  split
  case h_32 => rfl
  all_goals omega

theorem portRead_reserved {a : Nat} (h : reservedAddr a = true) (s : State) :
    portRead a s = { s with readData := some 0 } := by
  have ha := (reservedAddr_iff a).1 h
  rw [portRead_csr (by omega), readCsr_reserved h]

/-! ### The statements -/

/-- Settles O4: CMD is not a reserved address, so the write is issued. -/
theorem stepRunsDecodedCommand : Obligations.StepRunsDecodedCommand := by
  intro s w i rest hb hs hi
  rw [step_write hb hs (by decide) rfl, if_pos rfl, issue, hi]

/-- Settles O6, by the stop at a reserved address and by what the port operations do there. -/
theorem reservedAddressStops : Obligations.ReservedAddressStops := by
  intro s a d rest hb ha
  have hr : reservedAddr a = true := (reservedAddr_iff a).2 ha
  have hlt := lt_of_reserved hr
  exact ⟨fun hs => step_stopped hs (stopAt_reserved hb hlt hr false),
    fun hs => step_stopped hs (stopAt_reserved hb hlt hr (a == 0x01)),
    portWrite_reserved hr d s, portRead_reserved hr s⟩

/-- Settles O7: outside the block, while BUSY = 1, and the read of STATUS. -/
theorem accessesTheHostHasNot : Obligations.AccessesTheHostHasNot := by
  intro s a d rest
  refine ⟨fun ha => ⟨fun hs => ?_, fun hs => ?_⟩, fun ha hb => ⟨fun hs => ?_, fun hs hne => ?_⟩, fun hs => ?_⟩
  · exact step_stopped hs (stopAt_outside ha _ _)
  · exact step_stopped hs (stopAt_outside ha _ _)
  · exact step_stopped hs (stopAt_busy ha hb)
  · refine step_stopped hs ?_
    rw [stopOf, beq_false_of_ne hne]
    exact stopAt_busy ha hb
  · rw [step_cons hs, hostStep, show stopOf (.read 0x01) { s with script := rest } = none from stopAt_status _]
    exact congrArg _ (portRead_csr (by decide))

/-- Settles O10, by the frame of a read. -/
theorem readsHaveNoSideEffect : Obligations.ReadsHaveNoSideEffect := by
  intro s t a rest hs ht
  rcases step_next ht with ⟨hnil, -⟩ | ⟨op, rest', hs', -, hop⟩
  · cases hs.symm.trans hnil
  · cases hs.symm.trans hs'
    rcases hop with ⟨w, hop, -⟩ | ⟨a', d, hop, -⟩ | ⟨a', hop, rfl⟩ | ⟨hop, -⟩ <;> cases hop
    obtain ⟨v, n, h⟩ := portRead_frame a { s with script := rest }
    rw [h]

end Sys2Proof
end

section
/-! PROOF. O14 to O18 and O20: the writes at the ports, each with its checks in order (R65 to R73). -/

namespace Sys2Proof

open Machine

/-! ### Accepted writes -/

/-- An accepted write at an address of the block other than CMD. -/
theorem step_accepts {s : State} {a : Nat} {d : Word} {rest : List HostOp} (h : Accepts s a d rest) (h0 : a ≠ 0)
    (ha : a < 0x80) (hr : reservedAddr a = false) : step s = .next (writeCsr a d { s with script := rest }) := by
  obtain ⟨hb, herr, hs⟩ := h
  rw [step_write hb hs ha hr, if_neg h0, portWrite_of_no_err (s := { s with script := rest }) herr]

/-- A push, with its checks written out in their order (R65): `bad` is what the data word must not be. -/
theorem push_eq_ite {α : Type} {bad : Prop} [Decidable bad] {operand : Option α} {v : α}
    (hop : operand = if bad then none else some v) (addr : Nat) (d : Word) (cap : Nat) (buf : List α)
    (store : List α → State) (s : State) :
    push addr d operand cap buf store s =
      if bad then portRecord .operand addr d s
      else if buf.length = cap then portRecord .capacity addr d s
      else store (buf ++ [v]) := by
  subst hop
  by_cases hbad : bad
  · simp only [if_pos hbad]
    rfl
  · by_cases hfull : buf.length = cap
    · simp only [if_neg hbad, if_pos hfull, push, appendTo_none.2 hfull]
      rfl
    · simp only [if_neg hbad, if_neg hfull, push, appendTo_of_ne hfull]

/-- A push of an operand that is not checked (R67). -/
theorem push_some_eq_ite {α : Type} (addr : Nat) (d : Word) (v : α) (cap : Nat) (buf : List α)
    (store : List α → State) (s : State) :
    push addr d (some v) cap buf store s =
      if buf.length = cap then portRecord .capacity addr d s else store (buf ++ [v]) := by
  rw [push_eq_ite (bad := False) (if_neg id).symm, if_neg id]

/-! ### The operands, the check first -/

theorem symbolOperand_eq_ite {c : Config} (hc : c.symW ≤ 21) (d : Word) :
    symbolOperand c d = if d.toNat / 2 ^ c.symW ≠ 0 then none else some (BitVec.ofNat 21 d.toNat) := by
  rw [symbolOperand_eq (by omega), ite_not]

theorem bitOperand_eq_ite (d : Word) :
    bitOperand d = if d.toNat / 2 ≠ 0 then none else some (decide (d.toNat = 1)) := by
  rw [bitOperand_eq, ite_not]

theorem byteOperand_eq_ite (d : Word) :
    byteOperand d = if d.toNat / 2 ^ 8 ≠ 0 then none else some (BitVec.ofNat 8 d.toNat) := by
  rw [byteOperand_eq, ite_not]

/-- The `sym` field of NODE_W0 (R69). -/
def stagedSym (c : Config) (w0 : Word) : Nat := w0.toNat % 2 ^ c.symW

/-- The record NODE_W2 appends when its checks pass (R69). -/
def stagedRecord (c : Config) (w0 w1 d : Word) : NodeRec :=
  if w0.getLsbD 31 then .internal w1.toNat (d.toNat % 2 ^ 16) (d.toNat / 2 ^ 16)
  else .leaf (BitVec.ofNat 21 (stagedSym c w0)) w1.toNat

/-- NODE_W2's three checks of the fields, in their order (R69). -/
theorem nodeOperand_eq_ite {c : Config} (h1 : 1 ≤ c.symW) (h31 : c.symW ≤ 31) (w0 w1 d : Word) :
    nodeOperand c w0 w1 d =
      if w0.toNat % 2 ^ 31 / 2 ^ c.symW ≠ 0 ∨ (w0.getLsbD 31 = true ∧ stagedSym c w0 ≠ 0) ∨
        (w0.getLsbD 31 = false ∧ d ≠ 0) then none
      else some (stagedRecord c w0 w1 d) := by
  have hsym : bitField w0 (c.symW - 1) 0 = stagedSym c w0 := by
    rw [bitField_zero, Nat.sub_add_cancel h1]
    rfl
  have hreserved : bitField w0 30 c.symW = w0.toNat % 2 ^ 31 / 2 ^ c.symW := by
    rw [bitField, ← Nat.mod_mul_right_div_self, ← pow_add, Nat.add_sub_cancel' h31]
  have hleft : bitField d 15 0 = d.toNat % 2 ^ 16 := bitField_zero d 15
  have hright : bitField d 31 16 = d.toNat / 2 ^ 16 := bitField_top d (by decide)
  simp only [nodeOperand, stagedRecord, hsym, hreserved, hleft, hright]
  rw [ite_or, ite_or]
  refine if_congr Iff.rfl rfl ?_
  cases w0.getLsbD 31 with
  | false => simp
  | true => simp

/-! ### The statements on the pushes -/

/-- Settles O14: the three symbol ports by their operand, the two line ports without a check. -/
theorem textPushes : Obligations.TextPushes := by
  intro s d rest hw u
  refine ⟨fun h => ?_, fun h => ?_, fun h => ?_, fun h => ?_, fun h => ?_⟩ <;>
    rw [step_accepts h (by decide) (by decide) rfl]
  case refine_1 | refine_2 | refine_3 => exact congrArg _ (push_eq_ite (symbolOperand_eq_ite hw d) _ _ _ _ _ u)
  case refine_4 | refine_5 => exact congrArg _ (push_some_eq_ite _ _ _ _ _ _ u)

/-- Settles O15: the staging words are stored, and NODE_W2 is a push behind three checks. -/
theorem nodePush : Obligations.NodePush := by
  intro s d rest h1 h21 u
  refine ⟨fun h => step_accepts h (by decide) (by decide) rfl, fun h => step_accepts h (by decide) (by decide) rfl,
    fun h => ?_⟩
  rw [step_accepts h (by decide) (by decide) rfl]
  have hpush := push_eq_ite (nodeOperand_eq_ite h1 (by omega) s.nodeW0 s.nodeW1 d) 0x38 d s.cfg.maxNodes s.node
    (fun b => { u with node := b, code := [] }) u
  rw [ite_or, ite_or] at hpush
  exact congrArg _ hpush

/-- Settles O16: the two ports by their operands. -/
theorem bitAndBytePushes : Obligations.BitAndBytePushes := by
  intro s d rest u
  refine ⟨fun h => ?_, fun h => ?_⟩ <;> rw [step_accepts h (by decide) (by decide) rfl]
  · exact congrArg _ (push_eq_ite (bitOperand_eq_ite d) _ _ _ _ _ u)
  · exact congrArg _ (push_eq_ite (byteOperand_eq_ite d) _ _ _ _ _ u)

/-! ### BUF_CLR and the plain registers -/

theorem bufClr_of_reserved {m : Word} (h : m.toNat / 2 ^ 6 ≠ 0) (s : State) :
    bufClr m s = portRecord .operand 0x30 m s := by
  rw [← bitField_top m (by decide)] at h
  exact if_pos h

theorem bufClr_of_mask {m : Word} (h : m.toNat / 2 ^ 6 = 0) (s : State) :
    bufClr m s =
      { s with
        aSym := if m.getLsbD 0 then [] else s.aSym
        aEnd := if m.getLsbD 0 then [] else s.aEnd
        bSym := if m.getLsbD 1 then [] else s.bSym
        bEnd := if m.getLsbD 1 then [] else s.bEnd
        text := if m.getLsbD 2 then [] else s.text
        node := if m.getLsbD 3 then [] else s.node
        code := if m.getLsbD 3 then [] else s.code
        nodeW0 := if m.getLsbD 3 then 0 else s.nodeW0
        nodeW1 := if m.getLsbD 3 then 0 else s.nodeW1
        bits := if m.getLsbD 4 then [] else s.bits
        bytes := if m.getLsbD 5 then [] else s.bytes } := by
  rw [← bitField_top m (by decide)] at h
  exact if_neg (not_not.2 h)

/-- Settles O17: the mask is refused whole, or each of its bits chooses what its buffers hold. -/
theorem bufClrEmptiesNamedBuffers : Obligations.BufClrEmptiesNamedBuffers := by
  intro s m rest h u
  refine ⟨bufClr m u, step_accepts h (by decide) (by decide) rfl, fun hm => bufClr_of_reserved hm u, fun hm => ?_⟩
  rw [bufClr_of_mask hm u]
  refine ⟨rfl, ?_, ?_, ?_, ?_, ?_, ?_⟩ <;> dsimp only
  · cases m.getLsbD 0 <;> exact ⟨rfl, rfl⟩
  · cases m.getLsbD 1 <;> exact ⟨rfl, rfl⟩
  · cases m.getLsbD 2 <;> rfl
  · cases m.getLsbD 3 <;> exact ⟨rfl, rfl, rfl, rfl⟩
  · cases m.getLsbD 4 <;> rfl
  · cases m.getLsbD 5 <;> rfl

/-- Settles O18: none of the four addresses has a check. -/
theorem plainRegisterWrites : Obligations.PlainRegisterWrites := by
  intro s d rest
  refine ⟨fun h => ?_, fun h => ?_, fun h => ?_, fun h => ?_⟩ <;> exact step_accepts h (by decide) (by decide) rfl

/-! ### What a port write that raises leaves (R65) -/

/-- The record of a port error with its own address and data word, or ERR as it was. -/
def RecordsOrKeepsErr (a : Nat) (d : Word) (s t : State) : Prop :=
  (∃ e, (e = .capacity ∨ e = .operand) ∧ t = portRecord e a d s) ∨ t.err = s.err

theorem push_recordsOrKeepsErr {α : Type} {addr : Nat} {d : Word} {operand : Option α} {cap : Nat} {buf : List α}
    {store : List α → State} {s : State} (hstore : ∀ b, (store b).err = s.err) :
    RecordsOrKeepsErr addr d s (push addr d operand cap buf store s) := by
  rcases push_cases addr d operand cap buf store s with ⟨-, h⟩ | ⟨_, -, -, h⟩ | ⟨_, -, -, h⟩ <;> rw [h]
  · exact .inl ⟨.operand, .inr rfl, rfl⟩
  · exact .inl ⟨.capacity, .inl rfl, rfl⟩
  · exact .inr (hstore _)

theorem bufClr_recordsOrKeepsErr (m : Word) (s : State) : RecordsOrKeepsErr 0x30 m s (bufClr m s) := by
  by_cases h : m.toNat / 2 ^ 6 = 0
  · rw [bufClr_of_mask h]
    exact .inr rfl
  · exact .inl ⟨.operand, .inr rfl, bufClr_of_reserved h s⟩

theorem writeCsr_recordsOrKeepsErr (a : Nat) (d : Word) (s : State) : RecordsOrKeepsErr a d s (writeCsr a d s) := by
  unfold writeCsr
  split
  -- BUF_CLR, then the pushes, then the registers that are stored and the addresses a write does not change
  case h_2 => exact bufClr_recordsOrKeepsErr d s
  case h_3 | h_4 | h_5 | h_6 | h_7 | h_10 | h_11 | h_12 => exact push_recordsOrKeepsErr fun _ => rfl
  all_goals exact .inr rfl

/-- Settles O20: an accepted write finds ERR = 0, so one that leaves ERR = 1 left its record. -/
theorem portErrorsAreRecordsOnly : Obligations.PortErrorsAreRecordsOnly := by
  intro s t a d rest h0 h ht herr
  obtain ⟨-, hok, hs⟩ := h
  rcases step_next ht with ⟨hnil, -⟩ | ⟨op, rest', hs', -, hop⟩
  · cases hs.symm.trans hnil
  · cases hs.symm.trans hs'
    rcases hop with ⟨w, hop, -⟩ | ⟨a', d', hop, -, rfl⟩ | ⟨a', hop, -⟩ | ⟨hop, -⟩ <;> cases hop
    · exact absurd rfl h0
    · rw [portWrite_of_no_err (s := { s with script := rest }) hok] at herr ⊢
      rcases writeCsr_recordsOrKeepsErr a d { s with script := rest } with ⟨e, he, h⟩ | h
      · rw [h]
        exact ⟨he, rfl⟩
      · exact absurd (hok.symm.trans (h.symm.trans herr)) Bool.false_ne_true

end Sys2Proof
end

section
/-! PROOF. O12 and O13: what the read window shows with a valid selection and without one (R74, R75). -/

namespace Sys2Proof

open Machine

/-! ### Words written as sums of bits -/

/-- The number whose n binary digits are `f 0`, …, `f (n − 1)`, the first one most significant. -/
def digitSum (f : Nat → Bool) (n : Nat) : Nat := ((List.range n).map fun k => if f k then 2 ^ (n - 1 - k) else 0).sum

theorem digitSum_succ (f : Nat → Bool) (n : Nat) : digitSum f (n + 1) = Nat.bit (f n) (digitSum f n) := by
  have hdouble : ∀ k ∈ List.range n,
      (if f k then 2 ^ (n + 1 - 1 - k) else 0) = 2 * (if f k then 2 ^ (n - 1 - k) else 0) := by
    intro k hk
    have hexp : n + 1 - 1 - k = n - 1 - k + 1 := by have := List.mem_range.1 hk; omega
    rw [hexp, pow_succ', mul_ite, mul_zero]
  rw [digitSum, List.range_succ, List.map_append, List.sum_append, List.map_congr_left hdouble, List.sum_map_mul_left,
    Nat.bit_val]
  cases h : f n <;> simp [digitSum, h]

/-- The digits of the sum, counted from the most significant one. -/
theorem digitSum_testBit (f : Nat → Bool) {n j : Nat} (hj : j < n) : (digitSum f n).testBit (n - 1 - j) = f j := by
  induction n with
  | zero => omega
  | succ n ih =>
    rw [digitSum_succ]
    by_cases hlast : j = n
    · rw [hlast, Nat.add_sub_cancel, Nat.sub_self, Nat.testBit_bit_zero]
    · have hpos : n + 1 - 1 - j = n - 1 - j + 1 := by omega
      rw [hpos, Nat.testBit_bit_succ, ih (by omega)]

/-- Bit j of a chunk of a code, from the top (R74). -/
theorem codeChunk_getLsbD (bits : List Bool) (c : Nat) {j : Nat} (hj : j < 32) :
    (codeChunk bits c).getLsbD (31 - j) = bits.getD (32 * c + j) false := by
  have hchunk : codeChunk bits c = BitVec.ofNat 32 (digitSum (fun k => bits.getD (32 * c + k) false) 32) := rfl
  rw [hchunk, BitVec.getLsbD_ofNat, decide_eq_true (by omega), Bool.true_and]
  exact digitSum_testBit _ hj

/-- The third word of an internal record: right above left, 16 bits each (R69). -/
theorem word_children {l : Nat} (hl : l < 2 ^ 16) (r : Nat) :
    word (r * 2 ^ 16 + l) = BitVec.ofNat 16 r ++ BitVec.ofNat 16 l := by
  apply BitVec.eq_of_toNat_eq
  rw [word_toNat, BitVec.toNat_append, BitVec.toNat_ofNat, BitVec.toNat_ofNat, Nat.mod_eq_of_lt hl,
    ← Nat.shiftLeft_add_eq_or_of_lt hl, Nat.shiftLeft_eq]
  omega

/-! ### A valid selection -/

/-- The three reads of the window with an element selected. -/
theorem window_shows {s : State} {k id : Nat} {d0 d1 d2 : Word} {rest : List HostOp} (hb : s.busy = false)
    (hk : s.rdIdx.toNat = k) (h : bufferWords id k s.rdSub.toNat s = some (d0, d1, d2)) (hid : s.rdBuf.toNat = id) :
    (s.script = .read 0x43 :: rest → step s = .next { s with script := rest, readData := some d0 }) ∧
    (s.script = .read 0x44 :: rest → step s = .next { s with script := rest, readData := some d1 }) ∧
    (s.script = .read 0x45 :: rest → step s = .next { s with script := rest, readData := some d2 }) := by
  have hw : windowWords s = some (d0, d1, d2) := by rw [windowWords, hid, hk, h]
  exact ⟨fun hs => step_read_selected hb hs (by decide) (by decide) hw,
    fun hs => step_read_selected hb hs (by decide) (by decide) hw,
    fun hs => step_read_selected hb hs (by decide) (by decide) hw⟩

/-- Settles O12: each row of R74's table, by the words of the selected element. -/
theorem readWindowShowsElement : Obligations.ReadWindowShowsElement := by
  intro s k rest hb hk shows
  have row {id : Nat} {d0 d1 d2 : Word} (h : bufferWords id k s.rdSub.toNat s = some (d0, d1, d2)) :
      shows id d0 d1 d2 := window_shows hb hk h
  refine ⟨fun x => ⟨fun h => ?_, fun h => ?_, fun h => ?_, fun h => ?_⟩, fun n => ⟨fun h => ?_, fun h => ?_, fun h => ?_⟩,
    fun e h => ?_, fun x f h => ?_, fun f l r hl h => ?_, fun e h => ?_, fun b h => ?_, fun b h => ?_⟩
  -- an internal record, an entry of CODE, a bit; in every other row the words stand in the table as they are
  case refine_10 =>
    rw [← word_children hl]
    exact row (congrArg (Option.map _) h)
  case refine_11 =>
    exact ⟨codeChunk e.bits s.rdSub.toNat, row (congrArg (Option.map _) h), fun j hj => codeChunk_getLsbD e.bits _ hj⟩
  case refine_12 =>
    have hbit : (if b then 1 else 0 : Word) = word b.toNat := by cases b <;> rfl
    rw [hbit]
    exact row (congrArg (Option.map _) h)
  all_goals exact row (congrArg (Option.map _) h)

/-! ### No valid selection -/

/-- The lengths of the twelve buffers, in the order of their ids (R30). -/
def bufferLengths (s : State) : List Nat :=
  [s.aSym.length, s.aEnd.length, s.bSym.length, s.bEnd.length, s.lcs.length, s.text.length, s.freq.length,
    s.node.length, s.code.length, s.bits.length, s.bytes.length, s.dtext.length]

/-- An index at or above the length of the buffer selects nothing. -/
theorem bufferWords_none_of_length {s : State} {id len k : Nat} (hlen : (bufferLengths s)[id]? = some len)
    (hk : len ≤ k) (sub : Nat) : bufferWords id k sub s = none := by
  unfold bufferWords
  split
  case h_13 => rfl
  all_goals
    cases hlen
    rw [List.getElem?_eq_none hk, Option.map_none]

/-- Settles O13: neither kind of selection names an element. -/
theorem invalidSelectionIsFree : Obligations.InvalidSelectionIsFree := by
  intro s a rest h1 h2 hb hs hsel
  have hw : windowWords s = none := by
    rcases hsel with hid | ⟨len, hlen, hk⟩
    · exact bufferWords_none_of_id hid _ _ _
    · exact bufferWords_none_of_length hlen hk _
  rcases step_read_window hb h1 h2 hs with ⟨d, hd, -⟩ | ⟨-, h⟩
  · cases hw.symm.trans hd
  · exact h

end Sys2Proof
end

section
/-! PROOF. O5: what the block does with the host's operations while ERR = 1 (R63). -/

namespace Sys2Proof

open Machine

/-! ### CLR's word (R98) -/

theorem decodeOp_eq_clr {op : Nat} {t p : Bool} (h : decodeOp op t p = .ok .clr) : op = 0x0F := by
  unfold decodeOp at h
  split at h
  case h_7 => cases t <;> cases h
  case h_8 => cases p <;> cases h
  case h_11 => rfl
  all_goals cases h

/-- One word only is CLR: its opcode allows no modifier, and no reserved bit (R94). -/
theorem eq_of_decode_clr {w : Word} (h : decode w = .ok .clr) : w = 0x0000000F#32 := by
  unfold decode at h
  simp only at h
  split_ifs at h with hreserved ht hp
  have hop : bitField w 7 0 = 0x0F := decodeOp_eq_clr h
  have hzero : bitField w 31 10 = 0 := by simpa [CmdFields.reservedZero, cmdFields] using hreserved
  have hbit8 : w.getLsbD 8 = false := by simpa [CmdFields.tAllowed, cmdFields, hop] using ht
  have hbit9 : w.getLsbD 9 = false := by simpa [CmdFields.pAllowed, cmdFields, hop] using hp
  rw [bitField_zero] at hop
  rw [bitField_top w (by decide)] at hzero
  rw [BitVec.getLsbD, Nat.testBit_eq_decide_div_mod_eq, decide_eq_false_iff_not] at hbit8 hbit9
  apply BitVec.eq_of_toNat_eq
  rw [BitVec.toNat_ofNat]
  omega

/-! ### Commands and reads while ERR = 1 -/

/-- Every command but CLR is ignored (R97 (1)). -/
theorem exec_ignored {s : State} {i : Instr} (hi : i ≠ .clr) (h : s.err = true) : exec i s = .next s := by
  cases i with
  | clr => exact absurd rfl hi
  | _ => exact command_of_err h

/-- Every word but CLR's is ignored, an illegal one too (R63, R97 (1)). -/
theorem issue_ignored {s : State} {w : Word} (hw : w ≠ 0x0000000F#32) (h : s.err = true) : issue w s = .next s := by
  rcases issue_cases w s with ⟨i, hi, hissue⟩ | ⟨-, hissue⟩ <;> rw [hissue]
  · exact exec_ignored (fun hclr => hw (eq_of_decode_clr (hclr ▸ hi))) h
  · rw [illegalCommand, if_pos h]

theorem issue_clr (s : State) : issue 0x0000000F#32 s = .next (endNormal (clearErrors (accept 0xF s))) := rfl

/-- A register other than STATUS does not show ERR. -/
theorem readCsr_err {a : Nat} (ha : a ≠ 0x01) (b : Bool) (s : State) : readCsr a { s with err := b } = readCsr a s := by
  unfold readCsr
  split
  case h_1 => exact absurd rfl ha
  all_goals rfl

/-- What a read returns, STATUS apart, does not depend on ERR (R63). -/
theorem portRead_readData_err {a : Nat} (ha : a ≠ 0x01) (b : Bool) (s : State) :
    (portRead a { s with err := b }).readData = (portRead a s).readData := by
  by_cases hwin : 0x43 ≤ a ∧ a ≤ 0x45
  · have hw : windowWords { s with err := b } = windowWords s := rfl
    cases h : windowWords s with
    | some d => rw [portRead_window hwin.1 hwin.2 h, portRead_window hwin.1 hwin.2 (hw.trans h)]
    | none => rw [portRead_invalid hwin.1 hwin.2 h, portRead_invalid hwin.1 hwin.2 (hw.trans h)]
  · rw [portRead_csr hwin, portRead_csr hwin]
    exact congrArg some (readCsr_err ha b s)

/-! ### The statement -/

/-- The addresses that R22 names. -/
def IsNamed (a : Nat) : Prop :=
  a ≤ 0x0A ∨ (0x10 ≤ a ∧ a ≤ 0x1C) ∨ (0x20 ≤ a ∧ a ≤ 0x24) ∨ (0x30 ≤ a ∧ a ≤ 0x3A) ∨ (0x40 ≤ a ∧ a ≤ 0x45)

theorem IsNamed.lt {a : Nat} (h : IsNamed a) : a < 0x80 := by
  unfold IsNamed at h
  omega

theorem IsNamed.not_reserved {a : Nat} (h : IsNamed a) : reservedAddr a = false := by
  rw [← Bool.not_eq_true, reservedAddr_iff]
  unfold IsNamed at h
  omega

theorem isWindowSelect_iff (a : Nat) : isWindowSelect a = true ↔ a = 0x40 ∨ a = 0x41 ∨ a = 0x42 := by
  simp [isWindowSelect, or_assoc]

/-- Every write but those of R63 is ignored. -/
theorem step_write_ignored {s : State} {a : Nat} {d : Word} {rest : List HostOp} (hb : s.busy = false)
    (herr : s.err = true) (ha : IsNamed a) (hsel : isWindowSelect a = false) (hclr : ¬(a = 0 ∧ d = 0x0000000F#32))
    (hs : s.script = .write a d :: rest) : step s = .next { s with script := rest } := by
  rw [step_write hb hs ha.lt ha.not_reserved]
  split
  case isTrue h0 => exact issue_ignored (fun hd => hclr ⟨h0, hd⟩) herr
  case isFalse => rw [portWrite_ignored (s := { s with script := rest }) herr hsel]

/-- A window selector is stored whatever ERR is. -/
theorem step_write_select {s : State} {a : Nat} {d : Word} {rest : List HostOp} (hb : s.busy = false)
    (hsel : isWindowSelect a = true) (hs : s.script = .write a d :: rest) :
    step s = .next (writeCsr a d { s with script := rest }) := by
  have ha := (isWindowSelect_iff a).1 hsel
  have hnamed : IsNamed a := by unfold IsNamed; omega
  rw [step_write hb hs hnamed.lt hnamed.not_reserved, if_neg (by omega), portWrite, hsel, Bool.not_true,
    Bool.and_false, if_neg Bool.false_ne_true]

/-- Settles O5: the ignored writes, the three selectors, CLR, and the reads. -/
theorem errorGate : Obligations.ErrorGate := by
  intro s rest hb herr named
  refine ⟨fun a d ha h0 h1 h2 hclr hs => ?_, fun d => step_write_select hb rfl,
    fun d => step_write_select hb rfl, fun d => step_write_select hb rfl, fun hs => ?_, fun a ha hs => ⟨?_, fun hne => ?_⟩⟩
  · have hsel : isWindowSelect a = false := by
      rw [← Bool.not_eq_true, isWindowSelect_iff]
      omega
    exact step_write_ignored hb herr ha hsel hclr hs
  · refine ⟨endNormal (clearErrors (accept 0xF { s with script := rest })), ?_, rfl, rfl⟩
    rw [step_write hb hs (by decide) rfl, if_pos rfl, issue_clr]
  · have hnamed : IsNamed a := ha
    exact step_read hb hs hnamed.lt hnamed.not_reserved
  · exact (portRead_readData_err hne false { s with script := rest }).symm

end Sys2Proof
end

section
/-! PROOF. O1, O2, O3: the command words. A word is the sum of its four fields, so a command that its fields decode to
fixes the whole word (R91 to R94, R98). -/

namespace Sys2Proof

open Machine

/-! ### The fields of a word -/

/-- The four fields cover every bit (R91). -/
theorem toNat_eq_cmdFields (w : Word) :
    w.toNat = (cmdFields w).op + 0x100 * (cmdFields w).t.toNat + 0x200 * (cmdFields w).p.toNat +
      0x400 * (cmdFields w).reserved := by
  have ht : (w.getLsbD 8).toNat = w.toNat / 2 ^ 8 % 2 := Nat.toNat_testBit _ _
  have hp : (w.getLsbD 9).toNat = w.toNat / 2 ^ 9 % 2 := Nat.toNat_testBit _ _
  simp only [cmdFields, bitField_zero, bitField_top w (show 10 ≤ 32 by decide), ht, hp]
  omega

/-- The checks of R94, as they are written there. -/
theorem legal_iff (f : CmdFields) :
    f.legal = true ↔
      f.reserved = 0 ∧ ((1 ≤ f.op ∧ f.op ≤ 0x0A) ∨ f.op = 0x0F) ∧ (f.t = true → f.op = 0x07) ∧
        (f.p = true → f.op = 0x08) := by
  simp [CmdFields.legal, CmdFields.reservedZero, CmdFields.knownOp, CmdFields.tAllowed, CmdFields.pAllowed, and_assoc,
    imp_iff_not_or]

/-! ### The opcode map -/

/-- With the modifiers that R94 allows, a command fixes its opcode and both modifiers. -/
theorem decodeOp_ok {op : Nat} {t p : Bool} {i : Instr} (h : decodeOp op t p = .ok i) (ht : t = true → op = 0x07)
    (hp : p = true → op = 0x08) : op + 0x100 * t.toNat + 0x200 * p.toNat = opcode i + modifier i := by
  unfold decodeOp at h
  split at h
  case h_7 =>
    obtain rfl : p = false := by simpa using hp
    cases t <;> cases h <;> rfl
  case h_8 =>
    obtain rfl : t = false := by simpa using ht
    cases p <;> cases h <;> rfl
  case h_12 => cases h
  all_goals
    obtain rfl : t = false := by simpa using ht
    obtain rfl : p = false := by simpa using hp
    cases h
    rfl

/-- Every opcode of R92's map names a command. -/
theorem decodeOp_of_known {op : Nat} (h : (1 ≤ op ∧ op ≤ 0x0A) ∨ op = 0x0F) (t p : Bool) :
    ∃ i, decodeOp op t p = .ok i := by
  rcases h with ⟨hlow, hhigh⟩ | rfl
  · interval_cases op <;> exact ⟨_, rfl⟩
  · exact ⟨_, rfl⟩

/-! ### Decode and encode -/

theorem decode_ok_iff (w : Word) (i : Instr) :
    decode w = .ok i ↔
      (cmdFields w).reserved = 0 ∧ ((cmdFields w).t = true → (cmdFields w).op = 0x07) ∧
        ((cmdFields w).p = true → (cmdFields w).op = 0x08) ∧
        decodeOp (cmdFields w).op (cmdFields w).t (cmdFields w).p = .ok i := by
  unfold decode
  simp only
  split_ifs <;> simp_all [CmdFields.reservedZero, CmdFields.tAllowed, CmdFields.pAllowed]

theorem decode_encode (i : Instr) : decode (encode i) = .ok i := by
  cases i with
  | diff => exact Laws.EncodingDecodes.diff.2
  | btree => exact Laws.EncodingDecodes.btree.2
  | bcodes => exact Laws.EncodingDecodes.bcodes.2
  | encode => exact Laws.EncodingDecodes.encode.2
  | decode => exact Laws.EncodingDecodes.decode.2
  | pack => exact Laws.EncodingDecodes.pack.2
  | unpack => exact Laws.EncodingDecodes.unpack.2
  | unpackT => exact Laws.EncodingDecodes.unpackT.2
  | cmp => exact Laws.EncodingDecodes.cmp.2
  | cmpP => exact Laws.EncodingDecodes.cmpP.2
  | stat => exact Laws.EncodingDecodes.stat.2
  | run => exact Laws.EncodingDecodes.run.2
  | clr => exact Laws.EncodingDecodes.clr.2

/-- No command has a second word. -/
theorem eq_encode_of_decode {w : Word} {i : Instr} (h : decode w = .ok i) : w = encode i := by
  obtain ⟨hreserved, ht, hp, hop⟩ := (decode_ok_iff w i).1 h
  have hword : w.toNat = opcode i + modifier i := by
    rw [toNat_eq_cmdFields w, hreserved, decodeOp_ok hop ht hp, Nat.mul_zero, Nat.add_zero]
  rw [encode, ← hword, BitVec.ofNat_toNat, BitVec.setWidth_eq]

/-- Settles O2: the encoder's word decodes, and the fields of a word that decodes add up to the encoder's. -/
theorem decodeEncodeAgree : Obligations.DecodeEncodeAgree :=
  fun _ i => ⟨eq_encode_of_decode, fun h => h ▸ decode_encode i⟩

/-- Settles O1: each word is the encoding of its mnemonic. -/
theorem specWordsDecode : Obligations.SpecWordsDecode :=
  ⟨decode_encode .diff, decode_encode .btree, decode_encode .bcodes, decode_encode .encode, decode_encode .decode,
    decode_encode .pack, decode_encode .unpack, decode_encode .unpackT, decode_encode .cmp, decode_encode .cmpP,
    decode_encode .stat, decode_encode .run, decode_encode .clr⟩

/-! ### Legal and illegal words -/

/-- The words that decode are the legal ones (R94). -/
theorem exists_decode_iff_legal (w : Word) : (∃ i, decode w = .ok i) ↔ (cmdFields w).legal = true := by
  constructor
  · rintro ⟨i, h⟩
    exact eq_encode_of_decode h ▸ encode_legal i
  · intro h
    obtain ⟨hreserved, hknown, ht, hp⟩ := (legal_iff _).1 h
    obtain ⟨i, hi⟩ := decodeOp_of_known hknown (cmdFields w).t (cmdFields w).p
    exact ⟨i, (decode_ok_iff w i).2 ⟨hreserved, ht, hp, hi⟩⟩

/-- An illegal word, while ERR = 0, is a command that raises at once (R97, R231). -/
theorem issue_illegal {w : Word} {s : State} (hw : ∀ i, decode w ≠ .ok i) (herr : s.err = false) :
    issue w s = .next (commandError .illegalCmd w 0 0 0 s) := by
  rcases issue_cases w s with ⟨i, hi, -⟩ | ⟨-, hissue⟩
  · exact absurd hi (hw i)
  · rcases illegalCommand_cases w s with ⟨h, -⟩ | ⟨-, h⟩
    · cases herr.symm.trans h
    · rw [hissue, h]
      rfl

/-- Settles O3: the fields of R91 put into R94's checks, and the write to CMD of a word that does not decode. -/
theorem legalWordsAndIllegalRaise : Obligations.LegalWordsAndIllegalRaise := by
  intro w
  constructor
  · rw [exists_decode_iff_legal, legal_iff]
    simp only [cmdFields, bitField_zero, bitField_top w (show 10 ≤ 32 by decide)]
  · rintro hw s rest ⟨hbusy, herr, hscript⟩
    rw [step_write hbusy hscript (by decide) rfl, if_pos rfl]
    exact issue_illegal hw herr

end Sys2Proof
end

section
/-! PROOF. O21, O25: how DIFF ends. On closed lines it writes its results and completes; on an open line it empties its
outputs and raises (R110, R111). -/

namespace Sys2Proof

open Machine

/-- What DIFF leaves on closed lines, as functions of the two line sequences (R117). -/
theorem exec_diff_results {s : State} (herr : s.err = false) (hclosed : LinesClosed s) :
    ∃ t, exec .diff s = .next t ∧ t.err = false ∧ t.lcs = lcsIndices s.cfg.lcsTie (linesA s) (linesB s) ∧
      t.text = diffText s.cfg.lcsTie (linesA s) (linesB s) :=
  ⟨_, exec_diff_of_closed herr hclosed, herr, rfl, rfl⟩

theorem openLine_eq_true {sym : List Symbol} {ends : List Nat} :
    openLine sym ends = true ↔ ends.getLastD 0 < sym.length := decide_eq_true_iff

/-- Settles O21: the indices of the walk back rise within A and name S(m, n), and TEXT is the walk over those
lines. -/
theorem diffFollowsRecurrence : Obligations.DiffFollowsRecurrence := by
  intro s herr hclosed
  obtain ⟨hrise, hbound⟩ := lcsIndices_rising s.cfg.lcsTie (linesA s) (linesB s)
  exact ⟨lcsIndices s.cfg.lcsTie (linesA s) (linesB s), exec_diff_of_closed herr hclosed, hrise,
    fun i hi => (hbound i hi).2, commonLines_lcsIndices _ _ _⟩

theorem diffBody_of_open_left {s : State} (h : openLine s.aSym s.aEnd = true) :
    diffBody s = raise .operand 0 (word s.aSym.length) (invalidateDiff s) := if_pos h

theorem diffBody_of_open_right {s : State} (ha : openLine s.aSym s.aEnd = false) (hb : openLine s.bSym s.bEnd = true) :
    diffBody s = raise .operand 1 (word s.bSym.length) (invalidateDiff s) :=
  (if_neg (Bool.eq_false_iff.1 ha)).trans (if_pos hb)

/-- Settles O25: the check of R111 looks at A first, and at B only when A has no open line. -/
theorem diffOpenLine : Obligations.DiffOpenLine := by
  intro s herr
  rw [exec_diff, command_of_no_err herr]
  refine ⟨fun hA => ?_, fun hA hB => ?_⟩
  · have hopen : openLine (accept 0x1 s).aSym (accept 0x1 s).aEnd = true := openLine_eq_true.2 hA
    rw [diffBody_of_open_left hopen]
    rfl
  · have hclosed : openLine (accept 0x1 s).aSym (accept 0x1 s).aEnd = false := openLine_eq_false.2 hA
    have hopen : openLine (accept 0x1 s).bSym (accept 0x1 s).bEnd = true := openLine_eq_true.2 hB
    rw [diffBody_of_open_right hclosed hopen]
    rfl

end Sys2Proof
end

section
/-! PROOF. O23: the walk of R115 as the sequence of the lines it visits (R120). -/

namespace Sys2Proof

open Machine

/-! ### The lines before and after the next common line -/

/-- The lines before the first `c` (R115, the inner loops). -/
def linesBefore (c : Line) (ls : List Line) : List Line := ls.takeWhile fun x => decide (x ≠ c)

/-- The lines after the first `c`. -/
def linesAfter (c : Line) (ls : List Line) : List Line := (ls.dropWhile fun x => decide (x ≠ c)).drop 1

theorem linesBefore_cons (c l : Line) (ls : List Line) :
    linesBefore c (l :: ls) = if l = c then [] else l :: linesBefore c ls := by
  by_cases h : l = c <;> simp [linesBefore, h]

theorem linesAfter_cons (c l : Line) (ls : List Line) :
    linesAfter c (l :: ls) = if l = c then ls else linesAfter c ls := by
  by_cases h : l = c <;> simp [linesAfter, h]

theorem walkText_nil (as bs : List Line) : walkText [] as bs = as.flatMap (emit HYPHEN) ++ bs.flatMap (emit PLUS) := rfl

theorem walkText_cons (c : Line) (cs as bs : List Line) :
    walkText (c :: cs) as bs =
      (linesBefore c as).flatMap (emit HYPHEN) ++ (linesBefore c bs).flatMap (emit PLUS) ++
        walkText cs (linesAfter c as) (linesAfter c bs) := rfl

/-- A sequence that still has the common line c is what comes before the first c, that c, and what comes after it; the
common lines after c are still to come there. -/
theorem split_at_common {c : Line} {cs ls : List Line} (h : (c :: cs).Sublist ls) :
    linesBefore c ls ++ c :: linesAfter c ls = ls ∧ cs.Sublist (linesAfter c ls) := by
  induction ls with
  | nil => cases h
  | cons l ls ih =>
    rw [linesBefore_cons, linesAfter_cons]
    by_cases hl : l = c
    · subst hl
      simpa using List.cons_sublist_cons.1 h
    · obtain ⟨hsplit, hrest⟩ := ih ((List.sublist_cons_iff.1 h).resolve_right (by simp [Ne.symm hl]))
      rw [if_neg hl, if_neg hl, List.cons_append, hsplit]
      exact ⟨rfl, hrest⟩

/-! ### The lines visited -/

/-- A visited line: consumed (`none`), removed (`some false`) or added (`some true`). -/
abbrev Visit := Option Bool × Line

/-- The lines the walk of R115 visits, in order; a consumed pair counts once (R120). -/
def visits : List Line → List Line → List Line → List Visit
  | [], as, bs => as.map (some false, ·) ++ bs.map (some true, ·)
  | c :: cs, as, bs =>
    (linesBefore c as).map (some false, ·) ++ (linesBefore c bs).map (some true, ·) ++
      (none, c) :: visits cs (linesAfter c as) (linesAfter c bs)

/-- What a visited line leaves in TEXT (R116). -/
def visitText : Visit → List Symbol
  | (none, _) => []
  | (some false, l) => emit HYPHEN l
  | (some true, l) => emit PLUS l

/-- TEXT is what the visited lines leave in it. -/
theorem walkText_eq_visits (cs as bs : List Line) : walkText cs as bs = (visits cs as bs).flatMap visitText := by
  induction cs generalizing as bs with
  | nil => simp [walkText_nil, visits, List.flatMap_map, visitText]
  | cons c cs ih => simp [walkText_cons, visits, List.flatMap_map, visitText, ih]

/-- The visited lines whose mark satisfies `p`. -/
def linesWith (p : Option Bool → Bool) (v : List Visit) : List Line := (v.filter fun e => p e.1).map Prod.snd

@[simp] theorem linesWith_append (p : Option Bool → Bool) (v w : List Visit) :
    linesWith p (v ++ w) = linesWith p v ++ linesWith p w := by simp [linesWith]

@[simp] theorem linesWith_cons (p : Option Bool → Bool) (e : Visit) (v : List Visit) :
    linesWith p (e :: v) = if p e.1 then e.2 :: linesWith p v else linesWith p v := by
  simp only [linesWith, List.filter_cons]
  split <;> rfl

@[simp] theorem linesWith_map (p : Option Bool → Bool) (m : Option Bool) (ls : List Line) :
    linesWith p (ls.map (m, ·)) = if p m then ls else [] := by
  cases h : p m <;> simp [linesWith, List.filter_map, Function.comp_def, h]

/-- The consumed and the removed lines are A (R120). -/
theorem linesWith_visits_left (p : Option Bool → Bool) (hconsumed : p none = true) (hremoved : p (some false) = true)
    (hadded : p (some true) = false) {cs as : List Line} (bs : List Line) (h : cs.Sublist as) :
    linesWith p (visits cs as bs) = as := by
  induction cs generalizing as bs with
  | nil => simp [visits, hremoved, hadded]
  | cons c cs ih =>
    obtain ⟨hsplit, hrest⟩ := split_at_common h
    simpa [visits, hconsumed, hremoved, hadded, ih _ hrest] using hsplit

/-- The consumed and the added lines are B (R120). -/
theorem linesWith_visits_right (p : Option Bool → Bool) (hconsumed : p none = true)
    (hremoved : p (some false) = false) (hadded : p (some true) = true) (as : List Line) {cs bs : List Line}
    (h : cs.Sublist bs) : linesWith p (visits cs as bs) = bs := by
  induction cs generalizing as bs with
  | nil => simp [visits, hremoved, hadded]
  | cons c cs ih =>
    obtain ⟨hsplit, hrest⟩ := split_at_common h
    simpa [visits, hconsumed, hremoved, hadded, ih _ hrest] using hsplit

/-- The consumed lines are the common lines (R120). -/
theorem linesWith_visits_common (p : Option Bool → Bool) (hconsumed : p none = true)
    (hremoved : p (some false) = false) (hadded : p (some true) = false) (cs as bs : List Line) :
    linesWith p (visits cs as bs) = cs := by
  induction cs generalizing as bs with
  | nil => simp [visits, hremoved, hadded]
  | cons c cs ih => simp [visits, hconsumed, hremoved, hadded, ih]

/-- The lines LCS names are a common subsequence of A and B (R112). -/
theorem commonLines_lcsIndices_sublist (tie : LcsTie) (as bs : List Line) :
    (commonLines as (lcsIndices tie as bs)).Sublist as ∧ (commonLines as (lcsIndices tie as bs)).Sublist bs := by
  simpa [commonLines_lcsIndices] using lcsSeq_sublist tie as bs _ _ le_rfl le_rfl

/-- Settles O23: the sequence is `visits` over the lines that LCS names. -/
theorem diffTextReconstructs : Obligations.DiffTextReconstructs := by
  intro s herr hclosed
  obtain ⟨t, hexec, hterr, hlcs, htext⟩ := exec_diff_results herr hclosed
  obtain ⟨hsubA, hsubB⟩ := commonLines_lcsIndices_sublist s.cfg.lcsTie (linesA s) (linesB s)
  rw [diffText, walkText_eq_visits] at htext
  rw [← hlcs] at hsubA hsubB htext
  refine ⟨t, hexec, hterr, visits (commonLines (linesA s) t.lcs) (linesA s) (linesB s),
    linesWith_visits_left (fun m => decide (m ≠ some true)) rfl rfl rfl _ hsubA,
    linesWith_visits_right (fun m => decide (m ≠ some false)) rfl rfl rfl _ hsubB,
    linesWith_visits_common (fun m => decide (m = none)) rfl rfl rfl _ _ _,
    htext.trans (congrArg (List.flatMap · _) (funext fun e => ?_))⟩
  rcases e with ⟨_ | _ | _, l⟩ <;> rfl

end Sys2Proof
end

section
/-! PROOF. O26: the corner cases of DIFF (R119). An empty A and an empty B are cases of no common line. -/

namespace Sys2Proof

open Machine

/-! ### No common line -/

theorem lcsIndices_of_disjoint (tie : LcsTie) {as bs : List Line} (h : ∀ l ∈ as, l ∉ bs) :
    lcsIndices tie as bs = [] := by
  obtain ⟨hsubA, hsubB⟩ := commonLines_lcsIndices_sublist tie as bs
  have hnone : commonLines as (lcsIndices tie as bs) = [] :=
    List.eq_nil_iff_forall_not_mem.2 fun l hl => h l (hsubA.subset hl) (hsubB.subset hl)
  simpa [commonLines] using hnone

theorem diffText_of_disjoint (tie : LcsTie) {as bs : List Line} (h : ∀ l ∈ as, l ∉ bs) :
    diffText tie as bs = as.flatMap (emit HYPHEN) ++ bs.flatMap (emit PLUS) := by
  rw [diffText, lcsIndices_of_disjoint tie h]
  rfl

theorem diffText_nil_left (tie : LcsTie) (bs : List Line) : diffText tie [] bs = bs.flatMap (emit PLUS) :=
  diffText_of_disjoint tie (List.forall_mem_nil _)

theorem diffText_nil_right (tie : LcsTie) (as : List Line) : diffText tie as [] = as.flatMap (emit HYPHEN) :=
  (diffText_of_disjoint tie fun _ _ => List.not_mem_nil).trans (List.append_nil _)

/-! ### Equal line sequences -/

/-- Only 0, 1, …, n−1 rises strictly below n with n entries. -/
theorem eq_range_of_risingWithin {n : Nat} {l : List Nat} (h : RisingWithin 0 n l) (hlen : n ≤ l.length) :
    l = List.range n := by
  obtain ⟨hrise, hbound⟩ := h
  have hnodup : l.Nodup := hrise.imp Nat.ne_of_lt
  have hsub : l ⊆ List.range n := fun x hx => List.mem_range.2 (hbound x hx).2
  have hperm : l.Perm (List.range n) := (hnodup.subperm hsub).perm_of_length_le (by simpa using hlen)
  exact hperm.eq_of_pairwise (fun a b _ _ hab hba => absurd hba (Nat.lt_asymm hab)) hrise List.pairwise_lt_range

theorem lcsIndices_self (tie : LcsTie) (ls : List Line) : lcsIndices tie ls ls = List.range ls.length := by
  refine eq_range_of_risingWithin (lcsIndices_rising tie ls ls) ?_
  rw [lcsIndices_length]
  exact length_le_lcsSeq_length tie ls ls _ _ ls le_rfl le_rfl (by simp) (by simp)

theorem commonLines_range (ls : List Line) : commonLines ls (List.range ls.length) = ls :=
  List.ext_getElem (by simp) fun i _ hi => by simp [commonLines, hi]

/-- The walk over a sequence that is common throughout emits nothing. -/
theorem walkText_self (ls : List Line) : walkText ls ls ls = [] := by
  induction ls with
  | nil => rfl
  | cons l ls ih => simp [walkText_cons, linesBefore_cons, linesAfter_cons, ih]

theorem diffText_self (tie : LcsTie) (ls : List Line) : diffText tie ls ls = [] := by
  rw [diffText, lcsIndices_self, commonLines_range, walkText_self]

/-- Settles O26: equal sequences, and no common line, of which an empty A and an empty B are special cases. -/
theorem diffCornerCases : Obligations.DiffCornerCases := by
  intro s herr hclosed
  obtain ⟨t, hexec, hterr, hlcs, htext⟩ := exec_diff_results herr hclosed
  refine ⟨t, hexec, hterr, ?_⟩
  rw [hlcs, htext]
  generalize linesA s = as
  generalize linesB s = bs
  refine ⟨?_, ?_, ?_, fun hdisjoint => ?_⟩
  · rintro rfl
    exact ⟨lcsIndices_self _ _, diffText_self _ _⟩
  · rintro rfl
    exact ⟨lcsIndices_of_disjoint _ (List.forall_mem_nil _), diffText_nil_left _ _⟩
  · rintro rfl
    exact ⟨lcsIndices_of_disjoint _ fun _ _ => List.not_mem_nil, diffText_nil_right _ _⟩
  · exact ⟨lcsIndices_of_disjoint _ hdisjoint, diffText_of_disjoint _ hdisjoint⟩

end Sys2Proof
end

section
/-! PROOF. O30: the merging of R133 under any queue order. Every pass keeps a forest whose roots are the queue; the loop ends
with one root, and a forest with one root is a tree (R138, R140). -/

namespace Sys2Proof.Machine

/-! ### The passes of the loop -/

/-- `least(Q)` is popped (R134): x is the least of the queue, and the others remain. -/
structure Popped (before : Nat → Nat → Bool) (queue : List Nat) (x : Nat) (rest : List Nat) : Prop where
  perm : queue.Perm (x :: rest)
  least : ∃ q qs, queue = q :: qs ∧ leastOf before q qs = x

theorem popped_leastOf (before : Nat → Nat → Bool) (q : Nat) (qs : List Nat) :
    Popped before (q :: qs) (leastOf before q qs) ((q :: qs).erase (leastOf before q qs)) :=
  ⟨List.perm_cons_erase (leastOf_mem before q qs), q, qs, rfl, rfl⟩

/-- The records after a pass that popped x and then y (R133, R135). -/
def merged (nodes : List NodeRec) (x y : Nat) : List NodeRec :=
  nodes ++ [.internal (freqAt nodes x + freqAt nodes y) x y]

@[simp] theorem merged_length (nodes : List NodeRec) (x y : Nat) : (merged nodes x y).length = nodes.length + 1 := by
  simp [merged]

theorem merged_getElem?_lt {nodes : List NodeRec} {p : Nat} (h : p < nodes.length) (x y : Nat) :
    (merged nodes x y)[p]? = nodes[p]? := List.getElem?_append_left h

/-- A record of the longer sequence is an old one or the new one. -/
theorem merged_getElem?_some {nodes : List NodeRec} {p x y : Nat} {n : NodeRec} (h : (merged nodes x y)[p]? = some n) :
    (p < nodes.length ∧ nodes[p]? = some n) ∨
      (p = nodes.length ∧ n = .internal (freqAt nodes x + freqAt nodes y) x y) := by
  have hp : p < nodes.length + 1 := by simpa using (List.getElem?_eq_some_iff.1 h).1
  rcases Nat.lt_succ_iff_lt_or_eq.1 hp with hlt | rfl
  · exact .inl ⟨hlt, (merged_getElem?_lt hlt x y).symm.trans h⟩
  · exact .inr ⟨rfl, by simpa [merged] using h.symm⟩

theorem freqAt_merged_lt {nodes : List NodeRec} {q : Nat} (h : q < nodes.length) (x y : Nat) :
    freqAt (merged nodes x y) q = freqAt nodes q := freqAt_append_left h _

theorem freqAt_merged_last (nodes : List NodeRec) (x y : Nat) :
    freqAt (merged nodes x y) nodes.length = freqAt nodes x + freqAt nodes y := freqAt_append_last nodes _

/-- While two indices are in the queue, a pass pops two and puts the new record's index at the end. -/
theorem mergeLoop_pass (order : List NodeRec → Nat → Nat → Bool) (fuel : Nat) (nodes : List NodeRec) (q0 q1 : Nat)
    (qs : List Nat) :
    ∃ x y rest rest', Popped (order nodes) (q0 :: q1 :: qs) x rest ∧ Popped (order nodes) rest y rest' ∧
      mergeLoop order (fuel + 1) nodes (q0 :: q1 :: qs) =
        mergeLoop order fuel (merged nodes x y) (rest' ++ [nodes.length]) := by
  have hx := popped_leastOf (order nodes) q0 (q1 :: qs)
  cases hrest : (q0 :: q1 :: qs).erase (leastOf (order nodes) q0 (q1 :: qs)) with
  | nil => simpa [hrest] using hx.perm.length_eq
  | cons r rs =>
    exact ⟨_, _, _, _, hx, hrest ▸ popped_leastOf (order nodes) r rs, by simp only [mergeLoop, hrest, merged]⟩

/-- What every pass keeps, the loop keeps, and it ends with one index in the queue: `mergeLoop_induction` with the order's
pops named and the passes counted. -/
theorem mergeLoop_ends {P : List NodeRec → List Nat → Prop} (order : List NodeRec → Nat → Nat → Bool)
    (pass : ∀ (nodes : List NodeRec) (queue rest rest' : List Nat) (x y : Nat), Popped (order nodes) queue x rest →
      Popped (order nodes) rest y rest' → P nodes queue → P (merged nodes x y) (rest' ++ [nodes.length]))
    (fuel : Nat) (nodes : List NodeRec) (queue : List Nat) (hfuel : queue.length ≤ fuel) (hne : queue ≠ [])
    (h : P nodes queue) : ∃ root, P (mergeLoop order fuel nodes queue) [root] := by
  induction fuel generalizing nodes queue with
  | zero => exact absurd (List.eq_nil_of_length_eq_zero (Nat.le_zero.1 hfuel)) hne
  | succ fuel ih =>
    match queue with
    | [q] => exact ⟨q, h⟩
    | q0 :: q1 :: qs =>
      obtain ⟨x, y, rest, rest', hx, hy, hloop⟩ := mergeLoop_pass order fuel nodes q0 q1 qs
      have hlenx := hx.perm.length_eq
      have hleny := hy.perm.length_eq
      rw [hloop]
      refine ih _ _ ?_ (by simp) (pass _ _ _ _ _ _ hx hy h)
      simp only [List.length_cons, List.length_append, List.length_nil] at hlenx hleny hfuel ⊢
      omega

/-! ### The forest -/

/-- The records while the leaves of `f` are being merged: the leaves stand first, children come before their parents, every
record is a child once or else in the queue, and the queue holds the newest record. -/
structure Forest (f : List FreqEntry) (nodes : List NodeRec) (queue : List Nat) : Prop where
  leavesFirst : ∃ made, nodes = leavesOf f ++ made ∧ ∀ n ∈ made, n.isLeaf = false
  below : ∀ p fr l r : Nat, nodes[p]? = some (.internal fr l r) → l < p ∧ r < p ∧ l ≠ r
  taken : (nodes.flatMap NodeRec.children ++ queue).Perm (List.range nodes.length)
  newest : nodes.length - 1 ∈ queue
  size : nodes.length + queue.length = 2 * f.length

theorem leavesOf_getElem?_ne_internal (f : List FreqEntry) (p fr l r : Nat) :
    (leavesOf f)[p]? ≠ some (.internal fr l r) := by
  simp [leavesOf]

theorem children_leavesOf (f : List FreqEntry) : (leavesOf f).flatMap NodeRec.children = [] := by
  simp [leavesOf, NodeRec.children]

theorem leafSymbols_leavesOf (f : List FreqEntry) : leafSymbols (leavesOf f) = f.map FreqEntry.sym := by
  simp [leafSymbols, leavesOf, List.filterMap_map]

namespace Forest

theorem start {f : List FreqEntry} (hf : f ≠ []) : Forest f (leavesOf f) (List.range f.length) where
  leavesFirst := ⟨[], by simp, by simp⟩
  below p fr l r h := absurd h (leavesOf_getElem?_ne_internal f p fr l r)
  taken := by simp [children_leavesOf]
  newest := by
    have := List.length_pos_iff.2 hf
    simp
    omega
  size := by simp; omega

variable {f : List FreqEntry} {nodes : List NodeRec} {queue : List Nat}

/-- Each record is taken as a child, or waits in the queue, and only once. -/
theorem nodup (h : Forest f nodes queue) : (nodes.flatMap NodeRec.children ++ queue).Nodup :=
  h.taken.nodup_iff.2 List.nodup_range

theorem lt_of_mem (h : Forest f nodes queue) {q : Nat} (hq : q ∈ queue) : q < nodes.length :=
  List.mem_range.1 (h.taken.subset (List.mem_append_right _ hq))

/-- A pass takes two roots of the forest as children of a new root. -/
theorem pass {x y : Nat} {rest : List Nat} (hperm : queue.Perm (x :: y :: rest)) (h : Forest f nodes queue) :
    Forest f (merged nodes x y) (rest ++ [nodes.length]) := by
  have hx : x < nodes.length := h.lt_of_mem (hperm.mem_iff.2 (by simp))
  have hy : y < nodes.length := h.lt_of_mem (hperm.mem_iff.2 (by simp))
  have hxy : x ≠ y := by
    have hdistinct := hperm.nodup_iff.1 (List.nodup_append.1 h.nodup).2.1
    rintro rfl
    simp at hdistinct
  refine ⟨?_, fun p fr l r hp => ?_, ?_, by simp, ?_⟩
  · obtain ⟨made, rfl, hmade⟩ := h.leavesFirst
    refine ⟨made ++ [_], List.append_assoc _ _ _, fun n hn => ?_⟩
    rcases List.mem_append.1 hn with hn | hn
    · exact hmade n hn
    · rw [List.mem_singleton.1 hn]
      rfl
  · rcases merged_getElem?_some hp with ⟨-, hold⟩ | ⟨rfl, hnew⟩
    · exact h.below p fr l r hold
    · cases hnew
      exact ⟨hx, hy, hxy⟩
  · have hchildren : (merged nodes x y).flatMap NodeRec.children = nodes.flatMap NodeRec.children ++ [x, y] := by
      simp [merged, NodeRec.children]
    have htaken : (nodes.flatMap NodeRec.children ++ x :: y :: rest).Perm (List.range nodes.length) :=
      (hperm.symm.append_left _).trans h.taken
    rw [hchildren, merged_length, List.range_succ]
    simpa using htaken.append_right [nodes.length]
  · have hsize := h.size
    have hlen := hperm.length_eq
    simp at hlen ⊢
    omega

/-- The one root is the last record. -/
theorem root_eq {root : Nat} (h : Forest f nodes [root]) : root = nodes.length - 1 :=
  (List.mem_singleton.1 h.newest).symm

/-- A forest with one root is a tree. -/
theorem treeOK {root : Nat} (h : Forest f nodes [root]) : TreeOK nodes := by
  refine ⟨(h.lt_of_mem (List.mem_singleton_self root)).pos, h.below, fun q hq => ?_⟩
  have hcount := h.taken.count_eq q
  have hroot : ([root] : List Nat).count q = 0 := List.count_eq_zero_of_not_mem (by simp [h.root_eq]; omega)
  rwa [List.count_append, hroot, List.count_eq_one_of_mem List.nodup_range (List.mem_range.2 (by omega))] at hcount

theorem length_eq {root : Nat} (h : Forest f nodes [root]) : nodes.length = 2 * f.length - 1 := by
  have hsize := h.size
  simp at hsize
  omega

theorem leafSymbols_eq (h : Forest f nodes queue) : leafSymbols nodes = f.map FreqEntry.sym := by
  obtain ⟨made, rfl, hmade⟩ := h.leavesFirst
  have hnone : leafSymbols made = [] := by
    refine List.filterMap_eq_nil_iff.2 fun n hn => ?_
    have hn := hmade n hn
    cases n with
    | leaf => cases hn
    | internal => rfl
  rw [leafSymbols, List.filterMap_append]
  exact (congrArg₂ _ (leafSymbols_leavesOf f) hnone).trans (List.append_nil _)

theorem take_eq (h : Forest f nodes queue) : nodes.take f.length = leavesOf f := by
  obtain ⟨made, rfl, -⟩ := h.leavesFirst
  simp

/-- The records after the leaves are internal. -/
theorem internal_of_le (h : Forest f nodes queue) {p : Nat} (hp : f.length ≤ p) (hlt : p < nodes.length) :
    ∃ fr l r : Nat, nodes[p]? = some (.internal fr l r) := by
  obtain ⟨made, rfl, hmade⟩ := h.leavesFirst
  obtain ⟨n, hn⟩ : ∃ n, (leavesOf f ++ made)[p]? = some n := ⟨_, List.getElem?_eq_getElem hlt⟩
  rw [List.getElem?_append_right (by simpa using hp)] at hn ⊢
  have hkind := hmade n (List.mem_of_getElem? hn)
  cases n with
  | leaf => cases hkind
  | internal fr l r => exact ⟨fr, l, r, hn⟩

end Forest

/-- The merging leaves a forest with one root (R133). -/
theorem buildNodes_forest (order : List NodeRec → Nat → Nat → Bool) {f : List FreqEntry} (hf : f ≠ []) :
    ∃ root, Forest f (buildNodes order f) [root] :=
  mergeLoop_ends order (fun _ _ _ _ _ _ hx hy h => h.pass (hx.perm.trans (hy.perm.cons _))) f.length _ _
    (by simp) (by simpa using hf) (Forest.start hf)

end Sys2Proof.Machine

namespace Sys2Proof

open Machine

/-- Settles O30: the passes keep the forest, whatever they pop. -/
theorem anyQueueOrderBuildsTree : Obligations.AnyQueueOrderBuildsTree := by
  intro order f hf
  obtain ⟨root, h⟩ := buildNodes_forest order hf
  exact ⟨h.treeOK, h.length_eq, h.leafSymbols_eq⟩

end Sys2Proof
end

section
/-! PROOF. O27, O29: the frequency count of R132 holds the distinct symbols read so far with their counts, and the records
made of it are a tree whose root counts the whole text (R133, R138). -/

namespace Sys2Proof.Machine

/-! ### The distinct symbols of a text, in order of first occurrence -/

theorem eraseDups_concat_of_mem {t : List Symbol} {x : Symbol} (h : x ∈ t) :
    (t ++ [x]).eraseDups = t.eraseDups := by
  simp [List.eraseDups_append, List.removeAll, h]

theorem eraseDups_concat_of_not_mem {t : List Symbol} {x : Symbol} (h : x ∉ t) :
    (t ++ [x]).eraseDups = t.eraseDups ++ [x] := by
  simp [List.eraseDups_append, List.removeAll, h, List.eraseDups_cons]

theorem eraseDups_nodup (t : List Symbol) : t.eraseDups.Nodup := by
  induction t using List.reverseRecOn with
  | nil => simp
  | append_singleton t x ih =>
    by_cases hx : x ∈ t
    · rwa [eraseDups_concat_of_mem hx]
    · rw [eraseDups_concat_of_not_mem hx, ← List.concat_eq_append]
      exact ih.concat (by simpa using hx)

theorem eraseDups_length_le_append (t u : List Symbol) : t.eraseDups.length ≤ (t ++ u).eraseDups.length := by
  simp [List.eraseDups_append]

theorem count_concat_of_ne (t : List Symbol) {x y : Symbol} (h : y ≠ x) : (t ++ [x]).count y = t.count y := by
  simp [List.count_append, h.symm]

/-! ### The count -/

/-- FREQ after the symbols `t` (R132). -/
structure Tally (t : List Symbol) (f : List FreqEntry) : Prop where
  syms : f.map FreqEntry.sym = t.eraseDups
  counts : ∀ e ∈ f, e.cnt = t.count e.sym

namespace Tally

theorem nil : Tally [] [] := ⟨rfl, by simp⟩

variable {t : List Symbol} {f : List FreqEntry} {x : Symbol}

theorem length_eq (h : Tally t f) : f.length = t.eraseDups.length := by
  rw [← h.syms, List.length_map]

theorem mem_of_mem (h : Tally t f) {e : FreqEntry} (he : e ∈ f) : e.sym ∈ t :=
  List.mem_eraseDups.1 (h.syms ▸ List.mem_map_of_mem he)

/-- FREQ has an entry for exactly the symbols read. -/
theorem bump_eq_none_iff (h : Tally t f) : Machine.bump x f = none ↔ x ∉ t := by
  rw [bump_none, ← List.mem_eraseDups, ← h.syms]
  simp

theorem bump (h : Tally t f) {g : List FreqEntry} (hb : Machine.bump x f = some g) : Tally (t ++ [x]) g := by
  have hx : x ∈ t := Decidable.byContradiction fun hx => by simp [h.bump_eq_none_iff.2 hx] at hb
  have hnodup := h.syms ▸ eraseDups_nodup t
  obtain ⟨u, e, v, rfl, hu, rfl, rfl⟩ := bump_some hb
  have hv : ∀ e' ∈ v, e'.sym ≠ e.sym := by
    have htail := (List.nodup_append.1 (List.map_append ▸ hnodup)).2.1
    exact fun e' he' heq => (List.nodup_cons.1 htail).1 (List.mem_map.2 ⟨e', he', heq⟩)
  refine ⟨by rw [eraseDups_concat_of_mem hx, ← h.syms]; simp, fun e' he' => ?_⟩
  have hother : e' ∈ u ++ e :: v → e'.sym ≠ e.sym → e'.cnt = (t ++ [e.sym]).count e'.sym := fun hmem hne => by
    rw [h.counts e' hmem, count_concat_of_ne t hne]
  simp only [List.mem_append, List.mem_cons] at he'
  rcases he' with he' | rfl | he'
  · exact hother (by simp [he']) (hu e' he')
  · simp [h.counts e (by simp)]
  · exact hother (by simp [he']) (hv e' he')

theorem concat (h : Tally t f) (hx : x ∉ t) : Tally (t ++ [x]) (f ++ [⟨x, 1⟩]) := by
  refine ⟨by rw [eraseDups_concat_of_not_mem hx, ← h.syms]; simp, fun e he => ?_⟩
  rcases List.mem_append.1 he with he | he
  · have hne : e.sym ≠ x := fun heq => hx (heq ▸ h.mem_of_mem he)
    rw [h.counts e he, count_concat_of_ne t hne]
  · rw [List.mem_singleton.1 he]
    simp [List.count_eq_zero_of_not_mem hx]

end Tally

/-- As long as the distinct symbols fit, the count reads on (R132). -/
theorem countFreq_append {cap : Nat} {t u : List Symbol} {f : List FreqEntry} (h : Tally t f)
    (hcap : (t ++ u).eraseDups.length ≤ cap) (k : Nat) (rest : List Symbol) :
    ∃ g, Tally (t ++ u) g ∧ countFreq cap (u ++ rest) k f = countFreq cap rest (k + u.length) g := by
  induction u generalizing t f k with
  | nil => exact ⟨f, by simpa using h, rfl⟩
  | cons x u ih =>
    rw [List.append_cons] at hcap ⊢
    rw [List.length_cons, Nat.add_comm u.length, ← Nat.add_assoc, List.cons_append, countFreq]
    cases hb : bump x f with
    | some g => exact ih (h.bump hb) hcap (k + 1)
    | none =>
      have hx := h.bump_eq_none_iff.1 hb
      have hroom : f.length < cap := by
        have hle := (eraseDups_length_le_append (t ++ [x]) u).trans hcap
        rw [eraseDups_concat_of_not_mem hx, List.length_append, ← h.length_eq] at hle
        exact hle
      rw [appendTo_of_lt hroom]
      exact ih (h.concat hx) hcap (k + 1)

/-- A text whose distinct symbols fit is counted whole. -/
theorem countFreq_ok {cap : Nat} {t : List Symbol} (hcap : t.eraseDups.length ≤ cap) :
    ∃ f, countFreq cap t 0 [] = .ok f ∧ Tally t f := by
  obtain ⟨f, hf, hcount⟩ := countFreq_append (u := t) Tally.nil hcap 0 []
  exact ⟨f, by simpa [countFreq] using hcount, hf⟩

/-- A new symbol after as many distinct ones as fit stops the count (R139). -/
theorem countFreq_error {cap k : Nat} {t : List Symbol} {x : Symbol} (hx : t[k]? = some x)
    (hfull : (t.take k).eraseDups.length = cap) (hnew : x ∉ t.take k) : countFreq cap t 0 [] = .error (k, x) := by
  obtain ⟨hk, hget⟩ := List.getElem?_eq_some_iff.1 hx
  have hsplit : t = t.take k ++ x :: t.drop (k + 1) := by
    rw [← hget, List.cons_getElem_drop_succ, List.take_append_drop]
  obtain ⟨f, hf, hcount⟩ := countFreq_append (u := t.take k) Tally.nil hfull.le 0 (x :: t.drop (k + 1))
  rw [← hsplit, List.length_take_of_le hk.le, Nat.zero_add, countFreq, hf.bump_eq_none_iff.2 hnew] at hcount
  rw [hcount, appendTo_none.2 (hf.length_eq.trans hfull)]

/-! ### The frequency of the root -/

/-- The frequencies in the queue add up to the same after a pass (R133). -/
theorem queueFreq_pass {nodes : List NodeRec} {queue rest : List Nat} {x y : Nat} (hperm : queue.Perm (x :: y :: rest))
    (hlt : ∀ q ∈ queue, q < nodes.length) :
    ((rest ++ [nodes.length]).map (freqAt (merged nodes x y))).sum = (queue.map (freqAt nodes)).sum := by
  have hrest : rest.map (freqAt (merged nodes x y)) = rest.map (freqAt nodes) :=
    List.map_congr_left fun q hq => freqAt_merged_lt (hlt q (hperm.mem_iff.2 (by simp [hq]))) x y
  rw [(hperm.map (freqAt nodes)).sum_eq, List.map_append, List.sum_append, hrest]
  simp [freqAt_merged_last]
  omega

/-- The root counts every symbol of the text. -/
theorem freqAt_root_buildNodes (order : List NodeRec → Nat → Nat → Bool) {f : List FreqEntry} (hf : f ≠ []) :
    freqAt (buildNodes order f) (rootOf (buildNodes order f)) = (f.map FreqEntry.cnt).sum := by
  obtain ⟨root, hforest, hsum⟩ := mergeLoop_ends
    (P := fun nodes queue => Forest f nodes queue ∧ (queue.map (freqAt nodes)).sum = (f.map FreqEntry.cnt).sum) order
    (fun nodes queue rest rest' x y hx hy ⟨h, hsum⟩ =>
      have hperm := hx.perm.trans (hy.perm.cons x)
      ⟨h.pass hperm, (queueFreq_pass hperm fun _ => h.lt_of_mem).trans hsum⟩)
    f.length (leavesOf f) (List.range f.length) (by simp) (by simpa using hf)
    ⟨Forest.start hf, by rw [map_freqAt_leavesOf]⟩
  rw [rootOf, buildNodes, ← hforest.root_eq]
  simpa using hsum

end Sys2Proof.Machine

namespace Sys2Proof

open Machine

/-- BTREE on a text whose distinct symbols fit: it completes with the count of its symbols and their tree (R130). -/
theorem exec_btree_of_fits {s : State} (herr : s.err = false) (htext : s.text ≠ [])
    (hcap : s.text.eraseDups.length ≤ s.cfg.maxSyms) :
    ∃ f, exec .btree s = .next (completed { s with freq := f, node := buildNodes byFreqThenIndex f, code := [] }) ∧
      Tally s.text f ∧ f ≠ [] ∧ (f.map FreqEntry.cnt).sum = s.text.length := by
  obtain ⟨f, hcount, hf⟩ := countFreq_ok hcap
  have htable := countFreq_freqTable (FreqTable.nil s.cfg.maxSyms) hcount
  rw [Nat.zero_add] at htable
  refine ⟨f, ?_, hf, htable.ne_nil (by simpa using htext), htable.sum_eq⟩
  rw [exec_btree, command_of_no_err herr]
  rcases btreeBody_cases (accept 0x2 s) with ⟨hempty, -⟩ | ⟨k, x, -, herror, -⟩ | ⟨g, -, hok, hbody⟩
  · exact absurd hempty htext
  · cases hcount.symm.trans herror
  · cases hcount.symm.trans hok
    rw [hbody]
    rfl

/-- Settles O27: the count of the text is its distinct symbols, and the merging makes them one tree. -/
theorem btreeBuildsTree : Obligations.BtreeBuildsTree := by
  intro s herr htext hcap
  obtain ⟨f, hexec, hf, hne, hsum⟩ := exec_btree_of_fits herr htext hcap
  obtain ⟨root, hforest⟩ := buildNodes_forest byFreqThenIndex hne
  exact ⟨f, _, hexec, hf.syms, hf.counts, hforest.length_eq, hforest.take_eq, fun _ => hforest.internal_of_le,
    (freqAt_root_buildNodes byFreqThenIndex hne).trans hsum, hforest.treeOK⟩

/-- Settles O29: the count stops at the first symbol for which FREQ has neither an entry nor room. -/
theorem btreeErrors : Obligations.BtreeErrors := by
  intro s herr
  rw [exec_btree, command_of_no_err herr]
  refine ⟨fun hempty => ?_, fun k x hx hfull hnew => ?_⟩
  · rcases btreeBody_cases (accept 0x2 s) with ⟨-, hbody⟩ | ⟨-, -, htext, -, -⟩ | ⟨-, htext, -, -⟩
    · rw [hbody]
      rfl
    · exact absurd hempty htext
    · exact absurd hempty htext
  · have hcount := countFreq_error hx hfull hnew
    rcases btreeBody_cases (accept 0x2 s) with ⟨hempty, -⟩ | ⟨_, _, -, herror, hbody⟩ | ⟨f, -, hok, -⟩
    · have hempty : s.text = [] := hempty
      simp [hempty] at hx
    · cases hcount.symm.trans herror
      rw [hbody]
      rfl
    · cases hcount.symm.trans hok

end Sys2Proof
end

section
/-! PROOF. O28: with the queue order of this hardware every pass merges the two least of the queue, and later passes do not
change what holds of a record and the queue at its making (R133 to R135). -/

namespace Sys2Proof.Machine

/-- Record p was made of the two least of the queue, x first, and its frequency is the sum of theirs. -/
def MergedLeast (nodes : List NodeRec) (p fr x y : Nat) : Prop :=
  fr = freqAt nodes x + freqAt nodes y ∧ InQueue nodes p x ∧ InQueue nodes p y ∧ x ≠ y ∧
    (∀ q, InQueue nodes p q → q ≠ x → Before nodes x q) ∧
    ∀ q, InQueue nodes p q → q ≠ x → q ≠ y → Before nodes y q

/-- The index popped first comes before every other of the queue. -/
theorem Popped.before {nodes : List NodeRec} {queue rest : List Nat} {x q : Nat}
    (h : Popped (byFreqThenIndex nodes) queue x rest) (hq : q ∈ queue) (hne : q ≠ x) : Before nodes x q := by
  obtain ⟨q0, qs, rfl, rfl⟩ := h.least
  exact leastOf_before nodes q0 qs q hq hne

theorem mem_children_iff {nodes : List NodeRec} {q : Nat} :
    q ∈ nodes.flatMap NodeRec.children ↔
      ∃ p fr l r : Nat, nodes[p]? = some (.internal fr l r) ∧ (q = l ∨ q = r) := by
  constructor
  · intro hq
    obtain ⟨n, hn, hqn⟩ := List.mem_flatMap.1 hq
    obtain ⟨p, hp⟩ := List.mem_iff_getElem?.1 hn
    cases n with
    | leaf => cases hqn
    | internal fr l r => exact ⟨p, fr, l, r, hp, by simpa [NodeRec.children] using hqn⟩
  · rintro ⟨p, fr, l, r, hp, hq⟩
    exact List.mem_flatMap.2 ⟨_, List.mem_of_getElem? hp, by simpa [NodeRec.children] using hq⟩

/-- The queue holds the records that are not yet the child of one (R133). -/
theorem Forest.mem_queue_iff {f : List FreqEntry} {nodes : List NodeRec} {queue : List Nat} (h : Forest f nodes queue)
    (q : Nat) : q ∈ queue ↔ InQueue nodes nodes.length q := by
  have hmem := h.taken.mem_iff (a := q)
  have hdisjoint := (List.nodup_append.1 h.nodup).2.2
  rw [List.mem_append, List.mem_range, mem_children_iff] at hmem
  constructor
  · refine fun hq => ⟨h.lt_of_mem hq, fun p fr l r _ hp => ?_⟩
    have hfree : ∀ c ∈ nodes.flatMap NodeRec.children, q ≠ c := fun c hc heq => hdisjoint c hc q hq heq.symm
    exact ⟨hfree l (mem_children_iff.2 ⟨p, fr, l, r, hp, .inl rfl⟩),
      hfree r (mem_children_iff.2 ⟨p, fr, l, r, hp, .inr rfl⟩)⟩
  · rintro ⟨hlt, hfree⟩
    refine (hmem.2 hlt).resolve_left ?_
    rintro ⟨p, fr, l, r, hp, hq⟩
    obtain ⟨hl, hr⟩ := hfree p fr l r (List.getElem?_eq_some_iff.1 hp).1 hp
    exact hq.elim hl hr

/-! ### A pass and the records before it -/

variable {nodes : List NodeRec} {x y : Nat}

theorem inQueue_merged_iff {p : Nat} (hp : p ≤ nodes.length) (q : Nat) :
    InQueue (merged nodes x y) p q ↔ InQueue nodes p q :=
  and_congr_right fun _ => forall_congr' fun p' => forall₃_congr fun _ _ _ => imp_congr_right fun hlt => by
    rw [merged_getElem?_lt (hlt.trans_le hp)]

theorem before_merged_iff {a b : Nat} (ha : a < nodes.length) (hb : b < nodes.length) :
    Before (merged nodes x y) a b ↔ Before nodes a b := by
  rw [Before, Before, freqAt_merged_lt ha, freqAt_merged_lt hb]

/-- The statement about a record up to the new one reads only the records before it. -/
theorem mergedLeast_merged_iff {p fr a b : Nat} (hp : p ≤ nodes.length) (ha : a < nodes.length) (hb : b < nodes.length) :
    MergedLeast (merged nodes x y) p fr a b ↔ MergedLeast nodes p fr a b := by
  have hbefore : ∀ c < nodes.length, ∀ q, InQueue nodes p q → (Before (merged nodes x y) c q ↔ Before nodes c q) :=
    fun c hc q hq => before_merged_iff hc (hq.1.trans_le hp)
  simp +contextual only [MergedLeast, inQueue_merged_iff hp, freqAt_merged_lt ha, freqAt_merged_lt hb, hbefore a ha,
    hbefore b hb]

/-- The record of a pass is made of the two least. -/
theorem mergedLeast_new {f : List FreqEntry} {queue rest rest' : List Nat} (h : Forest f nodes queue)
    (hx : Popped (byFreqThenIndex nodes) queue x rest) (hy : Popped (byFreqThenIndex nodes) rest y rest') :
    MergedLeast nodes nodes.length (freqAt nodes x + freqAt nodes y) x y := by
  have hnodup : (x :: rest).Nodup := hx.perm.nodup_iff.1 (List.nodup_append.1 h.nodup).2.1
  have hyrest : y ∈ rest := hy.perm.mem_iff.2 (List.mem_cons_self ..)
  have hrest : ∀ q, InQueue nodes nodes.length q → q ≠ x → q ∈ rest := fun q hq hne =>
    (List.mem_cons.1 (hx.perm.mem_iff.1 ((h.mem_queue_iff q).2 hq))).resolve_left hne
  refine ⟨rfl, (h.mem_queue_iff x).1 (hx.perm.mem_iff.2 (List.mem_cons_self ..)),
    (h.mem_queue_iff y).1 (hx.perm.mem_iff.2 (List.mem_cons_of_mem _ hyrest)), ?_, ?_, ?_⟩
  · rintro rfl
    exact (List.nodup_cons.1 hnodup).1 hyrest
  · exact fun q hq hne => hx.before ((h.mem_queue_iff q).2 hq) hne
  · exact fun q hq hnex hney => hy.before (hrest q hq hnex) hney

/-- Every internal record was made of the two least of the queue at its making. -/
def Greedy (nodes : List NodeRec) : Prop :=
  ∀ p fr a b : Nat, nodes[p]? = some (.internal fr a b) → MergedLeast nodes p fr a b

theorem Greedy.pass {f : List FreqEntry} {queue rest rest' : List Nat} (hgreedy : Greedy nodes) (h : Forest f nodes queue)
    (hx : Popped (byFreqThenIndex nodes) queue x rest) (hy : Popped (byFreqThenIndex nodes) rest y rest') :
    Greedy (merged nodes x y) := by
  intro p fr a b hp
  rcases merged_getElem?_some hp with ⟨hlt, hold⟩ | ⟨rfl, hnew⟩
  · obtain ⟨ha, hb, -⟩ := h.below p fr a b hold
    exact (mergedLeast_merged_iff hlt.le (ha.trans hlt) (hb.trans hlt)).2 (hgreedy p fr a b hold)
  · cases hnew
    obtain ⟨-, hqx, hqy, -⟩ := mergedLeast_new h hx hy
    exact (mergedLeast_merged_iff le_rfl hqx.1 hqy.1).2 (mergedLeast_new h hx hy)

theorem greedy_buildNodes {f : List FreqEntry} (hf : f ≠ []) : Greedy (buildNodes byFreqThenIndex f) := by
  obtain ⟨root, -, hgreedy⟩ := mergeLoop_ends
    (P := fun nodes queue => Forest f nodes queue ∧ Greedy nodes) byFreqThenIndex
    (fun _ _ _ _ x _ hx hy ⟨h, hgreedy⟩ => ⟨h.pass (hx.perm.trans (hy.perm.cons x)), hgreedy.pass h hx hy⟩)
    f.length (leavesOf f) (List.range f.length) (by simp) (by simpa using hf)
    ⟨Forest.start hf, fun p fr a b hp => absurd hp (leavesOf_getElem?_ne_internal f p fr a b)⟩
  exact hgreedy

end Sys2Proof.Machine

namespace Sys2Proof

open Machine

/-- Settles O28: BTREE's records are those of the greedy merging. -/
theorem btreeMergesLeast : Obligations.BtreeMergesLeast := by
  intro s herr htext hcap
  obtain ⟨f, hexec, -, hne, -⟩ := exec_btree_of_fits herr htext hcap
  exact ⟨_, hexec, herr, greedy_buildNodes hne⟩

end Sys2Proof
end

section
/-! PROOF. O31: the check of R140 finds the smallest witness, and there is none exactly in a tree. -/

namespace Sys2Proof

open Machine

theorem recordOk_iff {nodes : List NodeRec} {p : Nat} : recordOk nodes p = true ↔ ¬BadRecord nodes p := by
  unfold recordOk BadRecord
  split
  · next n hn => cases n <;> simp [hn, childrenBelow, and_assoc]
  · next hn => simp [hn]

theorem BadRecord.lt_length {nodes : List NodeRec} {p : Nat} (h : BadRecord nodes p) : p < nodes.length := by
  obtain ⟨f, l, r, hp, -⟩ := h
  exact (List.getElem?_eq_some_iff.1 hp).1

/-- The search for condition (b) finds the first bad record. -/
theorem find?_badRecord_eq_some {nodes : List NodeRec} {p : Nat} :
    (List.range nodes.length).find? (fun q => !recordOk nodes q) = some p ↔
      BadRecord nodes p ∧ ∀ q, q < p → ¬BadRecord nodes q := by
  rw [List.find?_range_eq_some]
  simp only [Bool.not_not, recordOk_iff, List.mem_range, Bool.not_eq_true', Bool.eq_false_iff, ne_eq, not_not]
  exact and_congr_right fun hp => and_iff_right hp.lt_length

theorem find?_badRecord_eq_none {nodes : List NodeRec} :
    (List.range nodes.length).find? (fun q => !recordOk nodes q) = none ↔ ∀ p, ¬BadRecord nodes p := by
  rw [List.find?_range_eq_none]
  simp only [Bool.not_not, recordOk_iff]
  exact ⟨fun h p hp => h p hp.lt_length hp, fun h p _ => h p⟩

/-- The search for condition (c) finds the first index that is not a child once. -/
theorem find?_childCount_eq_some {nodes : List NodeRec} {q : Nat} :
    (List.range (nodes.length - 1)).find? (fun q => !decide (childCount nodes q = 1)) = some q ↔
      q < nodes.length - 1 ∧ childCount nodes q ≠ 1 ∧ ∀ p, p < q → childCount nodes p = 1 := by
  rw [List.find?_range_eq_some, List.mem_range, and_left_comm]
  simp

/-- The check answers the smallest witness, in the order (a), (b), (c). -/
theorem treeFault_eq_some_iff {nodes : List NodeRec} {q : Nat} : treeFault nodes = some q ↔ TreeWitness nodes q := by
  unfold treeFault TreeWitness
  by_cases hnil : nodes = []
  · simp [hnil, eq_comm]
  · rw [if_neg (by simpa using hnil)]
    cases hb : (List.range nodes.length).find? (fun p => !recordOk nodes p) with
    | some p =>
      obtain ⟨hp, hmin⟩ := find?_badRecord_eq_some.1 hb
      have hnone : ¬∀ p, ¬BadRecord nodes p := fun h => h p hp
      have hsome : p = q ↔ BadRecord nodes q ∧ ∀ p, p < q → ¬BadRecord nodes p := by
        rw [← find?_badRecord_eq_some, hb, Option.some.injEq]
      simp [hnil, hnone, hsome]
    | none =>
      have hgood := find?_badRecord_eq_none.1 hb
      simpa [hnil, hgood] using find?_childCount_eq_some

/-- A tree has no witness. -/
theorem not_treeWitness_of_treeOK {nodes : List NodeRec} (h : TreeOK nodes) (q : Nat) : ¬TreeWitness nodes q := by
  obtain ⟨hpos, hbelow, hcount⟩ := h
  rintro (⟨rfl, -⟩ | ⟨-, ⟨f, l, r, hq, hbad⟩, -⟩ | ⟨-, -, hq, hne, -⟩)
  · exact absurd hpos (by decide)
  · exact hbad (hbelow q f l r hq)
  · exact hne (hcount q hq)

theorem treeFault_eq_none_iff {nodes : List NodeRec} : treeFault nodes = none ↔ TreeOK nodes :=
  ⟨treeOK_of_treeFault_none, fun h => Option.eq_none_iff_forall_ne_some.2 fun q hq =>
    not_treeWitness_of_treeOK h q (treeFault_eq_some_iff.1 hq)⟩

/-- Settles O31: the three searches of the check, one after the other. -/
theorem treeCheckIsTreeOK : Obligations.TreeCheckIsTreeOK :=
  fun _ => ⟨treeFault_eq_none_iff, fun _ => treeFault_eq_some_iff⟩

end Sys2Proof
end

section
/-! PROOF. O33, O34: the traversal of R142. Two invariants of its stack and CODE: `Pending` counts the records not yet popped,
so that the passes suffice, and `Visiting` places the codes and the ways on the stack from left to right. -/

namespace Sys2Proof

/-! ### Left to right -/

@[simp] theorem not_leftOf_nil (u : List Bool) : ¬LeftOf u [] := by
  rintro ⟨w, x, y, -, h⟩
  simp at h

theorem leftOf_cons_cons {a b : Bool} {u v : List Bool} :
    LeftOf (a :: u) (b :: v) ↔ (a = false ∧ b = true) ∨ (a = b ∧ LeftOf u v) := by
  constructor
  · rintro ⟨w, x, y, hu, hv⟩
    cases w with
    | nil => exact .inl ⟨(List.cons.inj hu).1, (List.cons.inj hv).1⟩
    | cons c w =>
      obtain ⟨rfl, rfl⟩ := List.cons.inj hu
      obtain ⟨rfl, rfl⟩ := List.cons.inj hv
      exact .inr ⟨rfl, w, x, y, rfl, rfl⟩
  · rintro (⟨rfl, rfl⟩ | ⟨rfl, w, x, y, rfl, rfl⟩)
    · exact ⟨[], u, v, rfl, rfl⟩
    · exact ⟨a :: w, x, y, rfl, rfl⟩

theorem leftOf_asymm {u v : List Bool} (h : LeftOf u v) : ¬LeftOf v u := by
  induction v generalizing u with
  | nil => exact absurd h (not_leftOf_nil u)
  | cons b v ih =>
    cases u with
    | nil => exact not_leftOf_nil _
    | cons a u =>
      rw [leftOf_cons_cons] at h ⊢
      rintro (⟨rfl, rfl⟩ | ⟨rfl, hvu⟩)
      · simp at h
      · exact ih (by simpa using h) hvu

theorem not_leftOf_self (u : List Bool) : ¬LeftOf u u := fun h => leftOf_asymm h h

theorem LeftOf.append_left {u v : List Bool} (h : LeftOf u v) (t : List Bool) : LeftOf (u ++ t) v := by
  obtain ⟨w, x, y, rfl, rfl⟩ := h
  exact ⟨w, x ++ t, y, by simp, rfl⟩

theorem LeftOf.append_right {u v : List Bool} (h : LeftOf u v) (t : List Bool) : LeftOf u (v ++ t) := by
  obtain ⟨w, x, y, rfl, rfl⟩ := h
  exact ⟨w, x, y ++ t, rfl, by simp⟩

/-- The two edges below a way take its place from left to right. -/
theorem pairwise_leftOf_children {us vs : List (List Bool)} {pre : List Bool} (h : (us ++ pre :: vs).Pairwise LeftOf) :
    (us ++ (pre ++ [false]) :: (pre ++ [true]) :: vs).Pairwise LeftOf := by
  simp only [List.pairwise_append, List.pairwise_cons, List.forall_mem_cons] at h ⊢
  obtain ⟨hus, ⟨hpre, hvs⟩, hcross⟩ := h
  have hsiblings : LeftOf (pre ++ [false]) (pre ++ [true]) := ⟨pre, [], [], rfl, rfl⟩
  have hright : ∀ b, ∀ v ∈ vs, LeftOf (pre ++ [b]) v := fun b v hv => (hpre v hv).append_left [b]
  refine ⟨hus, ⟨⟨hsiblings, hright false⟩, hright true, hvs⟩, fun u hu => ?_⟩
  obtain ⟨hu, huvs⟩ := hcross u hu
  exact ⟨hu.append_right [false], hu.append_right [true], huvs⟩

end Sys2Proof

namespace Sys2Proof.Machine

/-! ### The records not yet popped -/

/-- What `g` makes of the record at an index, if there is one. -/
def collectAt {α : Type} (g : NodeRec → List α) (nodes : List NodeRec) (p : Nat) : List α := (nodes[p]?.map g).getD []

theorem collectAt_of_some {α : Type} {g : NodeRec → List α} {nodes : List NodeRec} {p : Nat} {n : NodeRec}
    (h : nodes[p]? = some n) : collectAt g nodes p = g n := by
  simp [collectAt, h]

/-- The records by index are the records. -/
theorem flatMap_collectAt_range {α : Type} (g : NodeRec → List α) (nodes : List NodeRec) :
    (List.range nodes.length).flatMap (collectAt g nodes) = nodes.flatMap g := by
  have hrecords : (List.range nodes.length).map (collectAt g nodes) = nodes.map g :=
    List.ext_getElem (by simp) fun p hp _ => by simp [collectAt, List.getElem?_eq_getElem (by simpa using hp)]
  rw [List.flatMap_def, hrecords, ← List.flatMap_def]

/-- The symbol of a leaf; none for an internal record. -/
def symbolsOf (n : NodeRec) : List Symbol := leafSymbols [n]

theorem flatMap_symbolsOf (nodes : List NodeRec) : nodes.flatMap symbolsOf = leafSymbols nodes := by
  induction nodes with
  | nil => rfl
  | cons n ns ih =>
    rw [List.flatMap_cons, ih]
    exact List.filterMap_append.symm

/-- The records of a tree that are still to be popped: each is on the stack or the child of another of them, and only once;
their leaves carry the symbols that CODE has not yet. -/
structure Pending (nodes : List NodeRec) (stack : List (Nat × List Bool)) (code : List CodeEntry) (todo : List Nat) :
    Prop where
  inRange : ∀ p ∈ todo, p < nodes.length
  waiting : (stack.map Prod.fst ++ todo.flatMap (collectAt NodeRec.children nodes)).Perm todo
  symbols : (code.map CodeEntry.sym ++ todo.flatMap (collectAt symbolsOf nodes)).Perm (leafSymbols nodes)

namespace Pending

variable {nodes : List NodeRec} {stack : List (Nat × List Bool)} {code : List CodeEntry} {todo : List Nat}

theorem start (hT : TreeOK nodes) : Pending nodes [(rootOf nodes, [])] [] (List.range nodes.length) := by
  refine ⟨fun p hp => List.mem_range.1 hp, ?_, by simp [flatMap_collectAt_range, flatMap_symbolsOf]⟩
  have hlen : nodes.length = rootOf nodes + 1 := by have := hT.1; unfold rootOf; omega
  rw [flatMap_collectAt_range, hlen, List.range_succ]
  exact List.perm_append_comm.trans ((children_perm_of_treeOK hT).append_right _)

/-- The top of the stack is a record to be popped; its children take its place, and its symbol goes to CODE. -/
theorem pop {p : Nat} {pre : List Bool} {n : NodeRec} (h : Pending nodes ((p, pre) :: stack) code todo)
    (hn : nodes[p]? = some n) (new : List (Nat × List Bool)) (hnew : new.map Prod.fst = n.children)
    (entries : List CodeEntry) (hentries : entries.map CodeEntry.sym = symbolsOf n) :
    ∃ rest, todo.length = rest.length + 1 ∧ Pending nodes (new ++ stack) (code ++ entries) rest := by
  have hp : p ∈ todo := h.waiting.subset (by simp)
  have hperm := List.perm_cons_erase hp
  have hchildren := hperm.flatMap_right (collectAt NodeRec.children nodes)
  have hsymbols := hperm.flatMap_right (collectAt symbolsOf nodes)
  rw [List.flatMap_cons, collectAt_of_some hn] at hchildren hsymbols
  refine ⟨todo.erase p, by simpa using hperm.length_eq, fun q hq => h.inRange q (List.mem_of_mem_erase hq), ?_, ?_⟩
  · refine (List.perm_cons p).1 (List.Perm.trans (List.perm_iff_count.2 fun q => ?_) (h.waiting.trans hperm))
    have hcount := hchildren.count_eq q
    simp only [List.map_append, List.map_cons, List.cons_append, List.count_cons, List.count_append, hnew] at hcount ⊢
    omega
  · rw [List.map_append, List.append_assoc, hentries]
    exact (hsymbols.symm.append_left _).trans h.symbols

/-- A record with nothing on the stack above it would have an ancestor without end. -/
theorem todo_eq_nil (hT : TreeOK nodes) (h : Pending nodes [] code todo) : todo = [] := by
  have hparent : ∀ p ∈ todo, ∃ q ∈ todo, p < q := fun p hp => by
    obtain ⟨q, hq, hpq⟩ := List.mem_flatMap.1 (h.waiting.symm.subset hp)
    refine ⟨q, hq, ?_⟩
    cases hn : nodes[q]? with
    | none => simp [collectAt, hn] at hpq
    | some n =>
      rw [collectAt_of_some hn] at hpq
      cases n with
      | leaf => cases hpq
      | internal f l r =>
        obtain ⟨hl, hr, -⟩ := hT.2.1 q f l r hn
        simp only [NodeRec.children, List.mem_cons, List.not_mem_nil, or_false] at hpq
        omega
  have habsent : ∀ d p, nodes.length ≤ p + d → p ∉ todo := fun d => by
    induction d with
    | zero => exact fun p hle hp => Nat.not_lt.2 hle (h.inRange p hp)
    | succ d ih =>
      intro p hle hp
      obtain ⟨q, hq, hlt⟩ := hparent p hp
      exact ih q (by omega) hq
  exact List.eq_nil_iff_forall_not_mem.2 fun p => habsent nodes.length p (Nat.le_add_left _ _)

/-- While leaves with different symbols are visited, the next one has a new symbol. -/
theorem hasCode_eq_false {p f : Nat} {pre : List Bool} {x : Symbol} (h : Pending nodes ((p, pre) :: stack) code todo)
    (hdistinct : (leafSymbols nodes).Nodup) (hp : nodes[p]? = some (.leaf x f)) : hasCode x code = false := by
  have htodo : x ∈ todo.flatMap (collectAt symbolsOf nodes) :=
    List.mem_flatMap.2 ⟨p, h.waiting.subset (by simp), by simp [collectAt_of_some hp, symbolsOf, leafSymbols]⟩
  refine Bool.eq_false_iff.2 fun hcode => ?_
  obtain ⟨e, he, rfl⟩ := hasCode_iff.1 hcode
  exact (List.nodup_append.1 (h.symbols.nodup_iff.2 hdistinct)).2.2 _ (List.mem_map_of_mem he) _ htodo rfl

end Pending

/-! ### The ways on the stack and in CODE -/

/-- CODE and the stack, bottom last, are ways of the tree from left to right; every way to a leaf is in CODE or goes on from
one on the stack; CODE has each symbol once. -/
structure Visiting (nodes : List NodeRec) (stack : List (Nat × List Bool)) (code : List CodeEntry) : Prop where
  ways : ∀ e ∈ stack, follow nodes (rootOf nodes) e.2 = some e.1
  leads : ∀ e ∈ code, LeadsTo nodes e.bits e.sym
  ordered : (code.map CodeEntry.bits ++ stack.map Prod.snd).Pairwise LeftOf
  covers : ∀ w y, LeadsTo nodes w y → CodeEntry.mk y w ∈ code ∨ ∃ e ∈ stack, e.2 <+: w
  distinct : (code.map CodeEntry.sym).Nodup

namespace Visiting

variable {nodes : List NodeRec} {stack : List (Nat × List Bool)} {code : List CodeEntry} {p : Nat} {pre : List Bool}

theorem start (nodes : List NodeRec) : Visiting nodes [(rootOf nodes, [])] [] where
  ways := by simp [follow]
  leads := by simp
  ordered := by simp
  covers := by simp
  distinct := by simp

/-- A way to a leaf that goes on from the top of the stack. -/
theorem leadsTo_append (h : Visiting nodes ((p, pre) :: stack) code) {t : List Bool} {y : Symbol}
    (ht : LeadsTo nodes (pre ++ t) y) : ∃ q f, follow nodes p t = some q ∧ nodes[q]? = some (.leaf y f) := by
  obtain ⟨q, f, hq, hleaf⟩ := ht
  rw [follow_append, h.ways _ (List.mem_cons_self ..)] at hq
  exact ⟨q, f, hq, hleaf⟩

/-- Popping a leaf with a new symbol moves its way from the stack to CODE. -/
theorem leaf {x : Symbol} {f : Nat} (h : Visiting nodes ((p, pre) :: stack) code) (hp : nodes[p]? = some (.leaf x f))
    (hnew : hasCode x code = false) : Visiting nodes stack (code ++ [⟨x, pre⟩]) where
  ways := (List.forall_mem_cons.1 h.ways).2
  leads := List.forall_mem_append.2 ⟨h.leads, by simpa using ⟨p, f, h.ways _ (List.mem_cons_self ..), hp⟩⟩
  ordered := by simpa using h.ordered
  covers w y hw := by
    rcases h.covers w y hw with hcode | ⟨e, he, hprefix⟩
    · exact .inl (List.mem_append_left _ hcode)
    · rcases List.mem_cons.1 he with rfl | he
      · obtain ⟨t, rfl⟩ := hprefix
        obtain ⟨q, f', hq, hleaf⟩ := h.leadsTo_append hw
        cases t with
        | nil =>
          cases hq
          cases hp.symm.trans hleaf
          exact .inl (by simp)
        | cons b t =>
          obtain ⟨_, _, _, hinternal, -⟩ := follow_cons hq
          cases hp.symm.trans hinternal
      · exact .inr ⟨e, he, hprefix⟩
  distinct := by
    have hx : x ∉ code.map CodeEntry.sym := fun hx => by
      obtain ⟨e, he, hex⟩ := List.mem_map.1 hx
      cases (hasCode_iff.2 ⟨e, he, hex⟩).symm.trans hnew
    rw [List.map_append, List.map_singleton, ← List.concat_eq_append]
    exact h.distinct.concat hx

/-- Popping an internal record puts the ways to its children on the stack. -/
theorem internal {f l r : Nat} (h : Visiting nodes ((p, pre) :: stack) code) (hp : nodes[p]? = some (.internal f l r)) :
    Visiting nodes ((l, pre ++ [false]) :: (r, pre ++ [true]) :: stack) code where
  ways := by
    obtain ⟨htop, hstack⟩ := List.forall_mem_cons.1 h.ways
    refine List.forall_mem_cons.2 ⟨?_, List.forall_mem_cons.2 ⟨?_, hstack⟩⟩ <;> simp [follow_append, htop, follow, hp]
  leads := h.leads
  ordered := pairwise_leftOf_children h.ordered
  covers w y hw := by
    rcases h.covers w y hw with hcode | ⟨e, he, hprefix⟩
    · exact .inl hcode
    · rcases List.mem_cons.1 he with rfl | he
      · obtain ⟨t, rfl⟩ := hprefix
        obtain ⟨q, f', hq, hleaf⟩ := h.leadsTo_append hw
        match t with
        | [] =>
          cases hq
          cases hp.symm.trans hleaf
        | false :: t => exact .inr ⟨_, List.mem_cons_self .., t, by simp⟩
        | true :: t => exact .inr ⟨_, List.mem_cons_of_mem _ (List.mem_cons_self ..), t, by simp⟩
      · exact .inr ⟨e, by simp [he], hprefix⟩
  distinct := h.distinct

/-- A way to a leaf that parts to the left from a way b is in CODE, when the stack is not to the left of b. -/
theorem mem_code (h : Visiting nodes stack code) {w b : List Bool} {y : Symbol} (hw : LeadsTo nodes w y)
    (hb : LeftOf w b) (hstack : ∀ e ∈ stack, b = e.2 ∨ LeftOf b e.2) : CodeEntry.mk y w ∈ code := by
  refine (h.covers w y hw).resolve_right ?_
  rintro ⟨e, he, t, rfl⟩
  rcases hstack e he with rfl | hlt
  · exact not_leftOf_self _ (hb.append_right t)
  · exact leftOf_asymm hb (hlt.append_right t)

/-- CODE has one code for a symbol. -/
theorem bits_eq (h : Visiting nodes stack code) {x : Symbol} {u v : List Bool} (hu : CodeEntry.mk x u ∈ code)
    (hv : CodeEntry.mk x v ∈ code) : u = v :=
  congrArg CodeEntry.bits (List.inj_on_of_nodup_map h.distinct hu hv rfl)

end Visiting

/-! ### The traversal -/

section Passes

variable {nodes : List NodeRec} {p fuel : Nat} {pre : List Bool} {stack : List (Nat × List Bool)} {code : List CodeEntry}

theorem traverse_leaf_new {x : Symbol} {f : Nat} (hp : nodes[p]? = some (.leaf x f)) (hnew : hasCode x code = false) :
    traverse nodes (fuel + 1) ((p, pre) :: stack) code = traverse nodes fuel stack (code ++ [⟨x, pre⟩]) := by
  simp [traverse, hp, hnew]

theorem traverse_leaf_repeated {x : Symbol} {f : Nat} (hp : nodes[p]? = some (.leaf x f))
    (hold : hasCode x code = true) : traverse nodes (fuel + 1) ((p, pre) :: stack) code = .error (p, x) := by
  simp [traverse, hp, hold]

theorem traverse_internal {f l r : Nat} (hp : nodes[p]? = some (.internal f l r)) :
    traverse nodes (fuel + 1) ((p, pre) :: stack) code =
      traverse nodes fuel ((l, pre ++ [false]) :: (r, pre ++ [true]) :: stack) code := by
  simp [traverse, hp]

end Passes

/-- From a stack that both invariants describe, the traversal ends with an empty stack, or at a leaf on its top that repeats a
symbol of CODE (R142, R144). -/
theorem traverse_cases {nodes : List NodeRec} (hT : TreeOK nodes) {fuel : Nat} {stack : List (Nat × List Bool)}
    {code : List CodeEntry} {todo : List Nat} (hfuel : todo.length = fuel) (hpending : Pending nodes stack code todo)
    (hvisiting : Visiting nodes stack code) :
    (∃ c, traverse nodes fuel stack code = .ok c ∧ Pending nodes [] c [] ∧ Visiting nodes [] c) ∨
      ∃ p pre x f stack' c todo', traverse nodes fuel stack code = .error (p, x) ∧ nodes[p]? = some (.leaf x f) ∧
        hasCode x c = true ∧ Pending nodes ((p, pre) :: stack') c todo' ∧ Visiting nodes ((p, pre) :: stack') c := by
  induction fuel generalizing stack code todo with
  | zero =>
    obtain rfl := List.eq_nil_of_length_eq_zero hfuel
    obtain rfl : stack = [] := by simpa using hpending.waiting.length_eq
    exact .inl ⟨code, rfl, hpending, hvisiting⟩
  | succ fuel ih =>
    match stack with
    | [] =>
      obtain rfl := hpending.todo_eq_nil hT
      cases hfuel
    | (p, pre) :: stack =>
      have hp : p < nodes.length := hpending.inRange p (hpending.waiting.subset (by simp))
      obtain ⟨n, hn⟩ : ∃ n, nodes[p]? = some n := ⟨_, List.getElem?_eq_getElem hp⟩
      cases n with
      | leaf x f =>
        cases hx : hasCode x code with
        | true =>
          exact .inr ⟨p, pre, x, f, stack, code, todo, traverse_leaf_repeated hn hx, hn, hx, hpending, hvisiting⟩
        | false =>
          obtain ⟨rest, hlen, hrest⟩ := hpending.pop hn [] rfl [⟨x, pre⟩] rfl
          rw [traverse_leaf_new hn hx]
          exact ih (by omega) hrest (hvisiting.leaf hn hx)
      | internal f l r =>
        obtain ⟨rest, hlen, hrest⟩ := hpending.pop hn [(l, pre ++ [false]), (r, pre ++ [true])] rfl [] rfl
        rw [List.append_nil] at hrest
        rw [traverse_internal hn]
        exact ih (by omega) hrest (hvisiting.internal hn)

end Sys2Proof.Machine
end

section
/-! PROOF. O33, O34: BCODES on a tree (R141 to R144, R146). -/

namespace Sys2Proof

open Machine

/-! ### The root -/

theorem codesOf_of_rootInternal {nodes : List NodeRec} (h : RootInternal nodes) :
    codesOf nodes = traverse nodes nodes.length [(rootOf nodes, [])] [] := by
  obtain ⟨f, l, r, hroot⟩ := h
  rw [rootOf] at hroot
  simp [codesOf, hroot, rootOf]

/-- A tree of one record is a leaf (R143). -/
theorem eq_leaf_of_treeOK {nodes : List NodeRec} (hT : TreeOK nodes) (h : nodes.length = 1) :
    ∃ x f, nodes = [NodeRec.leaf x f] := by
  obtain ⟨n, rfl⟩ := List.length_eq_one_iff.1 h
  cases n with
  | leaf x f => exact ⟨x, f, rfl⟩
  | internal f l r =>
    obtain ⟨hl, -⟩ := hT.2.1 0 f l r rfl
    exact absurd hl (Nat.not_lt_zero l)

/-- In a tree of more records the last but one has a parent, which can only be the last. -/
theorem rootInternal_of_treeOK {nodes : List NodeRec} (hT : TreeOK nodes) (h : 1 < nodes.length) : RootInternal nodes := by
  have hchild : nodes.length - 2 ∈ nodes.flatMap NodeRec.children :=
    (children_perm_of_treeOK hT).mem_iff.2 (List.mem_range.2 (by omega))
  obtain ⟨p, f, l, r, hp, hlr⟩ := mem_children_iff.1 hchild
  obtain ⟨hl, hr, -⟩ := hT.2.1 p f l r hp
  have hlt := (List.getElem?_eq_some_iff.1 hp).1
  obtain rfl : p = rootOf nodes := by unfold rootOf; omega
  exact ⟨f, l, r, hp⟩

theorem rootInternal_of_follow {nodes : List NodeRec} {v : List Bool} {p : Nat} (hv : v ≠ [])
    (h : follow nodes (rootOf nodes) v = some p) : RootInternal nodes := by
  cases v with
  | nil => exact absurd rfl hv
  | cons b v =>
    obtain ⟨f, l, r, hroot, -⟩ := follow_cons h
    exact ⟨f, l, r, hroot⟩

/-- How BCODES can end on a tree whose root is internal: every leaf has its code, or the traversal stopped at a leaf that
repeats a symbol. -/
theorem codesOf_cases {nodes : List NodeRec} (hT : TreeOK nodes) (hroot : RootInternal nodes) :
    (∃ c, codesOf nodes = .ok c ∧ Pending nodes [] c [] ∧ Visiting nodes [] c) ∨
      ∃ p pre x f stack c todo, codesOf nodes = .error (p, x) ∧ nodes[p]? = some (.leaf x f) ∧
        hasCode x c = true ∧ Pending nodes ((p, pre) :: stack) c todo ∧ Visiting nodes ((p, pre) :: stack) c := by
  rw [codesOf_of_rootInternal hroot]
  exact traverse_cases hT (by simp) (Pending.start hT) (Visiting.start nodes)

/-! ### Different leaf symbols -/

/-- The codes of a tree of several leaves with different symbols (R142, R146). -/
theorem codesOf_of_distinct {nodes : List NodeRec} (hT : TreeOK nodes) (hdistinct : (leafSymbols nodes).Nodup)
    (hroot : RootInternal nodes) :
    ∃ c, codesOf nodes = .ok c ∧ (c.map CodeEntry.sym).Perm (leafSymbols nodes) ∧
      (∀ e ∈ c, LeadsTo nodes e.bits e.sym) ∧ c.Pairwise fun a b => LeftOf a.bits b.bits := by
  rcases codesOf_cases hT hroot with
    ⟨c, hc, hpending, hvisiting⟩ | ⟨p, pre, x, f, stack, c, todo, -, hp, hcode, hpending, -⟩
  · have hordered : c.Pairwise fun a b => LeftOf a.bits b.bits := by
      simpa [List.pairwise_map] using hvisiting.ordered
    exact ⟨c, hc, by simpa using hpending.symbols, hvisiting.leads, hordered⟩
  · cases hcode.symm.trans (hpending.hasCode_eq_false hdistinct hp)

/-- One entry for each leaf, with codes of one bit to the number of leaves less one (R146). -/
theorem codesOf_bounds {nodes : List NodeRec} (hT : TreeOK nodes) {c : List CodeEntry} (hc : codesOf nodes = .ok c)
    (hsyms : (c.map CodeEntry.sym).Perm (leafSymbols nodes)) :
    c.length = (nodes.length + 1) / 2 ∧ ∀ e ∈ c, 1 ≤ e.bits.length ∧ e.bits.length ≤ max 1 (c.length - 1) := by
  have hlength := hsyms.length_eq
  have hleaves := leafSymbols_length_of_treeOK hT
  have hrecords := length_of_treeOK hT
  rw [List.length_map] at hlength
  have hinternal : internalCount nodes = c.length - 1 := by omega
  exact ⟨by omega, hinternal ▸ (codesOf_codeMap hT hc).bounds⟩

theorem exec_bcodes_ok {s : State} (herr : s.err = false) (hT : TreeOK s.node) {c : List CodeEntry}
    (hc : codesOf s.node = .ok c) : exec .bcodes s = .next (completed { s with code := c }) := by
  rw [exec_bcodes, command_of_no_err herr]
  rcases bcodesBody_cases (accept 0x3 s) with ⟨q, hq, -⟩ | ⟨p, x, -, he, -⟩ | ⟨d, -, hd, hbody⟩
  · cases (treeFault_eq_none_iff.2 hT).symm.trans hq
  · cases hc.symm.trans he
  · cases hc.symm.trans hd
    rw [hbody]
    rfl

/-- Settles O33: a tree of one leaf by R143, a larger one by the traversal. -/
theorem bcodesWritesPrefixCode : Obligations.BcodesWritesPrefixCode := by
  intro s herr hT hdistinct
  rcases Nat.lt_or_eq_of_le hT.1 with hmany | hone
  · obtain ⟨c, hc, hsyms, hleads, hordered⟩ := codesOf_of_distinct hT hdistinct (rootInternal_of_treeOK hT hmany)
    obtain ⟨hlength, hbounds⟩ := codesOf_bounds hT hc hsyms
    exact ⟨c, exec_bcodes_ok herr hT hc, hsyms, hlength, fun h => absurd h hmany.ne', fun _ => ⟨hleads, hordered⟩,
      hbounds⟩
  · obtain ⟨x, f, hnode⟩ := eq_leaf_of_treeOK hT hone.symm
    have hc : codesOf s.node = .ok [⟨x, [false]⟩] := by simp [codesOf, hnode]
    have hsyms : ([⟨x, [false]⟩] : List CodeEntry).map CodeEntry.sym = leafSymbols s.node := by simp [hnode, leafSymbols]
    obtain ⟨hlength, hbounds⟩ := codesOf_bounds hT hc (.of_eq hsyms)
    exact ⟨_, exec_bcodes_ok herr hT hc, .of_eq hsyms, hlength, fun _ => rfl, fun h => absurd hone h.ne, hbounds⟩

/-! ### A repeated leaf symbol -/

/-- The traversal stops at the second leaf of the first repetition in visiting order (R144). -/
theorem codesOf_of_repeated {nodes : List NodeRec} (hT : TreeOK nodes) {p f : Nat} {x : Symbol} {u v : List Bool}
    (hv : follow nodes (rootOf nodes) v = some p) (hp : nodes[p]? = some (.leaf x f)) (huv : LeftOf u v)
    (hu : LeadsTo nodes u x)
    (hfirst : ∀ u' v' y, LeftOf u' v' → LeadsTo nodes u' y → LeadsTo nodes v' y → v' = v ∨ LeftOf v v') :
    codesOf nodes = .error (p, x) := by
  have hvx : LeadsTo nodes v x := ⟨p, f, hv, hp⟩
  have hne : v ≠ [] := by
    rintro rfl
    exact not_leftOf_nil u huv
  rcases codesOf_cases hT (rootInternal_of_follow hne hv) with
    ⟨c, -, -, hvisiting⟩ | ⟨q, w, y, g, stack, c, todo, hc, hq, hcode, -, hvisiting⟩
  · have huc : CodeEntry.mk x u ∈ c := (hvisiting.covers u x hu).resolve_right (by simp)
    have hvc : CodeEntry.mk x v ∈ c := (hvisiting.covers v x hvx).resolve_right (by simp)
    exact absurd (hvisiting.bits_eq huc hvc ▸ huv) (not_leftOf_self v)
  · obtain ⟨⟨_, z⟩, he, rfl⟩ := hasCode_iff.1 hcode
    obtain ⟨-, hstack, hcross⟩ := List.pairwise_append.1 hvisiting.ordered
    have hw := hvisiting.ways _ (List.mem_cons_self ..)
    have hzw : LeftOf z w := hcross z (List.mem_map_of_mem he) w (List.mem_cons_self ..)
    rcases hfirst z w _ hzw (hvisiting.leads _ he) ⟨q, g, hw, hq⟩ with rfl | hvw
    · cases hv.symm.trans hw
      cases hp.symm.trans hq
      exact hc
    · have hvc : CodeEntry.mk x v ∈ c := hvisiting.mem_code hvx hvw fun e he' => by
        rcases List.mem_cons.1 he' with rfl | he'
        · exact .inl rfl
        · exact .inr ((List.pairwise_cons.1 hstack).1 e.2 (List.mem_map_of_mem he'))
      have huc : CodeEntry.mk x u ∈ c := hvisiting.mem_code hu huv fun e he' =>
        .inr (hcross v (List.mem_map_of_mem hvc) e.2 (List.mem_map_of_mem he'))
      exact absurd (hvisiting.bits_eq huc hvc ▸ huv) (not_leftOf_self v)

/-- Settles O34: the traversal's error is the error of BCODES. -/
theorem bcodesRepeatedSymbol : Obligations.BcodesRepeatedSymbol := by
  rintro s p f x v herr hT hv hp ⟨u, huv, hu⟩ hfirst
  have hc := codesOf_of_repeated hT hv hp huv hu hfirst
  rw [exec_bcodes, command_of_no_err herr]
  rcases bcodesBody_cases (accept 0x3 s) with ⟨q, hq, -⟩ | ⟨_, _, -, he, hbody⟩ | ⟨d, -, hd, -⟩
  · cases (treeFault_eq_none_iff.2 hT).symm.trans hq
  · cases hc.symm.trans he
    rw [hbody]
    rfl
  · cases hc.symm.trans hd

end Sys2Proof
end

section
/-! PROOF. The loop of ENCODE over the symbols of TEXT (R160 to R162). -/

namespace Sys2Proof.Machine

/-- A code map whose entries agree with `codeOf` looks a symbol with an entry up as `codeOf` does (R38). -/
theorem lookupCode_of_coded {code : List CodeEntry} {codeOf : Symbol → List Bool} {x : Symbol}
    (hcode : ∀ e ∈ code, e.bits = codeOf e.sym) (hx : ∃ e ∈ code, e.sym = x) : lookupCode code x = some (codeOf x) := by
  cases h : lookupCode code x with
  | none =>
    obtain ⟨e, he, hsym⟩ := hx
    exact absurd hsym (lookupCode_none.1 h e he)
  | some c =>
    obtain ⟨e, he, rfl, rfl⟩ := lookupCode_some h
    rw [hcode e he]

/-! ### One symbol -/

theorem encodeFrom_uncoded {cap : Nat} {code : List CodeEntry} {x : Symbol} (hx : lookupCode code x = none)
    (rest : List Symbol) (k : Nat) (out : List Bool) :
    encodeFrom cap code (x :: rest) k out = .error (.unknownSymbol, k, x) := by
  simp [encodeFrom, hx]

theorem encodeFrom_overfull {cap : Nat} {code : List CodeEntry} {x : Symbol} {c out : List Bool}
    (hx : lookupCode code x = some c) (hout : out.length ≤ cap) (hfull : cap < (out ++ c).length) (rest : List Symbol)
    (k : Nat) : encodeFrom cap code (x :: rest) k out = .error (.capacity, k, x) := by
  rw [List.length_append] at hfull
  simp [encodeFrom, hx, appendBits_eq hout, hfull.not_ge]

theorem encodeFrom_coded {cap : Nat} {code : List CodeEntry} {x : Symbol} {c out : List Bool}
    (hx : lookupCode code x = some c) (hfits : (out ++ c).length ≤ cap) (rest : List Symbol) (k : Nat) :
    encodeFrom cap code (x :: rest) k out = encodeFrom cap code rest (k + 1) (out ++ c) := by
  rw [List.length_append] at hfits
  simp [encodeFrom, hx, appendBits_eq (Nat.le_of_add_right_le hfits), hfits]

/-! ### Leading symbols whose codes fit -/

/-- The loop passes over symbols that have codes and room, and appends their codes in order. -/
theorem encodeFrom_append {cap : Nat} {code : List CodeEntry} {codeOf : Symbol → List Bool}
    (hcode : ∀ e ∈ code, e.bits = codeOf e.sym) {pre : List Symbol} (hpre : ∀ x ∈ pre, ∃ e ∈ code, e.sym = x)
    {out : List Bool} (hfits : (out ++ pre.flatMap codeOf).length ≤ cap) (rest : List Symbol) (k : Nat) :
    encodeFrom cap code (pre ++ rest) k out = encodeFrom cap code rest (k + pre.length) (out ++ pre.flatMap codeOf) := by
  induction pre generalizing k out with
  | nil => simp
  | cons x xs ih =>
    obtain ⟨hx, hxs⟩ := List.forall_mem_cons.1 hpre
    rw [List.flatMap_cons, ← List.append_assoc] at hfits ⊢
    have hroom : (out ++ codeOf x).length ≤ cap := by
      rw [List.length_append] at hfits
      exact Nat.le_of_add_right_le hfits
    calc encodeFrom cap code (x :: (xs ++ rest)) k out
      _ = encodeFrom cap code (xs ++ rest) (k + 1) (out ++ codeOf x) :=
        encodeFrom_coded (lookupCode_of_coded hcode hx) hroom _ k
      _ = encodeFrom cap code rest (k + 1 + xs.length) (out ++ codeOf x ++ xs.flatMap codeOf) := ih hxs hfits (k + 1)
      _ = encodeFrom cap code rest (k + (x :: xs).length) (out ++ codeOf x ++ xs.flatMap codeOf) := by
        rw [List.length_cons, Nat.add_assoc, Nat.add_comm 1]

theorem encodeFrom_ok {cap : Nat} {code : List CodeEntry} {codeOf : Symbol → List Bool} {t : List Symbol}
    (hcode : ∀ e ∈ code, e.bits = codeOf e.sym) (ht : ∀ x ∈ t, ∃ e ∈ code, e.sym = x)
    (hfits : (t.flatMap codeOf).length ≤ cap) : encodeFrom cap code t 0 [] = .ok (t.flatMap codeOf) := by
  simpa [encodeFrom] using encodeFrom_append hcode ht (out := []) hfits [] 0

/-- The loop reaches index k with the codes of the symbols before it. -/
theorem encodeFrom_reaches {cap k : Nat} {code : List CodeEntry} {codeOf : Symbol → List Bool} {t : List Symbol}
    {x : Symbol} (hcode : ∀ e ∈ code, e.bits = codeOf e.sym) (hx : t[k]? = some x)
    (hbefore : ∀ y ∈ t.take k, ∃ e ∈ code, e.sym = y) (hfits : ((t.take k).flatMap codeOf).length ≤ cap) :
    encodeFrom cap code t 0 [] = encodeFrom cap code (x :: t.drop (k + 1)) k ((t.take k).flatMap codeOf) := by
  obtain ⟨hk, rfl⟩ := List.getElem?_eq_some_iff.1 hx
  have hsplit : t.take k ++ t[k] :: t.drop (k + 1) = t := by
    rw [← List.drop_eq_getElem_cons hk, List.take_append_drop]
  have hpass := encodeFrom_append hcode hbefore (out := []) hfits (t[k] :: t.drop (k + 1)) 0
  rwa [hsplit, List.length_take_of_le hk.le, Nat.zero_add, List.nil_append] at hpass

end Sys2Proof.Machine
end

section
/-! PROOF. O35, O36: ENCODE by the result of its loop (R160 to R163, R233). -/

namespace Sys2Proof

open Machine

theorem exec_encode_ok {s : State} (herr : s.err = false) {b : List Bool}
    (hb : encodeFrom s.cfg.maxBits s.code s.text 0 [] = .ok b) :
    exec .encode s = .next (completed { s with bits := b }) := by
  rw [exec_encode, command_of_no_err herr]
  rcases encodeBody_cases (accept 0x4 s) with ⟨e, k, x, he, -⟩ | ⟨c, hc, hbody⟩
  · cases hb.symm.trans he
  · cases hb.symm.trans hc
    rw [hbody]
    rfl

theorem exec_encode_error {s : State} (herr : s.err = false) {e : ErrCode} {k : Nat} {x : Symbol}
    (he : encodeFrom s.cfg.maxBits s.code s.text 0 [] = .error (e, k, x)) :
    exec .encode s = .next (commandError e (BitVec.ofNat 32 k) (x.setWidth 32) 0x4 0 { s with bits := [] }) := by
  rw [exec_encode, command_of_no_err herr]
  rcases encodeBody_cases (accept 0x4 s) with ⟨_, _, _, he', hbody⟩ | ⟨c, hc, -⟩
  · cases he.symm.trans he'
    rw [hbody]
    rfl
  · cases he.symm.trans hc

/-- Settles O35: the loop passes over the whole text. -/
theorem encodeConcatenatesCodes : Obligations.EncodeConcatenatesCodes :=
  fun _ _ herr hcode htext hfits => exec_encode_ok herr (encodeFrom_ok hcode htext hfits)

/-- Settles O36: the loop reaches index k, and its symbol has no code or one that does not fit. -/
theorem encodeErrors : Obligations.EncodeErrors := by
  intro s codeOf k x herr hcode hx hbefore hfits
  have hreach := encodeFrom_reaches hcode hx hbefore hfits
  refine ⟨fun hnone => ?unknown, fun hcoded hfull => ?capacity⟩
  case unknown =>
    exact exec_encode_error herr (hreach.trans (encodeFrom_uncoded (lookupCode_none.2 hnone) _ k _))
  case capacity =>
    rw [List.take_add_one, hx, List.flatMap_append, Option.toList_some, List.flatMap_singleton] at hfull
    exact exec_encode_error herr
      (hreach.trans (encodeFrom_overfull (lookupCode_of_coded hcode hcoded) hfits hfull _ k))

end Sys2Proof
end

section
/-! PROOF. The loop of DECODE along the paths of a tree (R173 to R176). -/

namespace Sys2Proof.Machine

/-! ### Paths downwards -/

/-- Every edge of a tree leads to a smaller index (R140 (b)). -/
theorem follow_add_length_le {nodes : List NodeRec} (hT : TreeOK nodes) {w : List Bool} {p q : Nat}
    (h : follow nodes p w = some q) : q + w.length ≤ p := by
  induction w generalizing p with
  | nil =>
    cases h
    exact le_rfl
  | cons b w ih =>
    obtain ⟨f, l, r, hp, hq⟩ := follow_cons h
    obtain ⟨hl, hr, -⟩ := hT.2.1 p f l r hp
    have hchild : childOn nodes p b < p := by
      rw [childOn_internal hp]
      cases b
      · exact hl
      · exact hr
    have hle := ih hq
    rw [List.length_cons]
    omega

/-- The only way from the root back to it is the empty one. -/
theorem follow_root_ne_iff {nodes : List NodeRec} (hT : TreeOK nodes) {w : List Bool} {q : Nat}
    (h : follow nodes (rootOf nodes) w = some q) : q ≠ rootOf nodes ↔ w ≠ [] := by
  refine not_congr ⟨fun hq => ?_, fun hw => ?_⟩
  · have hle := follow_add_length_le hT h
    exact List.eq_nil_of_length_eq_zero (by omega)
  · subst hw
    exact (Option.some.inj h).symm

/-- One edge more below an internal record. -/
theorem follow_concat {nodes : List NodeRec} {w : List Bool} {p q f l r : Nat} (h : follow nodes p w = some q)
    (hq : nodes[q]? = some (.internal f l r)) (b : Bool) : follow nodes p (w ++ [b]) = some (childOn nodes q b) := by
  rw [follow_append, h, childOn_internal hq]
  simp [follow, hq]

/-- A way that ends at an internal record starts at one. -/
theorem internal_of_follow_internal {nodes : List NodeRec} {w : List Bool} {p q f l r : Nat}
    (h : follow nodes p w = some q) (hq : nodes[q]? = some (.internal f l r)) :
    ∃ f' l' r' : Nat, nodes[p]? = some (.internal f' l' r') := by
  cases w with
  | nil =>
    cases h
    exact ⟨f, l, r, hq⟩
  | cons b w =>
    obtain ⟨f', l', r', hp, -⟩ := follow_cons h
    exact ⟨f', l', r', hp⟩

/-- No bits, or a code cut short: in both cases the cursor stands on an internal record (R173, R175). -/
theorem endsAtInternal_iff {nodes : List NodeRec} (hroot : RootInternal nodes) {w : List Bool} :
    (w = [] ∨ EndsInside nodes w) ↔
      ∃ q f l r : Nat, follow nodes (rootOf nodes) w = some q ∧ nodes[q]? = some (.internal f l r) := by
  constructor
  · rintro (rfl | ⟨-, hinside⟩)
    · obtain ⟨f, l, r, hroot⟩ := hroot
      exact ⟨_, f, l, r, rfl, hroot⟩
    · exact hinside
  · intro hinternal
    by_cases hw : w = []
    · exact .inl hw
    · exact .inr ⟨hw, hinternal⟩

/-- A code ends with the edge from an internal record to its leaf. -/
theorem leadsTo_last_edge {nodes : List NodeRec} (hroot : RootInternal nodes) {path : List Bool} {x : Symbol}
    (h : LeadsTo nodes path x) :
    ∃ w b q f l r g, path = w ++ [b] ∧ follow nodes (rootOf nodes) w = some q ∧
      nodes[q]? = some (.internal f l r) ∧ nodes[childOn nodes q b]? = some (.leaf x g) := by
  obtain ⟨p, g, hp, hleaf⟩ := h
  rcases List.eq_nil_or_concat path with rfl | ⟨w, b, rfl⟩
  · obtain ⟨f, l, r, hroot⟩ := hroot
    cases hp
    cases hroot.symm.trans hleaf
  · rw [List.concat_eq_append, follow_append] at hp
    obtain ⟨q, hq, hedge⟩ := Option.bind_eq_some_iff.1 hp
    obtain ⟨f, l, r, hinternal, hend⟩ := follow_cons hedge
    cases hend
    exact ⟨w, b, q, f, l, r, g, by simp, hq, hinternal, hleaf⟩

/-! ### One bit -/

section Bit

variable {nodes : List NodeRec} {cap root cur : Nat} {b : Bool} {out : List Symbol}

theorem decodeFrom_to_internal {f l r : Nat} (h : nodes[childOn nodes cur b]? = some (.internal f l r)) (rest : List Bool)
    (k : Nat) :
    decodeFrom nodes cap root (b :: rest) k cur out = decodeFrom nodes cap root rest (k + 1) (childOn nodes cur b) out := by
  simp [decodeFrom, h]

theorem decodeFrom_to_leaf {x : Symbol} {f : Nat} (h : nodes[childOn nodes cur b]? = some (.leaf x f))
    (hroom : out.length ≠ cap) (rest : List Bool) (k : Nat) :
    decodeFrom nodes cap root (b :: rest) k cur out = decodeFrom nodes cap root rest (k + 1) root (out ++ [x]) := by
  simp [decodeFrom, h, appendTo_of_ne hroom]

theorem decodeFrom_overfull {x : Symbol} {f : Nat} (h : nodes[childOn nodes cur b]? = some (.leaf x f))
    (hfull : out.length = cap) (rest : List Bool) (k : Nat) :
    decodeFrom nodes cap root (b :: rest) k cur out = .error (.capacity, word k, x.setWidth 32) := by
  simp [decodeFrom, h, appendTo_none.2 hfull]

theorem decodeLeaf_overfull (x : Symbol) (hfull : out.length = cap) (rest : List Bool) (k : Nat) :
    decodeLeaf x cap (false :: rest) k out = .error (.capacity, word k, x.setWidth 32) := by
  simp [decodeLeaf, appendTo_none.2 hfull]

end Bit

/-! ### Whole codes -/

/-- Inside a code the loop only moves the cursor. -/
theorem decodeFrom_inside {nodes : List NodeRec} {cap root : Nat} {out : List Symbol} {w : List Bool} {p q f l r : Nat}
    (h : follow nodes p w = some q) (hq : nodes[q]? = some (.internal f l r)) (rest : List Bool) (k : Nat) :
    decodeFrom nodes cap root (w ++ rest) k p out = decodeFrom nodes cap root rest (k + w.length) q out := by
  induction w generalizing p k with
  | nil =>
    cases h
    rfl
  | cons b w ih =>
    obtain ⟨-, -, -, -, hw⟩ := follow_cons h
    obtain ⟨f', l', r', hchild⟩ := internal_of_follow_internal hw hq
    rw [List.cons_append, decodeFrom_to_internal hchild, ih hw, List.length_cons, Nat.add_assoc, Nat.add_comm 1]

/-- A code with room for its symbol brings the cursor back to the root. -/
theorem decodeFrom_code {nodes : List NodeRec} (hroot : RootInternal nodes) {path : List Bool} {x : Symbol}
    (h : LeadsTo nodes path x) {cap : Nat} {out : List Symbol} (hroom : out.length ≠ cap) (rest : List Bool) (k : Nat) :
    decodeFrom nodes cap (rootOf nodes) (path ++ rest) k (rootOf nodes) out =
      decodeFrom nodes cap (rootOf nodes) rest (k + path.length) (rootOf nodes) (out ++ [x]) := by
  obtain ⟨w, b, q, f, l, r, g, rfl, hw, hq, hleaf⟩ := leadsTo_last_edge hroot h
  rw [List.append_assoc, decodeFrom_inside hw hq, List.singleton_append, decodeFrom_to_leaf hleaf hroom,
    List.length_append, List.length_singleton, Nat.add_assoc]

/-- A code without room for its symbol stops the loop at its last bit (R176). -/
theorem decodeFrom_code_overfull {nodes : List NodeRec} (hroot : RootInternal nodes) {path : List Bool} {x : Symbol}
    (h : LeadsTo nodes path x) {cap : Nat} {out : List Symbol} (hfull : out.length = cap) (rest : List Bool) (k : Nat) :
    decodeFrom nodes cap (rootOf nodes) (path ++ rest) k (rootOf nodes) out =
      .error (.capacity, word (k + path.length - 1), x.setWidth 32) := by
  obtain ⟨w, b, q, f, l, r, g, rfl, hw, hq, hleaf⟩ := leadsTo_last_edge hroot h
  rw [List.append_assoc, decodeFrom_inside hw hq, List.singleton_append, decodeFrom_overfull hleaf hfull,
    List.length_append, List.length_singleton, ← Nat.add_assoc, Nat.add_sub_cancel]

/-- The loop passes over codes whose symbols fit, and emits the symbols in order. -/
theorem decodeFrom_codes {nodes : List NodeRec} (hroot : RootInternal nodes) {cap : Nat} {paths : List (List Bool)}
    {syms : List Symbol} (h : List.Forall₂ (LeadsTo nodes) paths syms) {out : List Symbol}
    (hfits : (out ++ syms).length ≤ cap) (rest : List Bool) (k : Nat) :
    decodeFrom nodes cap (rootOf nodes) (paths.flatten ++ rest) k (rootOf nodes) out =
      decodeFrom nodes cap (rootOf nodes) rest (k + paths.flatten.length) (rootOf nodes) (out ++ syms) := by
  induction h generalizing out k with
  | nil => simp
  | @cons path x paths syms hpath _ ih =>
    have hroom : out.length ≠ cap := by
      rw [List.length_append, List.length_cons] at hfits
      omega
    rw [List.append_cons] at hfits ⊢
    rw [List.flatten_cons, List.append_assoc, decodeFrom_code hroot hpath hroom, ih hfits, List.length_append,
      Nat.add_assoc]

/-- The loop passes over bits 0 under a single-leaf tree while its symbol fits (R174). -/
theorem decodeLeaf_zeros (x : Symbol) {cap n : Nat} {out : List Symbol} (hfits : out.length + n ≤ cap) (rest : List Bool)
    (k : Nat) :
    decodeLeaf x cap (List.replicate n false ++ rest) k out =
      decodeLeaf x cap rest (k + n) (out ++ List.replicate n x) := by
  induction n generalizing k out with
  | zero => simp
  | succ n ih =>
    have hrest : (out ++ [x]).length + n ≤ cap := by
      rw [List.length_append, List.length_singleton]
      omega
    rw [List.replicate_succ, List.cons_append, decodeLeaf_false (by omega), ih hrest, List.replicate_succ,
      List.append_assoc, List.singleton_append, Nat.add_assoc, Nat.add_comm 1]

/-! ### The decoder by the kind of the root -/

theorem decodeBits_of_rootInternal {nodes : List NodeRec} (h : RootInternal nodes) (cap : Nat) (bits : List Bool) :
    decodeBits nodes cap bits = (decodeFrom nodes cap (rootOf nodes) bits 0 (rootOf nodes) []).map
      fun r => (r.1, decide (r.2 ≠ rootOf nodes)) := by
  obtain ⟨f, l, r, hroot⟩ := h
  rw [rootOf] at hroot
  simp only [decodeBits, hroot, rootOf]
  cases decodeFrom nodes cap (nodes.length - 1) bits 0 (nodes.length - 1) [] <;> rfl

theorem decodeBits_of_leaf (x : Symbol) (f cap : Nat) (bits : List Bool) :
    decodeBits [.leaf x f] cap bits = (decodeLeaf x cap bits 0 []).map fun t => (t, false) := by
  cases hloop : decodeLeaf x cap bits 0 [] <;> simp [decodeBits, hloop, Except.map]

/-- Codes that fit and at most one cut code after them decode to the symbols of the codes (R173, R175). -/
theorem decodeBits_codes {nodes : List NodeRec} (hT : TreeOK nodes) (hroot : RootInternal nodes) {cap : Nat}
    {paths : List (List Bool)} {syms : List Symbol} {last : List Bool} (h : List.Forall₂ (LeadsTo nodes) paths syms)
    (hfits : syms.length ≤ cap) (hlast : last = [] ∨ EndsInside nodes last) :
    decodeBits nodes cap (paths.flatten ++ last) = .ok (syms, decide (last ≠ [])) := by
  obtain ⟨q, f, l, r, hw, hq⟩ := (endsAtInternal_iff hroot).1 hlast
  have hloop : decodeFrom nodes cap (rootOf nodes) (paths.flatten ++ last) 0 (rootOf nodes) [] = .ok (syms, q) := by
    have hcut := decodeFrom_inside (cap := cap) (root := rootOf nodes) (out := syms) hw hq [] (0 + paths.flatten.length)
    rw [List.append_nil] at hcut
    rw [decodeFrom_codes hroot h hfits, List.nil_append, hcut, decodeFrom]
  rw [decodeBits_of_rootInternal hroot, hloop, ← decide_eq_decide.2 (follow_root_ne_iff hT hw)]
  rfl

/-- Codes that fill DTEXT and one more: the error at its last bit (R176). -/
theorem decodeBits_overfull {nodes : List NodeRec} (hroot : RootInternal nodes) {cap : Nat} {paths : List (List Bool)}
    {syms : List Symbol} {last : List Bool} {x : Symbol} (h : List.Forall₂ (LeadsTo nodes) paths syms)
    (hfull : syms.length = cap) (hlast : LeadsTo nodes last x) (more : List Bool) :
    decodeBits nodes cap (paths.flatten ++ last ++ more) =
      .error (.capacity, word ((paths.flatten ++ last).length - 1), x.setWidth 32) := by
  rw [decodeBits_of_rootInternal hroot, List.append_assoc, decodeFrom_codes hroot h hfull.le, List.nil_append,
    decodeFrom_code_overfull hroot hlast hfull, Nat.zero_add, List.length_append]
  rfl

/-- Bits 0 that fit under a single-leaf tree (R174). -/
theorem decodeBits_zeros (x : Symbol) (f : Nat) {cap n : Nat} (hfits : n ≤ cap) :
    decodeBits [.leaf x f] cap (List.replicate n false) = .ok (List.replicate n x, false) := by
  have hloop := decodeLeaf_zeros x (out := []) (by simpa using hfits) [] 0
  rw [List.append_nil, List.nil_append] at hloop
  rw [decodeBits_of_leaf, hloop]
  rfl

/-! ### Every bit string is codes and at most one cut code -/

/-- One bit more either completes a code or goes one edge deeper. -/
theorem leadsTo_or_endsInside_concat {nodes : List NodeRec} (hT : TreeOK nodes) (hroot : RootInternal nodes) {last : List Bool}
    (hlast : last = [] ∨ EndsInside nodes last) (b : Bool) :
    (∃ x, LeadsTo nodes (last ++ [b]) x) ∨ EndsInside nodes (last ++ [b]) := by
  obtain ⟨q, f, l, r, hw, hq⟩ := (endsAtInternal_iff hroot).1 hlast
  have hway := follow_concat hw hq b
  have hlt : childOn nodes q b < nodes.length := by
    have hlen := hT.1
    have hle := follow_add_length_le hT hway
    unfold rootOf at hle
    omega
  obtain ⟨n, hn⟩ : ∃ n, nodes[childOn nodes q b]? = some n := ⟨_, List.getElem?_eq_getElem hlt⟩
  cases n with
  | leaf x g => exact .inl ⟨x, _, g, hway, hn⟩
  | internal f' l' r' => exact .inr ⟨by simp, _, f', l', r', hway, hn⟩

theorem exists_codes {nodes : List NodeRec} (hT : TreeOK nodes) (hroot : RootInternal nodes) (bits : List Bool) :
    ∃ (paths : List (List Bool)) (syms : List Symbol) (last : List Bool),
      bits = paths.flatten ++ last ∧ List.Forall₂ (LeadsTo nodes) paths syms ∧ (last = [] ∨ EndsInside nodes last) := by
  induction bits using List.reverseRecOn with
  | nil => exact ⟨[], [], [], rfl, .nil, .inl rfl⟩
  | append_singleton bits b ih =>
    obtain ⟨paths, syms, last, rfl, hpaths, hlast⟩ := ih
    rcases leadsTo_or_endsInside_concat hT hroot hlast b with ⟨x, hx⟩ | hinside
    · exact ⟨paths ++ [last ++ [b]], syms ++ [x], [], by simp, List.rel_append hpaths (.cons hx .nil), .inl rfl⟩
    · exact ⟨paths, syms, last ++ [b], by simp, hpaths, .inr hinside⟩

end Sys2Proof.Machine
end

section
/-! PROOF. O32, O37, O38, O39: DECODE by the result of its loop (R171 to R176). -/

namespace Sys2Proof

open Machine

/-! ### How DECODE ends -/

theorem exec_decode_nil {s : State} (herr : s.err = false) (hbits : s.bits = []) :
    exec .decode s = .next (completed { s with dtext := [], decPartial := false }) := by
  rw [exec_decode, command_of_no_err herr]
  rcases decodeBody_cases (accept 0x5 s) with ⟨-, hbody⟩ | ⟨_, hne, -⟩ | ⟨_, _, _, hne, -⟩ | ⟨_, _, hne, -⟩
  · rw [hbody]
    rfl
  all_goals exact absurd hbits hne

theorem exec_decode_badTree {s : State} (herr : s.err = false) (hbits : s.bits ≠ []) {q : Nat}
    (hq : treeFault s.node = some q) :
    exec .decode s = .next (commandError .badTree (BitVec.ofNat 32 q) (BitVec.ofNat 32 s.node.length) 0x5 0
      { s with dtext := [], decPartial := false }) := by
  rw [exec_decode, command_of_no_err herr]
  rcases decodeBody_cases (accept 0x5 s) with
    ⟨hnil, -⟩ | ⟨_, -, hq', hbody⟩ | ⟨_, _, _, -, hnone, -⟩ | ⟨_, _, -, hnone, -⟩
  · exact absurd hnil hbits
  · cases hq.symm.trans hq'
    rw [hbody]
    rfl
  all_goals cases hq.symm.trans hnone

theorem exec_bcodes_badTree {s : State} (herr : s.err = false) {q : Nat} (hq : treeFault s.node = some q) :
    exec .bcodes s = .next (commandError .badTree (BitVec.ofNat 32 q) (BitVec.ofNat 32 s.node.length) 0x3 0
      { s with code := [] }) := by
  rw [exec_bcodes, command_of_no_err herr]
  rcases bcodesBody_cases (accept 0x3 s) with ⟨_, hq', hbody⟩ | ⟨_, _, hnone, -⟩ | ⟨_, hnone, -⟩
  · cases hq.symm.trans hq'
    rw [hbody]
    rfl
  all_goals cases hq.symm.trans hnone

/-- On a tree DECODE with bits ends as its loop does. -/
theorem exec_decode_tree {s : State} (herr : s.err = false) (hT : TreeOK s.node) (hbits : s.bits ≠ []) :
    (∃ e i0 i1, decodeBits s.node s.cfg.maxText s.bits = .error (e, i0, i1) ∧
      exec .decode s = .next (commandError e i0 i1 0x5 0 { s with dtext := [], decPartial := false })) ∨
    ∃ d p, decodeBits s.node s.cfg.maxText s.bits = .ok (d, p) ∧
      exec .decode s = .next (completed { s with dtext := d, decPartial := p }) := by
  rw [exec_decode, command_of_no_err herr]
  rcases decodeBody_cases (accept 0x5 s) with
    ⟨hnil, -⟩ | ⟨_, -, hq, -⟩ | ⟨e, i0, i1, -, -, hloop, hbody⟩ | ⟨d, p, -, -, hloop, hbody⟩
  · exact absurd hnil hbits
  · cases (treeFault_eq_none_iff.2 hT).symm.trans hq
  · exact .inl ⟨e, i0, i1, hloop, by rw [hbody]; rfl⟩
  · exact .inr ⟨d, p, hloop, by rw [hbody]; rfl⟩

/-- The loop on no bits answers what R171 asks for. -/
theorem decodeBits_nil (nodes : List NodeRec) (cap : Nat) : decodeBits nodes cap [] = .ok ([], false) := by
  simp only [decodeBits, decodeLeaf, decodeFrom]
  split <;> simp

theorem exec_decode_ok {s : State} (herr : s.err = false) (hT : TreeOK s.node) {d : List Symbol} {p : Bool}
    (h : decodeBits s.node s.cfg.maxText s.bits = .ok (d, p)) :
    exec .decode s = .next (completed { s with dtext := d, decPartial := p }) := by
  by_cases hbits : s.bits = []
  · rw [hbits] at h
    cases (decodeBits_nil _ _).symm.trans h
    exact exec_decode_nil herr hbits
  · rcases exec_decode_tree herr hT hbits with ⟨_, _, _, he, -⟩ | ⟨d', p', hd, hexec⟩
    · cases h.symm.trans he
    · cases h.symm.trans hd
      exact hexec

theorem exec_decode_error {s : State} (herr : s.err = false) (hT : TreeOK s.node) {e : ErrCode} {i0 i1 : Word}
    (h : decodeBits s.node s.cfg.maxText s.bits = .error (e, i0, i1)) :
    exec .decode s = .next (commandError e i0 i1 0x5 0 { s with dtext := [], decPartial := false }) := by
  have hbits : s.bits ≠ [] := fun hnil => by
    rw [hnil] at h
    cases (decodeBits_nil _ _).symm.trans h
  rcases exec_decode_tree herr hT hbits with ⟨_, _, _, he, hexec⟩ | ⟨_, _, hd, -⟩
  · cases h.symm.trans he
    exact hexec
  · cases h.symm.trans hd

/-- Settles O37: the check for no bits comes before any look at NODE. -/
theorem decodeNoBits : Obligations.DecodeNoBits := fun _ => exec_decode_nil

/-- Settles O32: the tree check of both commands names the witness. -/
theorem badTreeRaises : Obligations.BadTreeRaises := fun _ _ herr hq =>
  ⟨exec_bcodes_badTree herr (treeFault_eq_some_iff.2 hq), fun hbits =>
    exec_decode_badTree herr hbits (treeFault_eq_some_iff.2 hq)⟩

/-! ### A root with children -/

/-- Settles O38: the bits split into codes, over which the loop passes. -/
theorem decodeFollowsPaths : Obligations.DecodeFollowsPaths := by
  refine ⟨fun _ => exists_codes, fun s paths syms last herr hT hroot hpaths hfits => ⟨fun hbits hlast => ?_,
    fun x more hlast hbits hfull => ?_⟩⟩
  · exact exec_decode_ok herr hT (hbits ▸ decodeBits_codes hT hroot hpaths hfits hlast)
  · exact exec_decode_error herr hT (hbits ▸ decodeBits_overfull hroot hpaths hfull hlast more)

/-! ### A single leaf -/

/-- A leaf alone is a tree. -/
theorem treeOK_leaf (x : Symbol) (f : Nat) : TreeOK [.leaf x f] :=
  treeFault_eq_none_iff.1 rfl

/-- Settles O39: the loop passes over the bits 0 that fit; the next bit decides. -/
theorem decodeSingleLeaf : Obligations.DecodeSingleLeaf := by
  intro s x f herr hnode
  have hT : TreeOK s.node := hnode ▸ treeOK_leaf x f
  refine ⟨fun n hbits hfits => ?zeros, fun n more hbits hfits => ?one, fun more hbits => ?overfull⟩
  case zeros =>
    refine exec_decode_ok herr hT ?_
    rw [hnode, hbits, decodeBits_zeros x f hfits]
  case one =>
    refine exec_decode_error herr hT ?_
    rw [hnode, hbits, decodeBits_of_leaf, decodeLeaf_zeros x (by simpa using hfits), decodeLeaf_true, Nat.zero_add]
    rfl
  case overfull =>
    refine exec_decode_error herr hT ?_
    rw [hnode, hbits, List.replicate_succ', List.append_assoc, decodeBits_of_leaf, decodeLeaf_zeros x (by simp),
      List.singleton_append, decodeLeaf_overfull x (by simp), Nat.zero_add]
    rfl

end Sys2Proof
end

section
/-! PROOF. O40: DECODE undoes ENCODE (R177). ENCODE writes one code of CODE for each symbol, and BCODES makes each code the path
to its symbol. -/

namespace Sys2Proof

open Machine

/-- What ENCODE appended: for each symbol the code that CODE has for it. -/
theorem encodeFrom_eq_ok {cap : Nat} {code : List CodeEntry} {t : List Symbol} {k : Nat} {out b : List Bool}
    (hout : out.length ≤ cap) (h : encodeFrom cap code t k out = .ok b) :
    ∃ paths : List (List Bool), b = out ++ paths.flatten ∧
      List.Forall₂ (fun c x => CodeEntry.mk x c ∈ code) paths t := by
  induction t generalizing k out with
  | nil =>
    cases h
    exact ⟨[], by simp, .nil⟩
  | cons x t ih =>
    cases hx : lookupCode code x with
    | none => cases (encodeFrom_uncoded hx t k out).symm.trans h
    | some c =>
      by_cases hfits : (out ++ c).length ≤ cap
      · rw [encodeFrom_coded hx hfits] at h
        obtain ⟨paths, rfl, hpaths⟩ := ih hfits h
        obtain ⟨e, he, rfl, rfl⟩ := lookupCode_some hx
        exact ⟨e.bits :: paths, by simp, .cons he hpaths⟩
      · cases (encodeFrom_overfull hx hout (Nat.lt_of_not_le hfits) t k).symm.trans h

/-- An ENCODE that left ERR = 0 wrote the bits of its loop. -/
theorem exec_encode_inv {s t : State} (herr : s.err = false) (h : exec .encode s = .next t) (hok : t.err = false) :
    ∃ b, encodeFrom s.cfg.maxBits s.code s.text 0 [] = .ok b ∧ t = completed { s with bits := b } := by
  cases hb : encodeFrom s.cfg.maxBits s.code s.text 0 [] with
  | error e =>
    cases (exec_encode_error herr hb).symm.trans h
    cases hok
  | ok b =>
    cases (exec_encode_ok herr hb).symm.trans h
    exact ⟨b, rfl, rfl⟩

/-- A BCODES that left ERR = 0 found a tree, kept it, and wrote its codes. -/
theorem exec_bcodes_inv {u r : State} (herr : u.err = false) (h : exec .bcodes u = .next r) (hok : r.err = false) :
    TreeOK r.node ∧ codesOf r.node = .ok r.code := by
  rw [exec_bcodes, command_of_no_err herr] at h
  rcases bcodesBody_cases (accept 0x3 u) with ⟨_, -, hbody⟩ | ⟨_, _, -, -, hbody⟩ | ⟨c, htree, hc, hbody⟩ <;>
    rw [hbody] at h <;> cases h
  case inl => cases hok
  case inr.inl => cases hok
  case inr.inr => exact ⟨treeFault_eq_none_iff.1 htree, hc⟩

/-- Every code of a tree with a root that has children is the path to its symbol (R142). -/
theorem codesOf_leadsTo {nodes : List NodeRec} (hT : TreeOK nodes) (hroot : RootInternal nodes) {c : List CodeEntry}
    (hc : codesOf nodes = .ok c) : ∀ e ∈ c, LeadsTo nodes e.bits e.sym := by
  rcases codesOf_cases hT hroot with ⟨d, hd, -, hvisiting⟩ | ⟨_, _, _, _, _, _, _, he, -⟩
  · cases hc.symm.trans hd
    exact hvisiting.leads
  · cases hc.symm.trans he

/-- Under the only code of a single-leaf tree a text is one symbol over and over, and its bits are as many bits 0 (R143). -/
theorem forall₂_single_code {x : Symbol} {paths : List (List Bool)} {t : List Symbol}
    (h : List.Forall₂ (fun c y => CodeEntry.mk y c ∈ [CodeEntry.mk x [false]]) paths t) :
    t = List.replicate t.length x ∧ paths.flatten = List.replicate t.length false := by
  induction h with
  | nil => exact ⟨rfl, rfl⟩
  | cons hc _ ih =>
    obtain ⟨ht, hbits⟩ := ih
    cases List.mem_singleton.1 hc
    exact ⟨congrArg (x :: ·) ht, congrArg (false :: ·) hbits⟩

/-- Codes of a tree, one after the other, decode to their symbols. -/
theorem decodeBits_of_codesOf {nodes : List NodeRec} (hT : TreeOK nodes) {code : List CodeEntry}
    (hcode : codesOf nodes = .ok code) {cap : Nat} {paths : List (List Bool)} {t : List Symbol}
    (h : List.Forall₂ (fun c x => CodeEntry.mk x c ∈ code) paths t) (hfits : t.length ≤ cap) :
    decodeBits nodes cap paths.flatten = .ok (t, false) := by
  rcases Nat.lt_or_eq_of_le hT.1 with hmany | hone
  · have hroot := rootInternal_of_treeOK hT hmany
    have hpaths : List.Forall₂ (LeadsTo nodes) paths t := h.imp fun _ _ => codesOf_leadsTo hT hroot hcode _
    simpa using decodeBits_codes hT hroot hpaths hfits (.inl rfl)
  · obtain ⟨x, f, rfl⟩ := eq_leaf_of_treeOK hT hone.symm
    cases hcode
    obtain ⟨ht, hbits⟩ := forall₂_single_code h
    rw [hbits, decodeBits_zeros x f hfits, ← ht]

/-- Settles O40: ENCODE wrote codes of the tree, and these decode to their symbols. -/
theorem decodeInvertsEncode : Obligations.DecodeInvertsEncode := by
  intro u r s t hu hbcodes hr hnode hcode hs htext hencode ht
  obtain ⟨hT, hcodes⟩ := exec_bcodes_inv hu hbcodes hr
  rw [← hnode] at hT hcodes
  rw [← hcode] at hcodes
  obtain ⟨b, hb, rfl⟩ := exec_encode_inv hs hencode ht
  obtain ⟨paths, rfl, hpaths⟩ := encodeFrom_eq_ok (Nat.zero_le _) hb
  exact exec_decode_ok ht hT (decodeBits_of_codesOf hT hcodes hpaths htext)

end Sys2Proof
end

section
/-! PROOF. The packer's functions on bits and bytes: where each bit stands, and that they undo each other (R185 to R192). -/

namespace Sys2Proof.Machine

/-! ### Packing -/

/-- A packed byte is the number whose digits are its chunk of bits (R186). -/
theorem packByte_eq_digitSum (bits : List Bool) (c : Nat) :
    packByte bits c = BitVec.ofNat 8 (digitSum (fun t => bits.getD (8 * c + t) false) 8) := by
  have hterm (t : Nat) : (bitAt bits (8 * c + t)).toNat * 2 ^ (7 - t) =
      if bits.getD (8 * c + t) false then 2 ^ (8 - 1 - t) else 0 := by
    rw [bitAt]
    cases bits.getD (8 * c + t) false <;> simp
  simp only [packByte, digitSum, hterm]

theorem packByte_getLsbD (bits : List Bool) (c : Nat) {j : Nat} (hj : j < 8) :
    (packByte bits c).getLsbD (7 - j) = bits.getD (8 * c + j) false := by
  rw [packByte_eq_digitSum, BitVec.getLsbD_ofNat, decide_eq_true (by omega), Bool.true_and]
  exact digitSum_testBit _ hj

theorem packBits_getElem? {bits : List Bool} {c : Nat} (hc : c < ceil8 bits.length) :
    (packBits bits)[c]? = some (packByte bits c) := by
  rw [packBits, List.getElem?_map, List.getElem?_range hc, Option.map_some]

/-- Bit k of the string stands at bit 7 − (k mod 8) of byte k / 8; past the string the bits are 0 (R186). -/
theorem packBits_bit {bits : List Bool} {k : Nat} (hk : k < 8 * (packBits bits).length) :
    ((packBits bits).getD (k / 8) 0).getLsbD (7 - k % 8) = bits.getD k false := by
  rw [packBits_length] at hk
  rw [List.getD_eq_getElem?_getD, packBits_getElem? (by omega), Option.getD_some,
    packByte_getLsbD bits _ (Nat.mod_lt k (by decide)), Nat.div_add_mod]

/-! ### Unpacking -/

/-- The bytes before come first, eight bits each; inside a byte bit 7 comes first (R190). -/
theorem unpackBytes_getElem? {bytes : List Byte} {k : Nat} (hk : k < 8 * bytes.length) :
    (unpackBytes bytes)[k]? = some ((bytes.getD (k / 8) 0).getLsbD (7 - k % 8)) := by
  induction bytes generalizing k with
  | nil => simp at hk
  | cons b bytes ih =>
    have hcons : unpackBytes (b :: bytes) = byteBits b ++ unpackBytes bytes := rfl
    rw [hcons]
    by_cases hfirst : k < 8
    · rw [List.getElem?_append_left (by rwa [byteBits_length]), byteBits_getElem? b hfirst, Nat.div_eq_of_lt hfirst,
        Nat.mod_eq_of_lt hfirst, List.getD_cons_zero]
    · obtain ⟨k, rfl⟩ := Nat.exists_eq_add_of_le' (Nat.le_of_not_lt hfirst)
      rw [List.length_cons] at hk
      rw [List.getElem?_append_right (by rw [byteBits_length]; omega), byteBits_length, Nat.add_sub_cancel,
        ih (by omega), Nat.add_div_right k (by decide), Nat.add_mod_right, List.getD_cons_succ]

/-! ### One after the other -/

/-- Unpacking the packed bits gives them back with their padding (R192). -/
theorem unpackBytes_packBits (bits : List Bool) :
    unpackBytes (packBits bits) = bits ++ List.replicate (8 * ceil8 bits.length - bits.length) false := by
  have hlen : (unpackBytes (packBits bits)).length = 8 * ceil8 bits.length := by
    rw [unpackBytes_length, packBits_length]
  obtain ⟨hle, -⟩ := ceil8_bounds bits.length
  refine List.ext_getElem? fun k => ?_
  by_cases hk : k < 8 * ceil8 bits.length
  · have hbyte : k < 8 * (packBits bits).length := by rwa [packBits_length]
    rw [unpackBytes_getElem? hbyte, packBits_bit hbyte]
    by_cases hin : k < bits.length
    · rw [List.getElem?_append_left hin, List.getElem?_eq_getElem hin, List.getD_eq_getElem _ _ hin]
    · rw [List.getElem?_append_right (by omega), List.getElem?_replicate_of_lt (by omega),
        List.getD_eq_default _ _ (by omega)]
  · rw [List.getElem?_eq_none (by omega), List.getElem?_eq_none (by simp; omega)]

/-- Cut to its length, the padded string is the string (R192). -/
theorem take_unpackBytes_packBits (bits : List Bool) :
    (unpackBytes (packBits bits)).take bits.length = bits := by
  rw [unpackBytes_packBits, List.take_left]

/-- The eight bits that a byte expands to are the chunk it packs from. -/
theorem packByte_unpackBytes {bytes : List Byte} {c : Nat} (hc : c < bytes.length) :
    packByte (unpackBytes bytes) c = bytes[c] := by
  refine BitVec.eq_of_getMsbD_eq fun j hj => ?_
  have hdiv : (8 * c + j) / 8 = c := by omega
  have hmod : (8 * c + j) % 8 = j := by omega
  have hbit : (packByte (unpackBytes bytes) c).getLsbD (7 - j) = bytes[c].getLsbD (7 - j) := by
    rw [packByte_getLsbD _ _ hj, List.getD_eq_getElem?_getD, unpackBytes_getElem? (by omega), Option.getD_some, hdiv,
      hmod, List.getD_eq_getElem _ _ hc]
  simp [BitVec.getMsbD, hbit]

/-- Packing the eight bits of each byte gives the bytes back (R192). -/
theorem packBits_unpackBytes (bytes : List Byte) : packBits (unpackBytes bytes) = bytes := by
  have hceil : ceil8 (unpackBytes bytes).length = bytes.length := by
    rw [unpackBytes_length, ceil8]
    omega
  refine List.ext_getElem (by rw [packBits_length, hceil]) fun c _ hc => ?_
  simp only [packBits, List.getElem_map, List.getElem_range, packByte_unpackBytes hc]

end Sys2Proof.Machine
end

section
/-! PROOF. O41 to O44: PACK, UNPACK and UNPACK.t by what they write (R185 to R192). -/

namespace Sys2Proof

open Machine

/-! ### The three commands -/

theorem exec_pack_of_no_err {s : State} (herr : s.err = false) :
    exec .pack s = .next (completed { s with bytes := packBits s.bits, pkBits := word s.bits.length }) := by
  rw [exec_pack, command_of_no_err herr]
  rfl

theorem exec_unpack_of_no_err {s : State} (herr : s.err = false) :
    exec .unpack s = .next (completed { s with bits := unpackBytes s.bytes }) := by
  rw [exec_unpack, command_of_no_err herr]
  rfl

theorem exec_unpackT_ok {s : State} (herr : s.err = false) (hlen : ceil8 s.pkBits.toNat = s.bytes.length) :
    exec .unpackT s = .next (completed { s with bits := (unpackBytes s.bytes).take s.pkBits.toNat }) := by
  rw [exec_unpackT, command_of_no_err herr]
  rcases unpackTBody_cases (accept 0x7 s) with ⟨hne, -⟩ | ⟨-, hbody⟩
  · exact absurd hlen hne
  · rw [hbody]
    rfl

theorem exec_unpackT_error {s : State} (herr : s.err = false) (hlen : ceil8 s.pkBits.toNat ≠ s.bytes.length) :
    exec .unpackT s = .next (commandError .operand s.pkBits (word s.bytes.length) 0x7 0 { s with bits := [] }) := by
  rw [exec_unpackT, command_of_no_err herr]
  rcases unpackTBody_cases (accept 0x7 s) with ⟨-, hbody⟩ | ⟨heq, -⟩
  · rw [hbody]
    rfl
  · exact absurd heq hlen

/-! ### What they write -/

/-- Settles O41: the byte law is that of the packed bits. -/
theorem packByteLaw : Obligations.PackByteLaw := fun s herr =>
  ⟨packBits s.bits, exec_pack_of_no_err herr, packBits_length s.bits, fun hbits hmax => packBits_length_le hmax hbits,
    fun _ => packBits_bit⟩

/-- Settles O42: the expansion law is that of the unpacked bytes. -/
theorem unpackExpands : Obligations.UnpackExpands := fun s herr =>
  ⟨unpackBytes s.bytes, exec_unpack_of_no_err herr, unpackBytes_length s.bytes, unpackBytes_length_le,
    fun _ hk => unpackBytes_getElem? (unpackBytes_length s.bytes ▸ hk)⟩

/-- Settles O43: a length that passes the check is within the expansion, so the cut leaves exactly that many bits. -/
theorem unpackTruncates : Obligations.UnpackTruncates := by
  refine fun s herr => ⟨fun hlen => ?_, exec_unpackT_error herr⟩
  have hfits : s.pkBits.toNat ≤ 8 * s.bytes.length := hlen ▸ (ceil8_bounds s.pkBits.toNat).1
  have hcut : ((unpackBytes s.bytes).take s.pkBits.toNat).length = s.pkBits.toNat := by
    rw [List.length_take, unpackBytes_length, Nat.min_eq_left hfits]
  refine ⟨_, exec_unpackT_ok herr hlen, hcut, fun k hk => ?_⟩
  rw [hcut] at hk
  rw [List.getElem?_take_of_lt hk, unpackBytes_getElem? (hk.trans_le hfits)]

/-! ### One after the other -/

/-- UNPACK.t finds the bits that were packed into BYTES, when PK_BITS still holds their number (R192). -/
theorem exec_unpackT_packed {t : State} (herr : t.err = false) {bits : List Bool} (hbytes : t.bytes = packBits bits)
    (hpk : t.pkBits.toNat = bits.length) : exec .unpackT t = .next (completed { t with bits := bits }) := by
  have hcheck : ceil8 t.pkBits.toNat = t.bytes.length := by rw [hpk, hbytes, packBits_length]
  rw [exec_unpackT_ok herr hcheck, hbytes, hpk, take_unpackBytes_packBits]

/-- UNPACK finds the bits that were packed into BYTES, and their padding (R192). -/
theorem exec_unpack_packed {t : State} (herr : t.err = false) {bits : List Bool} (hbytes : t.bytes = packBits bits) :
    exec .unpack t = .next (completed
      { t with bits := bits ++ List.replicate (8 * ceil8 bits.length - bits.length) false }) := by
  rw [exec_unpack_of_no_err herr, hbytes, unpackBytes_packBits]

/-- PACK finds the bytes that were unpacked into BITS (R192). -/
theorem exec_pack_unpacked {t : State} (herr : t.err = false) {bytes : List Byte} (hbits : t.bits = unpackBytes bytes) :
    exec .pack t = .next (completed { t with bytes := bytes, pkBits := word (8 * bytes.length) }) := by
  rw [exec_pack_of_no_err herr, hbits, packBits_unpackBytes, unpackBytes_length]

/-- Settles O44: each command finds what the one before it wrote; PK_BITS holds BIT_LEN, as it is below 2^32. -/
theorem packUnpackRoundTrip : Obligations.PackUnpackRoundTrip := by
  intro _ herr hlen
  refine ⟨⟨_, exec_pack_of_no_err herr, herr, ?truncated, ?padded⟩, ⟨_, exec_unpack_of_no_err herr, herr, ?bytes⟩⟩
  -- `by exact`: the state is then fixed by the goal before `herr`, which speaks of the state before the first command
  case truncated => exact exec_unpackT_packed (by exact herr) rfl (word_toNat_of_lt hlen)
  case padded => exact exec_unpack_packed (by exact herr) rfl
  case bytes => exact exec_pack_unpacked (by exact herr) rfl

end Sys2Proof
end

section
/-! PROOF. O45, O46, O47: CMP, STAT and CLR (R200 to R204, R211). -/

namespace Sys2Proof

open Machine

/-! ### CMP -/

theorem exec_cmp_of_no_err {s : State} (herr : s.err = false) :
    exec .cmp s = .next (completed
      { s with verified := decide (s.dtext = s.text), mismatch := s.mismatch || !decide (s.dtext = s.text) }) := by
  rw [exec_cmp, command_of_no_err herr]
  rfl

theorem exec_cmpP_of_no_err {s : State} (herr : s.err = false) :
    exec .cmpP s = .next (completed
      { s with verifiedPk := decide (s.dtext = s.text), mismatch := s.mismatch || !decide (s.dtext = s.text) }) := by
  rw [exec_cmpP, command_of_no_err herr]
  rfl

/-- Settles O45: the comparison is written to the flag, and its negation is added to MISMATCH. -/
theorem cmpReportsByFlag : Obligations.CmpReportsByFlag := by
  intro s herr
  rw [exec_cmp_of_no_err herr, exec_cmpP_of_no_err herr]
  refine ⟨fun heq => ?_, fun hne => ?_⟩
  · simp [heq]
  · simp [hne]

/-! ### STAT -/

theorem exec_stat_of_no_err {s : State} (herr : s.err = false) : exec .stat s = .next (completed (writeStats s)) := by
  rw [exec_stat, command_of_no_err herr]
  rfl

/-- The UTF-8 form of a symbol has one to four bytes (R203). -/
theorem utf8len_bounds (x : Symbol) : 1 ≤ utf8len x ∧ utf8len x ≤ 4 := by
  unfold utf8len
  split_ifs <;> decide

theorem utf8size_bounds (t : List Symbol) : t.length ≤ utf8size t ∧ utf8size t ≤ 4 * t.length := by
  induction t with
  | nil => decide
  | cons x t ih =>
    have hx := utf8len_bounds x
    simp only [utf8size, List.map_cons, List.sum_cons, List.length_cons] at ih ⊢
    omega

theorem utf8size_eq_zero_iff {t : List Symbol} : utf8size t = 0 ↔ t = [] := by
  have h := utf8size_bounds t
  rw [← List.length_eq_zero_iff]
  omega

theorem ratio_of_zero (compressed : Nat) : ratio compressed 0 = (0, 0) := rfl

theorem ratio_of_ne_zero (compressed : Nat) {size : Nat} (h : size ≠ 0) :
    ratio compressed size = (100 * compressed / size, 100 * compressed % size) := if_neg h

/-- What the statistics need of the constraints of R9. -/
theorem Config.stat_bounds_of_wf {c : Config} (h : c.wf = true) :
    4 * c.maxText < 2 ^ 32 ∧ 4 * c.maxInSyms < 2 ^ 32 ∧ 100 * c.maxBytes < 2 ^ 32 ∧ c.maxBits < 2 ^ 32 := by
  simp only [Config.wf, Bool.and_eq_true, decide_eq_true_eq] at h
  omega

/-- The five statistics of buffers within their capacities, without wrap-around (R202 to R204, R9). -/
structure StatsMeasure (s t : State) : Prop where
  aBytes : t.aBytes.toNat = utf8size s.aSym
  bBytes : t.bBytes.toNat = utf8size s.bSym
  textBytes : t.textBytes.toNat = utf8size s.text
  ratio_zero : s.text = [] → t.ratioQ = 0 ∧ t.ratioR = 0
  ratio_law : s.text ≠ [] → 100 * s.bytes.length = t.ratioQ.toNat * t.textBytes.toNat + t.ratioR.toNat ∧
    t.ratioR.toNat < t.textBytes.toNat

theorem writeStats_measure {s : State} (h : Memory.wf s = true) : StatsMeasure s (writeStats s) := by
  obtain ⟨htextCap, hsymCap, hbyteCap, -⟩ := Config.stat_bounds_of_wf (Memory.cfg_wf h)
  obtain ⟨-, ha, hb, -, htext, -, -, -, -, -, hbytes⟩ := (Memory.wf_iff s).1 h
  obtain ⟨haSym, -⟩ := (linesWf_iff _ _ _).1 ha
  obtain ⟨hbSym, -⟩ := (linesWf_iff _ _ _).1 hb
  have haSize := utf8size_bounds s.aSym
  have hbSize := utf8size_bounds s.bSym
  have htSize := utf8size_bounds s.text
  have htWord : (word (utf8size s.text)).toNat = utf8size s.text := word_toNat_of_lt (by omega)
  refine ⟨word_toNat_of_lt (by omega), word_toNat_of_lt (by omega), htWord, fun hnil => ?_, fun hne => ?_⟩
  · rw [writeStats_ratioQ, writeStats_ratioR, utf8size_eq_zero_iff.2 hnil, ratio_of_zero]
    exact ⟨rfl, rfl⟩
  · have hpos : utf8size s.text ≠ 0 := mt utf8size_eq_zero_iff.1 hne
    have hmod := Nat.mod_lt (100 * s.bytes.length) (Nat.pos_of_ne_zero hpos)
    have hdiv := Nat.div_le_self (100 * s.bytes.length) (utf8size s.text)
    rw [writeStats_ratioQ, writeStats_ratioR, writeStats_textBytes, htWord, ratio_of_ne_zero _ hpos,
      word_toNat_of_lt (by omega), word_toNat_of_lt (by omega), Nat.div_add_mod']
    exact ⟨rfl, hmod⟩

/-- Settles O46: the sizes are at most four bytes for each symbol, so nothing wraps. -/
theorem statMeasures : Obligations.StatMeasures := by
  intro s herr hwf
  have h := writeStats_measure hwf
  have hzero : (writeStats s).textBytes.toNat = 0 ↔ s.text = [] := by rw [h.textBytes, utf8size_eq_zero_iff]
  exact ⟨_, _, _, _, _, exec_stat_of_no_err herr, h.aBytes, h.bBytes, h.textBytes, hzero,
    fun ht => h.ratio_zero (hzero.1 ht), fun ht => h.ratio_law (mt hzero.2 ht)⟩

/-! ### CLR -/

/-- While ERR = 1 only CLR is accepted (R97 (1)). -/
theorem exec_of_err {i : Instr} (hi : i ≠ .clr) {s : State} (herr : s.err = true) : exec i s = .next s := by
  cases i with
  | clr => exact absurd rfl hi
  | _ => exact command_of_err herr

/-- Settles O47: CLR is not tested for ERR, every other command is. -/
theorem clrAcknowledges : Obligations.ClrAcknowledges :=
  ⟨exec_clr, fun _ _ herr hi => exec_of_err hi herr⟩

end Sys2Proof
end

section
/-! PROOF. What BTREE, BCODES, ENCODE and DECODE make of one text, each from what the one before it wrote (R130 to R177). -/

namespace Sys2Proof.Machine

/-! ### The tree of a text -/

theorem countFreq_tally {cap k : Nat} {t u : List Symbol} {f g : List FreqEntry} (hf : Tally t f)
    (h : countFreq cap u k f = .ok g) : Tally (t ++ u) g := by
  induction u generalizing t k f with
  | nil =>
    cases h
    simpa using hf
  | cons x u ih =>
    rw [List.append_cons]
    rw [countFreq] at h
    cases hb : bump x f with
    | some f' =>
      rw [hb] at h
      exact ih (hf.bump hb) h
    | none =>
      rw [hb] at h
      cases ha : appendTo cap f ⟨x, 1⟩ with
      | none => simp [ha] at h
      | some f' =>
        obtain ⟨-, rfl⟩ := appendTo_some ha
        simp only [ha] at h
        exact ih (hf.concat (hf.bump_eq_none_iff.1 hb)) h

/-- A tree with different leaf symbols has a code for each of them, whether or not its root is a leaf (R142, R143). -/
theorem exists_codesOf {nodes : List NodeRec} (hT : TreeOK nodes) (hdistinct : (leafSymbols nodes).Nodup) :
    ∃ m, codesOf nodes = .ok m ∧ (m.map CodeEntry.sym).Perm (leafSymbols nodes) := by
  rcases Nat.lt_or_eq_of_le hT.1 with hmany | hone
  · obtain ⟨m, hm, hsyms, -⟩ := codesOf_of_distinct hT hdistinct (rootInternal_of_treeOK hT hmany)
    exact ⟨m, hm, hsyms⟩
  · obtain ⟨x, f, rfl⟩ := eq_leaf_of_treeOK hT hone.symm
    exact ⟨_, rfl, .refl _⟩

/-! ### ENCODE over a text -/

theorem lookupCode_of_mem {code : List CodeEntry} (hnodup : (code.map CodeEntry.sym).Nodup) {e : CodeEntry}
    (he : e ∈ code) : lookupCode code e.sym = some e.bits := by
  cases h : lookupCode code e.sym with
  | none => exact absurd rfl (lookupCode_none.1 h e he)
  | some c =>
    obtain ⟨e', he', hsym, rfl⟩ := lookupCode_some h
    rw [List.inj_on_of_nodup_map hnodup he' he hsym]

theorem encodeFrom_error_mem {cap : Nat} {code : List CodeEntry} {t : List Symbol} {k : Nat} {out : List Bool}
    {e : ErrCode} {i : Nat} {x : Symbol} (h : encodeFrom cap code t k out = .error (e, i, x)) : x ∈ t := by
  induction t generalizing k out with
  | nil => cases h
  | cons y t ih =>
    unfold encodeFrom at h
    split at h
    · cases h
      exact List.mem_cons_self ..
    · split at h
      · cases h
        exact List.mem_cons_self ..
      · exact List.mem_cons_of_mem _ (ih h)

theorem length_le_flatten_length {R : List Bool → Symbol → Prop} (hpos : ∀ c x, R c x → 1 ≤ c.length)
    {paths : List (List Bool)} {t : List Symbol} (h : List.Forall₂ R paths t) : t.length ≤ paths.flatten.length := by
  induction h with
  | nil => exact le_rfl
  | cons hc _ ih =>
    have hbit := hpos _ _ hc
    rw [List.flatten_cons, List.length_append, List.length_cons]
    omega

/-- The code of a symbol in a code map; no bits when it has none. -/
def codeIn (code : List CodeEntry) (x : Symbol) : List Bool := (lookupCode code x).getD []

/-! ### The count, the tree and the codes -/

/-- FREQ and CODE as BTREE and BCODES make them of a text; NODE is `buildNodes` of FREQ (R130, R141). -/
structure Coded (c : Config) (t : List Symbol) (f : List FreqEntry) (m : List CodeEntry) : Prop where
  nonempty : t ≠ []
  freq : countFreq c.maxSyms t 0 [] = .ok f
  code : codesOf (buildNodes byFreqThenIndex f) = .ok m

theorem countFreq_ne_nil {cap : Nat} {t : List Symbol} {f : List FreqEntry} (ht : t ≠ [])
    (h : countFreq cap t 0 [] = .ok f) : f ≠ [] :=
  (countFreq_freqTable (FreqTable.nil cap) h).ne_nil (by simpa using ht)

/-- BCODES does not fail on the tree of a text: its leaves are the different symbols of the text (R138, R144). -/
theorem exists_codesOf_buildNodes {cap : Nat} {t : List Symbol} {f : List FreqEntry} (ht : t ≠ [])
    (h : countFreq cap t 0 [] = .ok f) :
    ∃ m, codesOf (buildNodes byFreqThenIndex f) = .ok m ∧ (m.map CodeEntry.sym).Perm (f.map FreqEntry.sym) := by
  obtain ⟨root, hforest⟩ := buildNodes_forest byFreqThenIndex (countFreq_ne_nil ht h)
  have hdistinct := (countFreq_freqTable (FreqTable.nil cap) h).nodup
  rw [← hforest.leafSymbols_eq] at hdistinct ⊢
  exact exists_codesOf hforest.treeOK hdistinct

theorem exists_coded {c : Config} {t : List Symbol} {f : List FreqEntry} (ht : t ≠ [])
    (h : countFreq c.maxSyms t 0 [] = .ok f) : ∃ m, Coded c t f m := by
  obtain ⟨m, hm, -⟩ := exists_codesOf_buildNodes ht h
  exact ⟨m, ht, h, hm⟩

namespace Coded

variable {c : Config} {t : List Symbol} {f : List FreqEntry} {m : List CodeEntry}

theorem forest (h : Coded c t f m) : ∃ root, Forest f (buildNodes byFreqThenIndex f) [root] :=
  buildNodes_forest byFreqThenIndex (countFreq_ne_nil h.nonempty h.freq)

theorem treeOK (h : Coded c t f m) : TreeOK (buildNodes byFreqThenIndex f) := by
  obtain ⟨root, hforest⟩ := h.forest
  exact hforest.treeOK

theorem codeMap (h : Coded c t f m) :
    CodeMap (buildNodes byFreqThenIndex f) (max 1 (internalCount (buildNodes byFreqThenIndex f))) m :=
  codesOf_codeMap h.treeOK h.code

/-- Every symbol of the text has a code (R146). -/
theorem exists_entry (h : Coded c t f m) {x : Symbol} (hx : x ∈ t) : ∃ e ∈ m, e.sym = x := by
  have htally : Tally t f := countFreq_tally Tally.nil h.freq
  obtain ⟨m', hm', hsyms⟩ := exists_codesOf_buildNodes h.nonempty h.freq
  cases h.code.symm.trans hm'
  rw [htally.syms] at hsyms
  exact List.mem_map.1 (hsyms.mem_iff.2 (List.mem_eraseDups.2 hx))

/-- No code is longer than MAX_CODE_LEN (R146). -/
theorem code_length_le (h : Coded c t f m) : ∀ e ∈ m, e.bits.length ≤ c.maxCodeLen := by
  obtain ⟨root, hforest⟩ := h.forest
  have hleaves := leafSymbols_length_of_treeOK h.treeOK
  have hcap := (countFreq_freqTable (FreqTable.nil c.maxSyms) h.freq).length_le
  rw [hforest.leafSymbols_eq, List.length_map] at hleaves
  have hinternal : max 1 (internalCount (buildNodes byFreqThenIndex f)) ≤ c.maxCodeLen := max_le_max le_rfl (by omega)
  exact fun e he => (h.codeMap.bounds e he).2.trans hinternal

/-- ENCODE with the codes of the text itself can only run out of room (R161, R162). -/
theorem encode_error (h : Coded c t f m) {e : ErrCode} {k : Nat} {x : Symbol}
    (herr : encodeFrom c.maxBits m t 0 [] = .error (e, k, x)) : e = .capacity := by
  rcases encodeFrom_error herr with ⟨-, hnone⟩ | ⟨hcap, -⟩
  · obtain ⟨e', he', hsym⟩ := h.exists_entry (encodeFrom_error_mem herr)
    exact absurd hsym (lookupCode_none.1 hnone e' he')
  · exact hcap

/-- ENCODE writes a bit or more for each symbol, and DECODE brings the text back (R146, R177). -/
theorem decode_encode (h : Coded c t f m) {b : List Bool} (hb : encodeFrom c.maxBits m t 0 [] = .ok b) :
    t.length ≤ b.length ∧
      (t.length ≤ c.maxText → decodeBits (buildNodes byFreqThenIndex f) c.maxText b = .ok (t, false)) := by
  obtain ⟨paths, rfl, hpaths⟩ := encodeFrom_eq_ok (Nat.zero_le _) hb
  exact ⟨length_le_flatten_length (fun _ _ he => (h.codeMap.bounds _ he).1) hpaths,
    decodeBits_of_codesOf h.treeOK h.code hpaths⟩

/-- ENCODE completes when the text fits with codes of the greatest length (R146, R162). -/
theorem encode_ok (h : Coded c t f m) (hfits : t.length * c.maxCodeLen ≤ c.maxBits) :
    ∃ b, encodeFrom c.maxBits m t 0 [] = .ok b := by
  have hcode : ∀ e ∈ m, e.bits = codeIn m e.sym := fun e he => by
    rw [codeIn, lookupCode_of_mem h.codeMap.nodup he, Option.getD_some]
  have hlen : ∀ n ∈ t.map (fun x => (codeIn m x).length), n ≤ c.maxCodeLen := by
    refine List.forall_mem_map.2 fun x hx => ?_
    obtain ⟨e, he, rfl⟩ := h.exists_entry hx
    exact hcode e he ▸ h.code_length_le e he
  have hsum := List.sum_le_card_nsmul _ _ hlen
  rw [← List.length_flatMap, List.length_map, smul_eq_mul] at hsum
  exact ⟨_, encodeFrom_ok hcode (fun _ => h.exists_entry) (hsum.trans hfits)⟩

end Coded

end Sys2Proof.Machine
end

section
/-! PROOF. How RUN can end (R205 to R208): its steps on a text that the codec encodes, and the state of each ending. -/

namespace Sys2Proof.Machine

/-! ### The rules of the steps, by what they compute -/

theorem btreeBody_ok {s : State} {f : List FreqEntry} (ht : s.text ≠ [])
    (h : countFreq s.cfg.maxSyms s.text 0 [] = .ok f) : btreeBody s = .ok (writeTree f s) := by
  simp [btreeBody, ht, h]

theorem btreeBody_capacity {s : State} {k : Nat} {x : Symbol} (ht : s.text ≠ [])
    (h : countFreq s.cfg.maxSyms s.text 0 [] = .error (k, x)) :
    btreeBody s = raise .capacity (word k) (x.setWidth 32) (invalidateTree s) := by
  simp [btreeBody, ht, h]

theorem bcodesBody_ok {s : State} {m : List CodeEntry} (hT : TreeOK s.node) (h : codesOf s.node = .ok m) :
    bcodesBody s = .ok (writeCode m s) := by
  simp [bcodesBody, treeFault_eq_none_iff.2 hT, h]

theorem encodeBody_ok {s : State} {b : List Bool} (h : encodeFrom s.cfg.maxBits s.code s.text 0 [] = .ok b) :
    encodeBody s = .ok (writeBits b s) := by
  simp [encodeBody, h]

theorem encodeBody_error {s : State} {e : ErrCode} {k : Nat} {x : Symbol}
    (h : encodeFrom s.cfg.maxBits s.code s.text 0 [] = .error (e, k, x)) :
    encodeBody s = raise e (word k) (x.setWidth 32) (invalidateBits s) := by
  simp [encodeBody, h]

/-- With no bits DECODE does not look at the tree, and answers what its loop would (R171). -/
theorem decodeBody_ok {s : State} {d : List Symbol} {p : Bool} (hT : TreeOK s.node)
    (h : decodeBits s.node s.cfg.maxText s.bits = .ok (d, p)) : decodeBody s = .ok (writeDecode d p s) := by
  by_cases hbits : s.bits = []
  · rw [hbits] at h
    cases (decodeBits_nil _ _).symm.trans h
    simp [decodeBody, hbits]
  · simp [decodeBody, hbits, treeFault_eq_none_iff.2 hT, h]

theorem decodeBody_error {s : State} {e : ErrCode × Word × Word} (hT : TreeOK s.node)
    (h : decodeBits s.node s.cfg.maxText s.bits = .error e) :
    decodeBody s = raise e.1 e.2.1 e.2.2 (invalidateDecode s) := by
  have hbits : s.bits ≠ [] := fun hnil => by
    rw [hnil] at h
    cases (decodeBits_nil _ _).symm.trans h
  simp [decodeBody, hbits, treeFault_eq_none_iff.2 hT, h]

theorem packBody_eq (s : State) : packBody s = .ok (writePack s) := rfl

theorem cmpBody_eq (s : State) : cmpBody s = .ok (setVerified (textsEqual s) s) := rfl

theorem cmpPBody_eq (s : State) : cmpPBody s = .ok (setVerifiedPk (textsEqual s) s) := rfl

theorem unpackTBody_packed {s : State} {b : List Bool} (hbytes : s.bytes = packBits b) (hpk : s.pkBits = word b.length)
    (hlen : b.length < 2 ^ 32) : unpackTBody s = .ok (writeBits b s) := by
  have hcount : s.pkBits.toNat = b.length := by rw [hpk, word_toNat_of_lt hlen]
  simp [unpackTBody, hcount, hbytes, packBits_length, take_unpackBytes_packBits]

/-- A number of bits that does not fit PK_BITS does not pass the check of R191. -/
theorem unpackTBody_overlong {s : State} {b : List Bool} (hbytes : s.bytes = packBits b) (hpk : s.pkBits = word b.length)
    (hlen : 2 ^ 32 ≤ b.length) :
    unpackTBody s = raise .operand s.pkBits (word s.bytes.length) (invalidateBits s) := by
  have hne : ceil8 s.pkBits.toNat ≠ s.bytes.length := by
    have hmod := Nat.mod_lt b.length (Nat.two_pow_pos 32)
    rw [hpk, hbytes, packBits_length, word_toNat, ceil8, ceil8]
    omega
  simp [unpackTBody, hne]

/-! ### Steps 2 to 10

A hypothesis about the text of `s` is given as `by exact`: it is then read after the goal has fixed the state of the step. -/

theorem runSteps_cons_ok {st ph : BitVec 4} {body : State → Ended} {s t : State}
    (h : body { s with stepOrd := st, phase := ph } = .ok t) (rest : List (BitVec 4 × BitVec 4 × (State → Ended))) :
    runSteps ((st, ph, body) :: rest) s = runSteps rest t := by
  simp [runSteps, runStep, h]

theorem runSteps_cons_raise {st ph : BitVec 4} {body : State → Ended} {s t : State} {e : ErrCode} {i0 i1 : Word}
    (h : body { s with stepOrd := st, phase := ph } = raise e i0 i1 t)
    (rest : List (BitVec 4 × BitVec 4 × (State → Ended))) :
    runSteps ((st, ph, body) :: rest) s = raise e i0 i1 t := by
  rw [raise] at h ⊢
  simp [runSteps, runStep, h]

/-- The outputs of BTREE, BCODES and ENCODE in place. -/
def encoded (f : List FreqEntry) (m : List CodeEntry) (b : List Bool) (s : State) : State :=
  { s with freq := f, node := buildNodes byFreqThenIndex f, code := m, bits := b }

/-- The outputs of BTREE, BCODES, ENCODE and PACK in place. -/
def packed (f : List FreqEntry) (m : List CodeEntry) (b : List Bool) (s : State) : State :=
  { s with
    freq := f, node := buildNodes byFreqThenIndex f, code := m, bits := b, bytes := packBits b, pkBits := word b.length }

/-- The outputs of BTREE to CMP in place, when DECODE answered `d` and `p`. -/
def compared (f : List FreqEntry) (m : List CodeEntry) (b : List Bool) (d : List Symbol) (p : Bool) (s : State) : State :=
  { s with
    freq := f, node := buildNodes byFreqThenIndex f, code := m, bits := b, bytes := packBits b, pkBits := word b.length
    dtext := d, decPartial := p, verified := decide (d = s.text), mismatch := s.mismatch || !decide (d = s.text) }

/-- The outputs of BTREE to CMP.p in place: UNPACK.t and the second DECODE wrote again what was there. -/
def decoded (f : List FreqEntry) (m : List CodeEntry) (b : List Bool) (d : List Symbol) (p : Bool) (s : State) : State :=
  setVerifiedPk (decide (d = s.text)) (compared f m b d p s)

section Steps

variable {s : State} {f : List FreqEntry} {m : List CodeEntry} {b : List Bool}

theorem codecSteps_uncounted {k : Nat} {x : Symbol} (ht : s.text ≠ [])
    (h : countFreq s.cfg.maxSyms s.text 0 [] = .error (k, x)) :
    runSteps codecSteps s =
      .error (errorEntry .capacity (word k) (x.setWidth 32) 0x2 2 (invalidateTree s)) :=
  runSteps_cons_raise (btreeBody_capacity (by exact ht) (by exact h)) _

theorem codecSteps_coded (h : Coded s.cfg s.text f m) :
    runSteps codecSteps s =
      runSteps (codecSteps.drop 2) { encoded f m s.bits s with stepOrd := 3, phase := 0x3 } :=
  (runSteps_cons_ok (btreeBody_ok (by exact h.nonempty) (by exact h.freq)) _).trans <|
    runSteps_cons_ok (bcodesBody_ok (by exact h.treeOK) (by exact h.code)) _

theorem codecSteps_unencoded (h : Coded s.cfg s.text f m) {e : ErrCode} {k : Nat} {x : Symbol}
    (hb : encodeFrom s.cfg.maxBits m s.text 0 [] = .error (e, k, x)) :
    runSteps codecSteps s = .error (errorEntry e (word k) (x.setWidth 32) 0x4 4 (encoded f m [] s)) :=
  (codecSteps_coded h).trans <| runSteps_cons_raise (encodeBody_error (by exact hb)) _

theorem codecSteps_encoded (h : Coded s.cfg s.text f m) (hb : encodeFrom s.cfg.maxBits m s.text 0 [] = .ok b) :
    runSteps codecSteps s = runSteps (codecSteps.drop 4) { packed f m b s with stepOrd := 5, phase := 0x6 } :=
  (codecSteps_coded h).trans <| (runSteps_cons_ok (encodeBody_ok (by exact hb)) _).trans <|
    runSteps_cons_ok (packBody_eq _) _

theorem codecSteps_undecoded (h : Coded s.cfg s.text f m) (hb : encodeFrom s.cfg.maxBits m s.text 0 [] = .ok b)
    {e : ErrCode × Word × Word} (hd : decodeBits (buildNodes byFreqThenIndex f) s.cfg.maxText b = .error e) :
    ∃ u, runSteps codecSteps s = .error u ∧ u.err = true :=
  ⟨_, (codecSteps_encoded h hb).trans (runSteps_cons_raise (decodeBody_error (by exact h.treeOK) (by exact hd)) _), rfl⟩

variable {d : List Symbol} {p : Bool}

theorem codecSteps_compared (h : Coded s.cfg s.text f m) (hb : encodeFrom s.cfg.maxBits m s.text 0 [] = .ok b)
    (hd : decodeBits (buildNodes byFreqThenIndex f) s.cfg.maxText b = .ok (d, p)) :
    runSteps codecSteps s = runSteps (codecSteps.drop 6) { compared f m b d p s with stepOrd := 7, phase := 0x8 } :=
  (codecSteps_encoded h hb).trans <|
    (runSteps_cons_ok (decodeBody_ok (by exact h.treeOK) (by exact hd)) _).trans <|
      runSteps_cons_ok (cmpBody_eq _) _

theorem codecSteps_overlong (h : Coded s.cfg s.text f m) (hb : encodeFrom s.cfg.maxBits m s.text 0 [] = .ok b)
    (hd : decodeBits (buildNodes byFreqThenIndex f) s.cfg.maxText b = .ok (d, p)) (hlen : 2 ^ 32 ≤ b.length) :
    ∃ u, runSteps codecSteps s = .error u ∧ u.err = true :=
  ⟨_, (codecSteps_compared h hb hd).trans (runSteps_cons_raise (unpackTBody_overlong rfl rfl hlen) _), rfl⟩

theorem codecSteps_unpacked (h : Coded s.cfg s.text f m) (hb : encodeFrom s.cfg.maxBits m s.text 0 [] = .ok b)
    (hd : decodeBits (buildNodes byFreqThenIndex f) s.cfg.maxText b = .ok (d, p)) (hlen : b.length < 2 ^ 32) :
    runSteps codecSteps s = runSteps (codecSteps.drop 7) { compared f m b d p s with stepOrd := 8, phase := 0x7 } :=
  (codecSteps_compared h hb hd).trans (runSteps_cons_ok (unpackTBody_packed rfl rfl hlen) _)

theorem codecSteps_decoded (h : Coded s.cfg s.text f m) (hb : encodeFrom s.cfg.maxBits m s.text 0 [] = .ok b)
    (hd : decodeBits (buildNodes byFreqThenIndex f) s.cfg.maxText b = .ok (d, p)) (hlen : b.length < 2 ^ 32) :
    runSteps codecSteps s = .ok { decoded f m b d p s with stepOrd := 10, phase := 0x8 } :=
  (codecSteps_unpacked h hb hd hlen).trans <|
    (runSteps_cons_ok (decodeBody_ok (by exact h.treeOK) (by exact hd)) _).trans <|
      runSteps_cons_ok (cmpPBody_eq _) _

end Steps

end Sys2Proof.Machine
end

section
/-! PROOF. The six ways RUN can end (R206 to R208). -/

namespace Sys2Proof

open Machine

/-- RUN after step 1: everything it writes is cleared but LCS and TEXT, which DIFF wrote (R206). -/
def diffed (s : State) : State :=
  { clearRunOutputs s with
    busy := true, done := false, phase := 0x1, stepOrd := 1
    lcs := lcsIndices s.cfg.lcsTie (linesA s) (linesB s), text := diffText s.cfg.lcsTie (linesA s) (linesB s) }

/-- The state RUN leaves from `s`. A text that is too long for DTEXT, or bits too many for PK_BITS, exist only outside the
constraints of R9. -/
inductive RunEnds (s : State) : State → Prop
  | openLine (i0 i1 : Word) (hopen : ¬LinesClosed s) :
      RunEnds s (commandError .operand i0 i1 0x1 1 (clearRunOutputs s))
  | bypass (hclosed : LinesClosed s) (htext : (diffed s).text = []) :
      RunEnds s (completed (writeStats (setEmptyDiff (diffed s))))
  | symbols {k : Nat} {x : Symbol} (hclosed : LinesClosed s) (htext : (diffed s).text ≠ [])
      (hcount : countFreq s.cfg.maxSyms (diffed s).text 0 [] = .error (k, x)) :
      RunEnds s (commandError .capacity (word k) (x.setWidth 32) 0x2 2 (diffed s))
  | bits {f : List FreqEntry} {m : List CodeEntry} {k : Nat} {x : Symbol} (hclosed : LinesClosed s)
      (hcoded : Coded s.cfg (diffed s).text f m)
      (hbits : encodeFrom s.cfg.maxBits m (diffed s).text 0 [] = .error (.capacity, k, x)) :
      RunEnds s (commandError .capacity (word k) (x.setWidth 32) 0x4 4 (encoded f m [] (diffed s)))
  | oversize {b : List Bool} {t : State} (hsize : s.cfg.maxText < (diffed s).text.length ∨ 2 ^ 32 ≤ b.length)
      (hbits : b.length ≤ s.cfg.maxBits) (herr : t.err = true) : RunEnds s t
  | done {f : List FreqEntry} {m : List CodeEntry} {b : List Bool} {d : List Symbol} {p : Bool}
      (hclosed : LinesClosed s) (hcoded : Coded s.cfg (diffed s).text f m)
      (hbits : encodeFrom s.cfg.maxBits m (diffed s).text 0 [] = .ok b)
      (hdec : decodeBits (buildNodes byFreqThenIndex f) s.cfg.maxText b = .ok (d, p)) (hlen : b.length < 2 ^ 32) :
      RunEnds s (completed (writeStats (decoded f m b d p (diffed s))))

/-! ### Step 1 -/

theorem openLine_of_closed {s : State} (h : LinesClosed s) :
    openLine s.aSym s.aEnd = false ∧ openLine s.bSym s.bEnd = false :=
  ⟨openLine_eq_false.2 h.1, openLine_eq_false.2 h.2⟩

theorem diffBody_of_closed {s : State} (h : LinesClosed s) : diffBody s = .ok (writeDiff s) := by
  obtain ⟨ha, hb⟩ := openLine_of_closed h
  simp [diffBody, ha, hb]

/-- Step 1 on closed lines; what follows is the codec or the bypass, and STAT. -/
theorem runBody_of_closed {s : State} (h : LinesClosed s) :
    runBody (accept 0xA s) = (codecOrBypass (diffed s)).bind (runStep 11 0x9 statBody) := by
  have hdiff : runStep 1 0x1 diffBody (clearRunOutputs (accept 0xA s)) = .ok (diffed s) :=
    diffBody_of_closed (by exact h)
  rw [congrFun runBody_eq_bind, hdiff]
  rfl

theorem runBody_of_diff_error {s e : State} (h : runStep 1 0x1 diffBody (clearRunOutputs s) = .error e) :
    runBody s = .error e := by
  rw [congrFun runBody_eq_bind, h]
  rfl

theorem exec_run_of_ok {s u : State} (herr : s.err = false) (h : LinesClosed s)
    (hu : codecOrBypass (diffed s) = .ok u) : exec .run s = .next (completed (writeStats u)) := by
  rw [exec_run, command_of_no_err herr, runBody_of_closed h, hu]
  rfl

theorem exec_run_of_error {s u : State} (herr : s.err = false) (h : LinesClosed s)
    (hu : codecOrBypass (diffed s) = .error u) : exec .run s = .next (endRaised u) := by
  rw [exec_run, command_of_no_err herr, runBody_of_closed h, hu]
  rfl

theorem exec_run_of_open {s : State} (herr : s.err = false) (h : ¬LinesClosed s) :
    ∃ i0 i1, exec .run s = .next (commandError .operand i0 i1 0x1 1 (clearRunOutputs s)) := by
  rw [exec_run, command_of_no_err herr]
  rcases diffBody_cases { clearRunOutputs (accept 0xA s) with stepOrd := 1, phase := 0x1 } with
    ⟨-, he⟩ | ⟨-, -, he⟩ | ⟨ha, hb, -⟩
  · exact ⟨_, _, by rw [runBody_of_diff_error he]; rfl⟩
  · exact ⟨_, _, by rw [runBody_of_diff_error he]; rfl⟩
  · exact absurd ⟨openLine_eq_false.1 ha, openLine_eq_false.1 hb⟩ h

/-! ### The endings -/

theorem codecOrBypass_of_text {s : State} (h : s.text ≠ []) : codecOrBypass s = runSteps codecSteps s := if_neg h

theorem exec_run_bypass {s : State} (herr : s.err = false) (h : LinesClosed s) (ht : (diffed s).text = []) :
    exec .run s = .next (completed (writeStats (setEmptyDiff (diffed s)))) :=
  exec_run_of_ok herr h (if_pos ht)

/-- On a text that BTREE counts: ENCODE fails, a buffer or PK_BITS is too small for a later step, or every step completes. -/
theorem exec_run_ends_of_coded {s : State} (herr : s.err = false) (h : LinesClosed s) {f : List FreqEntry}
    {m : List CodeEntry} (hcoded : Coded s.cfg (diffed s).text f m) : ∃ t, exec .run s = .next t ∧ RunEnds s t := by
  have hsteps := codecOrBypass_of_text hcoded.nonempty
  cases hbits : encodeFrom s.cfg.maxBits m (diffed s).text 0 [] with
  | error e =>
    obtain ⟨e, k, x⟩ := e
    obtain rfl := hcoded.encode_error hbits
    exact ⟨_, exec_run_of_error herr h (hsteps.trans (codecSteps_unencoded hcoded hbits)), .bits h hcoded hbits⟩
  | ok b =>
    have hroom := encodeFrom_length_le (Nat.zero_le _) hbits
    cases hdec : decodeBits (buildNodes byFreqThenIndex f) s.cfg.maxText b with
    | error e =>
      obtain ⟨u, hu, huerr⟩ := codecSteps_undecoded (s := diffed s) hcoded hbits hdec
      have hlong : s.cfg.maxText < (diffed s).text.length := Nat.lt_of_not_le fun hfits => by
        cases ((hcoded.decode_encode hbits).2 hfits).symm.trans hdec
      exact ⟨_, exec_run_of_error herr h (hsteps.trans hu), .oversize (.inl hlong) hroom huerr⟩
    | ok r =>
      obtain ⟨d, p⟩ := r
      rcases Nat.lt_or_ge b.length (2 ^ 32) with hlen | hlen
      · exact ⟨_, exec_run_of_ok herr h (hsteps.trans (codecSteps_decoded hcoded hbits hdec hlen)),
          .done h hcoded hbits hdec hlen⟩
      · obtain ⟨u, hu, huerr⟩ := codecSteps_overlong (s := diffed s) hcoded hbits hdec hlen
        exact ⟨_, exec_run_of_error herr h (hsteps.trans hu), .oversize (.inr hlen) hroom huerr⟩

/-- How RUN ends, by what it computes on the way. -/
theorem exec_run_ends {s : State} (herr : s.err = false) : ∃ t, exec .run s = .next t ∧ RunEnds s t := by
  by_cases h : LinesClosed s
  case neg =>
    obtain ⟨i0, i1, hexec⟩ := exec_run_of_open herr h
    exact ⟨_, hexec, .openLine i0 i1 h⟩
  case pos =>
    by_cases ht : (diffed s).text = []
    · exact ⟨_, exec_run_bypass herr h ht, .bypass h ht⟩
    · cases hcount : countFreq s.cfg.maxSyms (diffed s).text 0 [] with
      | error e =>
        have hsteps := (codecOrBypass_of_text ht).trans (codecSteps_uncounted ht hcount)
        exact ⟨_, exec_run_of_error herr h hsteps, .symbols h ht hcount⟩
      | ok f =>
        obtain ⟨m, hcoded⟩ := exists_coded ht hcount
        exact exec_run_ends_of_coded herr h hcoded

theorem runEnds_of_exec {s t : State} (herr : s.err = false) (h : exec .run s = .next t) : RunEnds s t := by
  obtain ⟨u, hu, hends⟩ := exec_run_ends herr
  cases h.symm.trans hu
  exact hends

end Sys2Proof
end

section
/-! PROOF. O49: RUN on equal line sequences, and only on these, takes the bypass (R207). -/

namespace Sys2Proof

open Machine

theorem linesWith_of_consumed {v : List Visit} (hv : ∀ e ∈ v, e.1 = none) {p : Option Bool → Bool} (hp : p none = true) :
    linesWith p v = v.map Prod.snd := by
  rw [linesWith, List.filter_eq_self.2 fun e he => by rw [hv e he, hp]]

/-- A removed or an added line leaves its mark in TEXT (R116). -/
theorem visitText_eq_nil {e : Visit} (h : visitText e = []) : e.1 = none := by
  rcases e with ⟨_ | _ | _, l⟩
  · rfl
  · cases h
  · cases h

/-- A walk that leaves no text consumes every line, so A and B are the common lines. -/
theorem eq_of_diffText_eq_nil {tie : LcsTie} {as bs : List Line} (h : diffText tie as bs = []) : as = bs := by
  obtain ⟨hsubA, hsubB⟩ := commonLines_lcsIndices_sublist tie as bs
  rw [diffText, walkText_eq_visits] at h
  have hconsumed := fun e he => visitText_eq_nil (List.flatMap_eq_nil_iff.1 h e he)
  calc as
    _ = linesWith (fun m => decide (m ≠ some true)) (visits _ as bs) :=
      (linesWith_visits_left _ rfl rfl rfl bs hsubA).symm
    _ = linesWith (fun m => decide (m ≠ some false)) (visits _ as bs) := by
      rw [linesWith_of_consumed hconsumed rfl, linesWith_of_consumed hconsumed rfl]
    _ = bs := linesWith_visits_right _ rfl rfl rfl as hsubB

/-- Settles O49: the bypass writes its flags, and STAT measures an empty text. -/
theorem runBypass : Obligations.RunBypass := by
  intro s herr hclosed
  refine ⟨⟨eq_of_diffText_eq_nil, fun heq => heq ▸ diffText_self _ _⟩, fun heq => ?_⟩
  have htext : diffText s.cfg.lcsTie (linesA s) (linesB s) = [] := heq ▸ diffText_self _ _
  have hlcs : lcsIndices s.cfg.lcsTie (linesA s) (linesB s) = List.range (linesA s).length := heq ▸ lcsIndices_self _ _
  rw [exec_run_bypass herr hclosed htext, diffed, htext, hlcs]
  rfl

end Sys2Proof
end

section
/-! PROOF. O50, O51: what RUN leaves in each of its endings (R205 to R210). -/

namespace Sys2Proof

open Machine

/-! ### Within the constraints of R9 -/

theorem diffed_text_length_le {s : State} (h : Memory.wf s = true) : (diffed s).text.length ≤ s.cfg.maxText := by
  obtain ⟨hcap, -⟩ := Config.bounds_of_wf (Memory.cfg_wf h)
  obtain ⟨-, ha, hb, -⟩ := (Memory.wf_iff s).1 h
  exact diffText_length_le hcap ha hb _

/-- The texts and bits of a machine are not oversize (R9, R118). -/
theorem not_oversize {s : State} (h : Memory.wf s = true) {b : List Bool} (hb : b.length ≤ s.cfg.maxBits) :
    ¬(s.cfg.maxText < (diffed s).text.length ∨ 2 ^ 32 ≤ b.length) := by
  obtain ⟨-, -, -, hbits⟩ := Config.stat_bounds_of_wf (Memory.cfg_wf h)
  have htext := diffed_text_length_le h
  omega

/-- When DECODE brings the text back, both comparisons succeed (R200). -/
theorem decoded_text (f : List FreqEntry) (m : List CodeEntry) (b : List Bool) (p : Bool) (s : State) :
    decoded f m b s.text p s =
      { packed f m b s with dtext := s.text, decPartial := p, verified := true, verifiedPk := true } := by
  simp [decoded, compared, packed, setVerifiedPk]

/-! ### RUN without error -/

/-- What O50 says of the state `t` that a RUN without error leaves. -/
def RoundTripVerified (s t : State) : Prop :=
  t.verified = true ∧ t.verifiedPk = true ∧ t.mismatch = false ∧ t.decPartial = false ∧ t.dtext = t.text ∧
  t.text = diffText s.cfg.lcsTie (linesA s) (linesB s) ∧ t.pkBits.toNat = t.bits.length ∧
  t.bytes.length = (t.bits.length + 7) / 8 ∧ (t.empty = true ↔ t.text = []) ∧
  (t.text = [] → t.ratioQ = 0 ∧ t.ratioR = 0) ∧
  (t.text ≠ [] → t.text.length ≤ t.bits.length ∧ 1 ≤ t.bytes.length ∧ (t.ratioQ ≠ 0 ∨ t.ratioR ≠ 0))

theorem roundTripVerified_bypass {s : State} (htext : (diffed s).text = [])
    (hwf : Memory.wf (completed (writeStats (setEmptyDiff (diffed s)))) = true) :
    RoundTripVerified s (completed (writeStats (setEmptyDiff (diffed s)))) :=
  ⟨rfl, rfl, rfl, rfl, htext.symm, rfl, rfl, (by decide : 0 = (0 + 7) / 8), ⟨fun _ => htext, fun _ => rfl⟩,
    fun _ => (writeStats_measure (s := setEmptyDiff (diffed s)) hwf).ratio_zero htext, fun hne => absurd htext hne⟩

/-- Bytes of a text give a ratio that is not 0 (R204). -/
theorem StatsMeasure.ratio_ne_zero {s t : State} (h : StatsMeasure s t) (htext : s.text ≠ [])
    (hbytes : 1 ≤ s.bytes.length) : t.ratioQ ≠ 0 ∨ t.ratioR ≠ 0 := by
  obtain ⟨hlaw, -⟩ := h.ratio_law htext
  by_contra hzero
  push Not at hzero
  obtain ⟨hq, hr⟩ := hzero
  have hnil : (0 : Word).toNat = 0 := rfl
  rw [hq, hr, hnil] at hlaw
  omega

theorem roundTripVerified_done {s : State} {f : List FreqEntry} {m : List CodeEntry} {b : List Bool}
    (hcoded : Coded s.cfg (diffed s).text f m) (hbits : encodeFrom s.cfg.maxBits m (diffed s).text 0 [] = .ok b)
    (hlen : b.length < 2 ^ 32) {t : State}
    (ht : t = completed (writeStats (decoded f m b (diffed s).text false (diffed s)))) (hwf : Memory.wf t = true) :
    RoundTripVerified s t := by
  obtain ⟨hlong, -⟩ := hcoded.decode_encode hbits
  have hpos := List.length_pos_iff.2 hcoded.nonempty
  have hbytes : 1 ≤ (packBits b).length := by
    rw [packBits_length, ceil8]
    omega
  have hne := hcoded.nonempty
  rw [decoded_text] at ht
  subst ht
  have hratio := (writeStats_measure hwf).ratio_ne_zero hne hbytes
  exact ⟨rfl, rfl, rfl, rfl, rfl, rfl, word_toNat_of_lt hlen, packBits_length b,
    ⟨fun h => (Bool.false_ne_true h).elim, fun h => absurd h hne⟩, fun h => absurd h hne,
    fun _ => ⟨hlong, hbytes, hratio⟩⟩

/-- Settles O50: RUN ends without an error by the bypass or after its last step; and when the data fit, it has no other
way to end. -/
theorem runVerifies : Obligations.RunVerifies := by
  refine ⟨fun s t hwf herr hexec hok => ?verified, fun s hwf herr hclosed hsyms hroom => ?completes⟩
  case verified =>
    have hwft := Memory.wf_exec hwf hexec
    cases runEnds_of_exec herr hexec with
    | openLine | symbols | bits => cases hok
    | bypass hclosed htext => exact roundTripVerified_bypass htext hwft
    | oversize hsize hb => exact absurd hsize (not_oversize hwf hb)
    | done hclosed hcoded hbits hdec hlen =>
      cases hdec.symm.trans ((hcoded.decode_encode hbits).2 (diffed_text_length_le hwf))
      exact roundTripVerified_done hcoded hbits hlen rfl hwft
  case completes =>
    obtain ⟨t, hexec, hends⟩ := exec_run_ends herr
    refine ⟨t, hexec, ?_⟩
    cases hends with
    | openLine i0 i1 hopen => exact absurd hclosed hopen
    | bypass => exact herr
    | symbols hclosed htext hcount =>
      obtain ⟨f, hf, -⟩ := countFreq_ok hsyms
      cases hf.symm.trans hcount
    | bits hclosed hcoded hbits =>
      obtain ⟨b, hb⟩ := hcoded.encode_ok hroom
      cases hb.symm.trans hbits
    | oversize hsize hb => exact absurd hsize (not_oversize hwf hb)
    | done => exact herr

end Sys2Proof
end

section
/-! PROOF. O51: the errors RUN can end with (R208). -/

namespace Sys2Proof

open Machine

theorem exec_btree_ok {s : State} (herr : s.err = false) {f : List FreqEntry} (ht : s.text ≠ [])
    (h : countFreq s.cfg.maxSyms s.text 0 [] = .ok f) :
    exec .btree s = .next (completed { s with freq := f, node := buildNodes byFreqThenIndex f, code := [] }) := by
  rw [exec_btree, command_of_no_err herr, btreeBody_ok (by exact ht) (by exact h)]
  rfl

/-- What BTREE and BCODES leave after DIFF, on the text that RUN encodes. -/
theorem exec_btree_bcodes_of_coded {d : State} (herr : d.err = false) {f : List FreqEntry} {m : List CodeEntry}
    (h : Coded d.cfg d.text f m) :
    ∃ b c, exec .btree d = .next b ∧ b.err = false ∧ exec .bcodes b = .next c ∧ c.err = false ∧
      b.freq = f ∧ b.node = buildNodes byFreqThenIndex f ∧ c.code = m :=
  ⟨_, _, exec_btree_ok herr h.nonempty h.freq, herr, exec_bcodes_ok (by exact herr) (by exact h.treeOK) (by exact h.code),
    herr, rfl, rfl, rfl⟩

/-- Settles O51: the endings of RUN with an error, each with what its earlier steps wrote. -/
theorem runErrorsAreThree : Obligations.RunErrorsAreThree := by
  intro s t hwf herr hexec hfail
  cases runEnds_of_exec herr hexec with
  | bypass | done => cases herr.symm.trans hfail
  | oversize hsize hb => exact absurd hsize (not_oversize hwf hb)
  | openLine i0 i1 hopen =>
    iterate 16 refine ⟨rfl, ?_⟩
    exact .inl ⟨rfl, rfl, rfl, rfl, rfl, rfl, rfl, rfl⟩
  | symbols hclosed htext hcount =>
    iterate 16 refine ⟨rfl, ?_⟩
    exact .inr ⟨_, exec_diff_of_closed herr hclosed, herr, rfl, rfl, rfl, .inl ⟨rfl, rfl, rfl, rfl, rfl, rfl⟩⟩
  | bits hclosed hcoded hbits =>
    obtain ⟨b, c, hb, hbok, hc, hcok, hfreq, hnode, hcode⟩ :=
      exec_btree_bcodes_of_coded (d := endNormal (writeDiff (accept 0x1 s))) herr hcoded
    iterate 16 refine ⟨rfl, ?_⟩
    exact .inr ⟨_, exec_diff_of_closed herr hclosed, herr, rfl, rfl, rfl, .inr ⟨rfl, rfl, rfl,
        b, c, hb, hbok, hc, hcok, hfreq.symm, hnode.symm, hcode.symm, hcoded.treeOK, hcoded.code⟩⟩

end Sys2Proof
end

section
/-! PROOF. O48: the commands of RUN's steps, one after the other, write what its steps write (R212). -/

namespace Sys2Proof

open Machine

theorem execAll_cons {i : Instr} {s t : State} (h : exec i s = .next t) (rest : List Instr) :
    execAll (i :: rest) s = execAll rest t := by
  rw [execAll, h]

/-! ### The commands of steps 2 to 10 -/

section Codec

variable {s : State} {f : List FreqEntry} {m : List CodeEntry} {b : List Bool} {d : List Symbol} {p : Bool}

theorem execAll_encoded (herr : s.err = false) (hcoded : Coded s.cfg s.text f m)
    (hbits : encodeFrom s.cfg.maxBits m s.text 0 [] = .ok b) (rest : List Instr) :
    execAll (.btree :: .bcodes :: .encode :: rest) s = execAll rest (completed (encoded f m b s)) :=
  (execAll_cons (exec_btree_ok herr hcoded.nonempty hcoded.freq) _).trans <|
    (execAll_cons (exec_bcodes_ok (by exact herr) (by exact hcoded.treeOK) (by exact hcoded.code)) _).trans <|
      execAll_cons (exec_encode_ok (by exact herr) (by exact hbits)) _

theorem execAll_compared (herr : s.err = false) (hcoded : Coded s.cfg s.text f m)
    (hdec : decodeBits (buildNodes byFreqThenIndex f) s.cfg.maxText b = .ok (d, p)) (rest : List Instr) :
    execAll (.pack :: .decode :: .cmp :: rest) (completed (encoded f m b s)) =
      execAll rest (completed (compared f m b d p s)) :=
  (execAll_cons (exec_pack_of_no_err (by exact herr)) _).trans <|
    (execAll_cons (exec_decode_ok (by exact herr) (by exact hcoded.treeOK) (by exact hdec)) _).trans <|
      execAll_cons (exec_cmp_of_no_err (by exact herr)) _

theorem execAll_decoded (herr : s.err = false) (hcoded : Coded s.cfg s.text f m)
    (hdec : decodeBits (buildNodes byFreqThenIndex f) s.cfg.maxText b = .ok (d, p)) (hlen : b.length < 2 ^ 32)
    (rest : List Instr) :
    execAll (.unpackT :: .decode :: .cmpP :: rest) (completed (compared f m b d p s)) =
      execAll rest (completed (decoded f m b d p s)) :=
  (execAll_cons (exec_unpackT_packed (by exact herr) rfl (word_toNat_of_lt hlen)) _).trans <|
    (execAll_cons (exec_decode_ok (by exact herr) (by exact hcoded.treeOK) (by exact hdec)) _).trans <|
      execAll_cons (exec_cmpP_of_no_err (by exact herr)) _

end Codec

/-! ### The whole sequence -/

/-- An idle state without an error is one whose error record and position were cleared (R24, R41). -/
theorem exists_cleared_of_idle {s : State} (h : errorRecordOk s = true) (herr : s.err = false) :
    ∃ r : State, s = { r with busy := false, err := false, errCode := .none, errInfo0 := 0, errInfo1 := 0, phase := 0,
                              stepOrd := 0 } := by
  obtain ⟨hbusy, -, hclear⟩ := (errorRecordOk_iff s).1 h
  obtain ⟨hcode, hinfo0, hinfo1, hphase, hstep⟩ := hclear herr
  refine ⟨s, ?_⟩
  cases s
  simp only at hbusy herr hcode hinfo0 hinfo1 hphase hstep
  subst hbusy herr hcode hinfo0 hinfo1 hphase hstep
  rfl

/-- The state CLR and DIFF leave on closed lines. -/
def clearedDiffed (s : State) : State := endNormal (writeDiff (accept 0x1 (endNormal (clearErrors (accept 0xF s)))))

theorem execAll_clr_diff {s : State} (hclosed : LinesClosed s) (rest : List Instr) :
    execAll (.clr :: .diff :: rest) s = execAll rest (clearedDiffed s) :=
  (execAll_cons (exec_clr s) _).trans (execAll_cons (exec_diff_of_closed (by exact rfl) (by exact hclosed)) _)

/-- Settles O48: CLR clears the flags, and what RUN cleared besides is written by the command whose output it is. -/
theorem runEqualsSequence : Obligations.RunEqualsSequence := by
  intro s t hidle herr hexec hok
  cases runEnds_of_exec herr hexec with
  | openLine | symbols | bits => cases hok
  | oversize _ _ hfail => cases hok.symm.trans hfail
  | bypass hclosed htext =>
    refine ⟨fun hne => absurd htext hne, fun _ => ?_⟩
    rw [execAll_clr_diff hclosed]
    obtain ⟨hempty, -⟩ := btreeErrors (clearedDiffed s) rfl
    exact ⟨_, execAll_cons (hempty htext) _, rfl, rfl⟩
  | done hclosed hcoded hbits hdec hlen =>
    refine ⟨fun _ => ?_, fun htext => absurd htext hcoded.nonempty⟩
    rw [execAll_clr_diff hclosed, execAll_encoded (s := clearedDiffed s) rfl hcoded hbits,
      execAll_compared (s := clearedDiffed s) rfl hcoded hdec, execAll_decoded (s := clearedDiffed s) rfl hcoded hdec hlen,
      execAll_cons (exec_stat_of_no_err (by exact rfl))]
    obtain ⟨r, rfl⟩ := exists_cleared_of_idle hidle herr
    rfl

end Sys2Proof
end

section
/-! PROOF. O52: no rule reads the staging and window registers or the model's own fields, and what RUN reads of the rest are
the parameters, A and B (R206, R210). -/

namespace Sys2Proof

open Machine

/-! ### The host's registers -/

/-- `s` with the staging and window registers and the model's own fields of `h`. -/
def withHost (h s : State) : State :=
  { s with
    nodeW0 := h.nodeW0, nodeW1 := h.nodeW1, rdBuf := h.rdBuf, rdIdx := h.rdIdx, rdSub := h.rdSub
    script := h.script, readData := h.readData, draws := h.draws }

@[simp] theorem withHost_cfg (h s : State) : (withHost h s).cfg = s.cfg := rfl
@[simp] theorem withHost_text (h s : State) : (withHost h s).text = s.text := rfl
@[simp] theorem withHost_node (h s : State) : (withHost h s).node = s.node := rfl
@[simp] theorem withHost_code (h s : State) : (withHost h s).code = s.code := rfl
@[simp] theorem withHost_bits (h s : State) : (withHost h s).bits = s.bits := rfl

/-- What a rule answers, with the host's registers of `h`. -/
def withHostEnded (h : State) : Ended → Ended
  | .ok s => .ok (withHost h s)
  | .error s => .error (withHost h s)

/-- A rule neither reads nor writes the host's registers. -/
def IgnoresHost (body : State → Ended) : Prop := ∀ h s, body (withHost h s) = withHostEnded h (body s)

theorem ignoresHost_ite {c : State → Prop} [DecidablePred c] {body body' : State → Ended}
    (hc : ∀ h s, c (withHost h s) ↔ c s) (hbody : IgnoresHost body) (hbody' : IgnoresHost body') :
    IgnoresHost fun s => if c s then body s else body' s := by
  intro h s
  by_cases hs : c s
  · simpa [hc, hs] using hbody h s
  · simpa [hc, hs] using hbody' h s

theorem IgnoresHost.bind {body body' : State → Ended} (hbody : IgnoresHost body) (hbody' : IgnoresHost body') :
    IgnoresHost fun s => (body s).bind body' := by
  intro h s
  dsimp only
  rw [hbody h s]
  cases body s with
  | error u => rfl
  | ok u => exact hbody' h u

/-! ### The rules of RUN's steps -/

theorem ignoresHost_diffBody : IgnoresHost diffBody :=
  ignoresHost_ite (fun _ _ => Iff.rfl) (fun _ _ => rfl)
    (ignoresHost_ite (fun _ _ => Iff.rfl) (fun _ _ => rfl) fun _ _ => rfl)

theorem ignoresHost_btreeBody : IgnoresHost btreeBody := by
  refine ignoresHost_ite (fun _ _ => Iff.rfl) (fun _ _ => rfl) fun h s => ?_
  simp only [withHost_text, withHost_cfg]
  cases countFreq s.cfg.maxSyms s.text 0 [] <;> rfl

theorem ignoresHost_bcodesBody : IgnoresHost bcodesBody := by
  intro h s
  simp only [bcodesBody, withHost_node]
  cases treeFault s.node with
  | some q => rfl
  | none => cases codesOf s.node <;> rfl

theorem ignoresHost_encodeBody : IgnoresHost encodeBody := by
  intro h s
  simp only [encodeBody, withHost_cfg, withHost_code, withHost_text]
  cases encodeFrom s.cfg.maxBits s.code s.text 0 [] <;> rfl

theorem ignoresHost_decodeBody : IgnoresHost decodeBody := by
  refine ignoresHost_ite (fun _ _ => Iff.rfl) (fun _ _ => rfl) fun h s => ?_
  simp only [withHost_bits, withHost_node, withHost_cfg]
  cases treeFault s.node with
  | some q => rfl
  | none => cases decodeBits s.node s.cfg.maxText s.bits <;> rfl

theorem ignoresHost_packBody : IgnoresHost packBody := fun _ _ => rfl

theorem ignoresHost_unpackTBody : IgnoresHost unpackTBody :=
  ignoresHost_ite (fun _ _ => Iff.rfl) (fun _ _ => rfl) fun _ _ => rfl

theorem ignoresHost_cmpBody : IgnoresHost cmpBody := fun _ _ => rfl

theorem ignoresHost_cmpPBody : IgnoresHost cmpPBody := fun _ _ => rfl

theorem ignoresHost_statBody : IgnoresHost statBody := fun _ _ => rfl

/-! ### RUN -/

theorem IgnoresHost.runStep {body : State → Ended} (hbody : IgnoresHost body) (st ph : BitVec 4) :
    IgnoresHost (runStep st ph body) := fun h s => hbody h { s with stepOrd := st, phase := ph }

theorem ignoresHost_runSteps {steps : List (BitVec 4 × BitVec 4 × (State → Ended))}
    (hsteps : ∀ e ∈ steps, IgnoresHost e.2.2) : IgnoresHost (runSteps steps) := by
  induction steps with
  | nil => exact fun _ _ => rfl
  | cons e rest ih =>
    obtain ⟨st, ph, body⟩ := e
    obtain ⟨hbody, hrest⟩ := List.forall_mem_cons.1 hsteps
    rw [runSteps_cons_eq_bind]
    exact (hbody.runStep st ph).bind (ih hrest)

theorem ignoresHost_codecOrBypass : IgnoresHost codecOrBypass := by
  refine ignoresHost_ite (fun _ _ => Iff.rfl) (fun _ _ => rfl) (ignoresHost_runSteps ?_)
  simp [codecSteps, ignoresHost_btreeBody, ignoresHost_bcodesBody, ignoresHost_encodeBody, ignoresHost_packBody,
    ignoresHost_decodeBody, ignoresHost_cmpBody, ignoresHost_unpackTBody, ignoresHost_cmpPBody]

/-- RUN from its first step on. -/
def runFromStep1 (s : State) : Ended :=
  ((runStep 1 0x1 diffBody s).bind codecOrBypass).bind (runStep 11 0x9 statBody)

theorem runBody_eq_runFromStep1 (s : State) : runBody s = runFromStep1 (clearRunOutputs s) :=
  congrFun runBody_eq_bind s

theorem ignoresHost_runFromStep1 : IgnoresHost runFromStep1 :=
  ((ignoresHost_diffBody.runStep 1 0x1).bind ignoresHost_codecOrBypass).bind (ignoresHost_statBody.runStep 11 0x9)

theorem finish_withHostEnded (h : State) (r : Ended) : finish (withHostEnded h r) = withHost h (finish r) := by
  cases r <;> rfl

/-- What an idle state holds besides the parameters, A, B and the host's registers, RUN clears before its first step. -/
theorem clearRunOutputs_eq_withHost {s s' : State} (hidle : errorRecordOk s = true) (hidle' : errorRecordOk s' = true)
    (herr : s.err = false) (herr' : s'.err = false) (hcfg : s.cfg = s'.cfg) (haSym : s.aSym = s'.aSym)
    (haEnd : s.aEnd = s'.aEnd) (hbSym : s.bSym = s'.bSym) (hbEnd : s.bEnd = s'.bEnd) :
    clearRunOutputs (accept 0xA s') = withHost s' (clearRunOutputs (accept 0xA s)) := by
  obtain ⟨r, rfl⟩ := exists_cleared_of_idle hidle herr
  obtain ⟨r', rfl⟩ := exists_cleared_of_idle hidle' herr'
  simp only at hcfg haSym haEnd hbSym hbEnd
  simp only [clearRunOutputs, clearResultFlags, accept, withHost, hcfg, haSym, haEnd, hbSym, hbEnd]

/-- Settles O52: from the cleared states on, RUN does not look at where they differ. -/
theorem runDependsOnInputsOnly : Obligations.RunDependsOnInputsOnly := by
  intro s s' t t' hidle hidle' herr herr' hcfg haSym haEnd hbSym hbEnd ht ht'
  rw [exec_run, command_of_no_err herr, runBody_eq_runFromStep1] at ht
  rw [exec_run, command_of_no_err herr', runBody_eq_runFromStep1,
    clearRunOutputs_eq_withHost hidle hidle' herr herr' hcfg haSym haEnd hbSym hbEnd, ignoresHost_runFromStep1,
    finish_withHostEnded] at ht'
  cases ht
  cases ht'
  rfl

end Sys2Proof
end

section
/-! PROOF. O56: every rule but RUN's raises from the state it was given, with only its outputs emptied (R240 to R242). -/

namespace Sys2Proof

open Machine

/-- How the rule of `i` ends from `s`: with ERR as it was, or with an error recorded at the position of `s`, over `s` with the
outputs of `i` invalidated. -/
inductive EndsPrecisely (i : Instr) (s : State) : Ended → Prop
  | ok {u : State} (herr : u.err = s.err) : EndsPrecisely i s (.ok u)
  | error (e : ErrCode) (i0 i1 : Word) :
      EndsPrecisely i s (.error (errorEntry e i0 i1 s.phase s.stepOrd (invalidated i s)))

/-! ### The rules that can raise -/

theorem diffBody_endsPrecisely (s : State) : EndsPrecisely .diff s (diffBody s) := by
  rcases diffBody_cases s with ⟨-, h⟩ | ⟨-, -, h⟩ | ⟨-, -, h⟩ <;> rw [h]
  · exact .error _ _ _
  · exact .error _ _ _
  · exact .ok rfl

theorem btreeBody_endsPrecisely (s : State) : EndsPrecisely .btree s (btreeBody s) := by
  rcases btreeBody_cases s with ⟨-, h⟩ | ⟨_, _, -, -, h⟩ | ⟨_, -, -, h⟩ <;> rw [h]
  · exact .error _ _ _
  · exact .error _ _ _
  · exact .ok rfl

theorem bcodesBody_endsPrecisely (s : State) : EndsPrecisely .bcodes s (bcodesBody s) := by
  rcases bcodesBody_cases s with ⟨_, -, h⟩ | ⟨_, _, -, -, h⟩ | ⟨_, -, -, h⟩ <;> rw [h]
  · exact .error _ _ _
  · exact .error _ _ _
  · exact .ok rfl

theorem encodeBody_endsPrecisely (s : State) : EndsPrecisely .encode s (encodeBody s) := by
  rcases encodeBody_cases s with ⟨_, _, _, -, h⟩ | ⟨_, -, h⟩ <;> rw [h]
  · exact .error _ _ _
  · exact .ok rfl

theorem decodeBody_endsPrecisely (s : State) : EndsPrecisely .decode s (decodeBody s) := by
  rcases decodeBody_cases s with ⟨-, h⟩ | ⟨_, -, -, h⟩ | ⟨_, _, _, -, -, -, h⟩ | ⟨_, _, -, -, -, h⟩ <;> rw [h]
  · exact .ok rfl
  · exact .error _ _ _
  · exact .error _ _ _
  · exact .ok rfl

theorem unpackTBody_endsPrecisely (s : State) : EndsPrecisely .unpackT s (unpackTBody s) := by
  rcases unpackTBody_cases s with ⟨-, h⟩ | ⟨-, h⟩ <;> rw [h]
  · exact .error _ _ _
  · exact .ok rfl

/-! ### The rules that cannot raise -/

theorem packBody_endsPrecisely (s : State) : EndsPrecisely .pack s (packBody s) := .ok rfl

theorem unpackBody_endsPrecisely (s : State) : EndsPrecisely .unpack s (unpackBody s) := .ok rfl

theorem cmpBody_endsPrecisely (s : State) : EndsPrecisely .cmp s (cmpBody s) := .ok rfl

theorem cmpPBody_endsPrecisely (s : State) : EndsPrecisely .cmpP s (cmpPBody s) := .ok rfl

theorem statBody_endsPrecisely (s : State) : EndsPrecisely .stat s (statBody s) := .ok rfl

/-! ### The commands -/

/-- What accepting a command writes is none of its outputs. -/
theorem invalidated_accept (i : Instr) (op : BitVec 4) (s : State) :
    invalidated i (accept op s) = accept op (invalidated i s) := by
  cases i <;> rfl

/-- What `accept` wrote, the error entry and the end of the command write over. -/
theorem endRaised_errorEntry_accept (e : ErrCode) (i0 i1 : Word) (ph st op : BitVec 4) (s : State) :
    endRaised (errorEntry e i0 i1 ph st (accept op s)) = commandError e i0 i1 ph st s := rfl

/-- A command whose rule ends precisely and that leaves ERR = 1 took the error entry, at the position `accept` set. -/
theorem command_raises {i : Instr} {op : BitVec 4} {body : State → Ended} (hbody : ∀ s, EndsPrecisely i s (body s))
    {s t : State} (herr : s.err = false) (h : command op body s = .next t) (hraised : t.err = true) :
    t = commandError t.errCode t.errInfo0 t.errInfo1 op 0 (invalidated i s) := by
  rw [command_of_no_err herr] at h
  have hend := hbody (accept op s)
  cases hr : body (accept op s) <;> rw [hr] at h hend <;> cases h
  case ok u =>
    cases hend with
    | ok hkept => exact absurd ((hkept.trans herr).symm.trans hraised) Bool.false_ne_true
  case error u =>
    cases hend with
    | error e i0 i1 =>
      rw [invalidated_accept, finish_error, endRaised_errorEntry_accept]
      rfl

/-- Settles O56: RUN aside, each command but CLR has a rule that ends precisely, and CLR leaves ERR = 0. -/
theorem errorsArePrecise : Obligations.ErrorsArePrecise := by
  intro i s t hrun herr h hraised
  cases i with
  | diff => exact command_raises diffBody_endsPrecisely herr h hraised
  | btree => exact command_raises btreeBody_endsPrecisely herr h hraised
  | bcodes => exact command_raises bcodesBody_endsPrecisely herr h hraised
  | encode => exact command_raises encodeBody_endsPrecisely herr h hraised
  | decode => exact command_raises decodeBody_endsPrecisely herr h hraised
  | unpackT => exact command_raises unpackTBody_endsPrecisely herr h hraised
  | pack => exact command_raises packBody_endsPrecisely herr h hraised
  | unpack => exact command_raises unpackBody_endsPrecisely herr h hraised
  | cmp => exact command_raises cmpBody_endsPrecisely herr h hraised
  | cmpP => exact command_raises cmpPBody_endsPrecisely herr h hraised
  | stat => exact command_raises statBody_endsPrecisely herr h hraised
  | run => exact absurd rfl hrun
  | clr => cases h; cases hraised

end Sys2Proof
end

section
/-! PROOF. O8 and O9: the step that takes a reset, and what the reset state holds (R45, R260, R261). -/

namespace Sys2Proof

open Machine

/-! ### The step that takes a reset (R260) -/

/-- The port never stops a reset, whatever BUSY and ERR are (R260). -/
theorem stopOf_reset (s : State) : stopOf .reset s = none := rfl

theorem hostStep_reset (s : State) : hostStep .reset s = .next (hostReset s) := by
  unfold hostStep
  rw [stopOf_reset]

/-- Settles O8: the step takes the reset from the script, and `hostReset` keeps of the state only the parameters and the
model's own fields. -/
theorem resetFromAnyState : Obligations.ResetFromAnyState := by
  intro s rest h
  rw [step_cons h, hostStep_reset]
  rfl

/-! ### The reset state (R45, R261) -/

theorem statusWord_resetOf (c : Config) : statusWord (State.resetOf c) = 0 := by
  simp [statusWord, flagBit, State.resetOf]

/-- The readable registers that R261 makes 0, but STATUS: the error record, the lengths, PK_BITS, the statistics and the
selectors of the window. -/
def clearedRegisters : List Nat :=
  [0x02, 0x03, 0x04, 0x10, 0x11, 0x12, 0x13, 0x14, 0x15, 0x16, 0x17, 0x18, 0x19, 0x1A, 0x1B, 0x1C, 0x20, 0x21, 0x22, 0x23,
    0x24, 0x40, 0x41, 0x42]

theorem map_readCsr_resetOf (c : Config) :
    clearedRegisters.map (fun a => readCsr a (State.resetOf c)) = clearedRegisters.map fun _ => 0 := rfl

theorem readCsr_resetOf_of_cleared (c : Config) {a : Nat} (h : a ∈ clearedRegisters) :
    readCsr a (State.resetOf c) = 0 :=
  List.map_inj_left.1 (map_readCsr_resetOf c) a h

/-- No host operation is pending in the reset state, so the block waits (R261). -/
theorem step_resetOf (c : Config) : step (State.resetOf c) = .next (State.resetOf c) := step_nil rfl

/-- Settles O9: STATUS and its fields, the cleared registers, the buffers and the staging words, then the constants, which the
parameters alone give, and the idle step. -/
theorem resetState : Obligations.ResetState := by
  intro c s
  refine ⟨statusWord_resetOf c, rfl, rfl, rfl, rfl, rfl, rfl, rfl, rfl, rfl, rfl, ?registers⟩
  refine ⟨fun a ha => readCsr_resetOf_of_cleared c ha, ?buffers⟩
  refine ⟨rfl, rfl, rfl, rfl, rfl, rfl, rfl, rfl, rfl, rfl, rfl, rfl, rfl, rfl, ?constants⟩
  exact ⟨rfl, rfl, rfl, rfl, rfl, rfl, step_resetOf c⟩

end Sys2Proof
end
